-- ==== Sys2Proof/Word.lean ====
section
/-! DEFINITION. The word types of M100FSK and the two kinds of code word its opcode table holds. -/

namespace Sys2Proof

/-- A byte of a section or of a payload. -/
abbrev Byte := BitVec 8

/-- A 32-bit value: a command argument, an index, a token field (30_encoding R85, 20_memory R62, R63). -/
abbrev Word := BitVec 32

/-- A command word, OP in bits 35:32 and ARG in bits 31:0 (30_encoding R85). -/
abbrev CmdWord := BitVec 36

/-- The two encodings that have rows in the opcode table (30_encoding R112): a 36-bit command word of
the command port, and the 2-bit pulse code PK that travels from TC to BA (R95). -/
inductive CodeWord
  | command (cw : CmdWord)
  | pulse (pk : BitVec 2)
deriving DecidableEq, Repr

end Sys2Proof
end

