-- ==== Sys2Proof/Config.lean ====
section
/-! DEFINITION. What is fixed for the machine: the wire constants of 00_scope R9 and the parameters of
00_scope R11. -/

namespace Sys2Proof

namespace Config

/-- `MARKER`, the sync pattern (00_scope R9). -/
@[simp] abbrev marker : Byte := 0x7F
/-- `PRE_BYTE` (00_scope R9). -/
@[simp] abbrev preByte : Byte := 0x55
/-- `PRE_COUNT` (00_scope R9). -/
@[simp] abbrev preCount : Nat := 255
/-- `F0`, the tone of a 0 bit in Hz (00_scope R9). -/
@[simp] abbrev f0 : Nat := 1320
/-- `F1`, the tone of a 1 bit in Hz (00_scope R9). -/
@[simp] abbrev f1 : Nat := 2680
/-- `SIL_SECONDS` = 0.75 s as a fraction (00_scope R9): numerator. -/
@[simp] abbrev silNum : Nat := 3
/-- `SIL_SECONDS` = 0.75 s as a fraction (00_scope R9): denominator. -/
@[simp] abbrev silDen : Nat := 4
/-- `THR_RATIO` = 0.10 as a fraction (00_scope R9): numerator. -/
@[simp] abbrev thrNum : Nat := 1
/-- `THR_RATIO` = 0.10 as a fraction (00_scope R9): denominator. -/
@[simp] abbrev thrDen : Nat := 10
/-- `CAL_RATE`, the rate the windows are calibrated at (00_scope R9). -/
@[simp] abbrev calRate : Nat := 44100
/-- `ONE_LO` (00_scope R9). -/
@[simp] abbrev oneLo : Nat := 15
/-- `ONE_HI` (00_scope R9). -/
@[simp] abbrev oneHi : Nat := 20
/-- `ZERO_LO` (00_scope R9). -/
@[simp] abbrev zeroLo : Nat := 35
/-- `ZERO_HI` (00_scope R9). -/
@[simp] abbrev zeroHi : Nat := 39
/-- `START_LO` (00_scope R9). -/
@[simp] abbrev startLo : Nat := 41
/-- `START_HI` (00_scope R9). -/
@[simp] abbrev startHi : Nat := 46
/-- `GAP_MIN`, strict (00_scope R9). -/
@[simp] abbrev gapMin : Nat := 20000
/-- `HDR_LEN` (00_scope R9). -/
@[simp] abbrev hdrLen : Nat := 38
/-- `DAT_LEN` (00_scope R9). -/
@[simp] abbrev datLen : Nat := 278
/-- `DAT_MARK` (00_scope R9). -/
@[simp] abbrev datMark : Byte := 0x8D
/-- `TYPE_TEXT` (00_scope R9). -/
@[simp] abbrev typeText : Byte := 0x9C
/-- `TYPE_COMPILED` (00_scope R9). Text mode does not accept it (44_validator R208). -/
@[simp] abbrev typeCompiled : Byte := 0xD0
/-- `TYPE_BASIC` (00_scope R9). Text mode does not accept it (44_validator R208). -/
@[simp] abbrev typeBasic : Byte := 0xD3
/-- `FILLER` (00_scope R9). -/
@[simp] abbrev filler : Byte := 0x1A
/-- The pad byte of a name (30_encoding R106). -/
@[simp] abbrev space : Byte := 0x20
/-- `NAME_LEN_MAX` (00_scope R9). -/
@[simp] abbrev nameLenMax : Nat := 6
/-- `MISC_LEN` (00_scope R9). -/
@[simp] abbrev miscLen : Nat := 10
/-- `PAY_WIN` (00_scope R9). -/
@[simp] abbrev payWin : Nat := 256
/-- The last checksum-relevant position of a header record: name, misc and checksum (44_validator R203). -/
@[simp] abbrev hdrSumEnd : Nat := nameLenMax + miscLen + 1
/-- The last checksum-relevant position of a data record: payload window and checksum (44_validator R203). -/
@[simp] abbrev datSumEnd : Nat := payWin + 1
/-- The decided `RATE_W` (00_scope R11): all of ARG (30_encoding R87). -/
@[simp] abbrev rateW : Nat := 32
/-- The decided `CHAN_W` (00_scope R11): the operand of format F16 (30_encoding R87). -/
@[simp] abbrev chanW : Nat := 16
/-- The decided `BITS_MAX` (00_scope R11): the width of an input and an output sample. -/
@[simp] abbrev bitsMax : Nat := 32
/-- The decided `IDX_W` (00_scope R11): the width of `INFO2` and of the status port. -/
@[simp] abbrev idxW : Nat := 32

end Config

/-- `TAIL_POLICY`, what BF does with 1 to 7 leftover bits (00_scope R11, 20_memory R72). -/
inductive TailPolicy
  | discard
  | padZero
deriving DecidableEq, Repr

/-- `ALL_FILLER_LEN`, one of 0 and 256 (00_scope R11, 93_implementation_defined U1). -/
inductive AllFillerLen
  | zero
  | wholeWindow
deriving DecidableEq, Repr

/-- The reported length as `OS.len` carries it. -/
def AllFillerLen.len : AllFillerLen → BitVec 9
  | .zero => 0
  | .wholeWindow => 256

/-- One supplied table of the rounded sine, for one rate and depth: the entries of a 0 bit and of a 1 bit
("two read-only tables of N0 and N1 entries for the configured rate and depth", 43_modulator R185). -/
structure SineTable where
  rate : BitVec 32
  bits : BitVec 6
  zero : List Int
  one : List Int
deriving DecidableEq, Repr

/-- The parameters of 00_scope R11. They are plain data that the state carries and no step writes, so that
a claim about every state quantifies over them (log 5). The width parameters range up to the decided
values (log 6). `SINQ` is supplied as tables; where no table has an entry it is the exact rounded sine, so
that the decided value of the parameter is no table at all (log 7). -/
structure BuildParams where
  rateW : Fin (Config.rateW + 1)
  chanW : Fin (Config.chanW + 1)
  bitsMax : Fin (Config.bitsMax + 1)
  idxW : Fin (Config.idxW + 1)
  tailPolicy : TailPolicy
  ckTarget : Byte
  allFillerLen : AllFillerLen
  sine : List SineTable
deriving DecidableEq, Repr

/-- The decided values of 00_scope R11. -/
def BuildParams.decided : BuildParams where
  rateW := 32
  chanW := 16
  bitsMax := 32
  idxW := 32
  tailPolicy := .discard
  ckTarget := 0x00
  allFillerLen := .zero
  sine := []

end Sys2Proof
end

