-- ==== Sys2Proof/Syntax.lean ====
section
/-! DEFINITION. The instructions of M100FSK, one constructor per row of spec/opcode_table.json. -/

namespace Sys2Proof

/-- The pulse kinds and token codes of 30_encoding R95. -/
inductive PulseKind
  | zero
  | one
  | start
  | gap
deriving DecidableEq, Repr

/-- The twelve commands of 30_encoding R88 with the operands of R87 and R89, and the four pulse rows
of R112 (tokens inside the block, 30_encoding R100). -/
inductive Instr
  /-- 40_control R120; ARG is ignored, so it is no operand (log 11). -/
  | nop
  /-- 40_control R122, format U32. -/
  | setrate (u : BitVec 32)
  /-- 40_control R123, format F16. -/
  | setchan (u : BitVec 16)
  /-- 40_control R124, format F6. -/
  | setbits (u : BitVec 6)
  /-- 40_control R125, format F2: bit 0 TEXT, bit 1 IGNCK. -/
  | setmode (u : BitVec 2)
  /-- 40_control R126, format Z. -/
  | dstart
  /-- 41_demodulator R140, format S32: the operand read as two's complement. -/
  | sample (v : BitVec 32)
  /-- 40_control R127, format Z. -/
  | dend
  /-- 40_control R128, format Z. -/
  | mstart
  /-- 43_modulator R188, format F8. -/
  | pbyte (u : BitVec 8)
  /-- 43_modulator R189, format Z. -/
  | pend
  /-- 40_control R129, format Z. -/
  | mend
  /-- 42_assembler_framer R161, token code PK = 0. -/
  | pulseZero
  /-- 42_assembler_framer R162, token code PK = 1. -/
  | pulseOne
  /-- 42_assembler_framer R163, token code PK = 2. -/
  | pulseStart
  /-- 42_assembler_framer R168, token code PK = 3, delivered to BA as GEND. -/
  | pulseGap
deriving DecidableEq, Repr

end Sys2Proof
end

