-- ==== Sys2Proof/WellFormed.lean ====
section
/-! DEFINITION. Which instructions have legal operand values (30_encoding R91). The field widths of
`Instr` already exclude every other ill-formed argument. -/

namespace Sys2Proof

/-- 30_encoding R91: the operand of `SETRATE` and of `SETCHAN` is not 0, and that of `SETBITS` lies
in 1 to 32. The block refuses the others with `REASON = 2`; decoding does not (R112). -/
def Instr.wellFormed : Instr → Bool
  | .setrate u => u != 0
  | .setchan u => u != 0
  | .setbits u => u != 0 && decide (u.toNat ≤ Config.bitsMax)
  | .nop | .setmode _ | .dstart | .sample _ | .dend | .mstart | .pbyte _ | .pend | .mend
  | .pulseZero | .pulseOne | .pulseStart | .pulseGap => true

end Sys2Proof
end

