-- ==== Sys2Proof/Decode.lean ====
section
/-! DEFINITION. Decoding and encoding of the code words of 30_encoding R85 to R91, R95 and R112. -/

namespace Sys2Proof

/-- The opcode field, `CW[35:32]` (30_encoding R85). -/
def opOf (cw : CmdWord) : BitVec 4 := cw.extractLsb' 32 4

/-- The argument field, `CW[31:0]` (30_encoding R85). -/
def argOf (cw : CmdWord) : BitVec 32 := cw.extractLsb' 0 32

/-- The command word `OP ‖ ARG` (30_encoding R85, R93). -/
def cmdWord (op : BitVec 4) (arg : BitVec 32) : CmdWord := op ++ arg

/-- The low `n` bits of an argument, the operand of the formats F16, F8, F6 and F2 (30_encoding R89). -/
def operand (n : Nat) (arg : BitVec 32) : BitVec n := arg.extractLsb' 0 n

/-- The must-be-zero bits above the low `n` are 0 (30_encoding R87). -/
def fits (n : Nat) (arg : BitVec 32) : Bool := decide (arg.toNat < 2 ^ n)

/-- What a decoder answers: an instruction, or a rejection by name (30_encoding R90, R91). -/
inductive Decoded
  | instr (i : Instr)
  | reservedOpcode (op : BitVec 4)
  | badArgument (op : BitVec 4)
deriving DecidableEq, Repr

/-- An instruction whose format leaves must-be-zero bits, or the rejection of a word that breaks them. -/
def checked (op : BitVec 4) (ok : Bool) (i : Instr) : Decoded :=
  if ok then .instr i else .badArgument op

/-- The opcode map of 30_encoding R88 with the argument formats of R87. -/
def decodeCommand (cw : CmdWord) : Decoded :=
  let arg := argOf cw
  match (opOf cw).toNat with
  | 0 => .instr .nop
  | 1 => .instr (.setrate arg)
  | 2 => checked 0x2 (fits 16 arg) (.setchan (operand 16 arg))
  | 3 => checked 0x3 (fits 6 arg) (.setbits (operand 6 arg))
  | 4 => checked 0x4 (fits 2 arg) (.setmode (operand 2 arg))
  | 5 => checked 0x5 (fits 0 arg) .dstart
  | 6 => .instr (.sample arg)
  | 7 => checked 0x7 (fits 0 arg) .dend
  | 8 => checked 0x8 (fits 0 arg) .mstart
  | 9 => checked 0x9 (fits 8 arg) (.pbyte (operand 8 arg))
  | 10 => checked 0xA (fits 0 arg) .pend
  | 11 => checked 0xB (fits 0 arg) .mend
  | _ => .reservedOpcode (opOf cw)

/-- The pulse codes of 30_encoding R95: ZERO = 0, ONE = 1, START = 2, GAP = 3. -/
def decodePulse (pk : BitVec 2) : Instr :=
  match pk.toNat with
  | 0 => .pulseZero
  | 1 => .pulseOne
  | 2 => .pulseStart
  | _ => .pulseGap

/-- The decoder of the block: total, and every rejected word is rejected by name. -/
def decode : CodeWord → Decoded
  | .command cw => decodeCommand cw
  | .pulse pk => .instr (decodePulse pk)

/-- The encoder, from the same tables (30_encoding R87, R88, R95). `NOP` is encoded with `ARG = 0`. -/
def encode : Instr → CodeWord
  | .nop => .command (cmdWord 0x0 0)
  | .setrate u => .command (cmdWord 0x1 u)
  | .setchan u => .command (cmdWord 0x2 (u.setWidth 32))
  | .setbits u => .command (cmdWord 0x3 (u.setWidth 32))
  | .setmode u => .command (cmdWord 0x4 (u.setWidth 32))
  | .dstart => .command (cmdWord 0x5 0)
  | .sample v => .command (cmdWord 0x6 v)
  | .dend => .command (cmdWord 0x7 0)
  | .mstart => .command (cmdWord 0x8 0)
  | .pbyte u => .command (cmdWord 0x9 (u.setWidth 32))
  | .pend => .command (cmdWord 0xA 0)
  | .mend => .command (cmdWord 0xB 0)
  | .pulseZero => .pulse 0
  | .pulseOne => .pulse 1
  | .pulseStart => .pulse 2
  | .pulseGap => .pulse 3

/-- The opcode of a command (30_encoding R88), the `FOP` a refusal records. The internal tokens have
none: they are never refused. -/
def Instr.opcode? : Instr → Option (BitVec 4)
  | .nop => some 0x0
  | .setrate _ => some 0x1
  | .setchan _ => some 0x2
  | .setbits _ => some 0x3
  | .setmode _ => some 0x4
  | .dstart => some 0x5
  | .sample _ => some 0x6
  | .dend => some 0x7
  | .mstart => some 0x8
  | .pbyte _ => some 0x9
  | .pend => some 0xA
  | .mend => some 0xB
  | .pulseZero | .pulseOne | .pulseStart | .pulseGap => none

/-- The command rows of spec/opcode_table.json, `match` and `mask` (30_encoding R112). -/
def commandRows : List (CmdWord × CmdWord) :=
  [(0x000000000, 0xF00000000), (0x100000000, 0xF00000000), (0x200000000, 0xFFFFF0000),
    (0x300000000, 0xFFFFFFFC0), (0x400000000, 0xFFFFFFFFC), (0x500000000, 0xFFFFFFFFF),
    (0x600000000, 0xF00000000), (0x700000000, 0xFFFFFFFFF), (0x800000000, 0xFFFFFFFFF),
    (0x900000000, 0xFFFFFFF00), (0xA00000000, 0xFFFFFFFFF), (0xB00000000, 0xFFFFFFFFF)]

/-- The code word of a row of spec/opcode_table.json from its bits: a row of at most 8 bits is a pulse
row (2 bits), every other row a command row (36 bits). `none` where a bit above the row's width is set. -/
def tableCodeWord (nbits w : Nat) : Option CodeWord :=
  if nbits ≤ 8 then
    if w < 2 ^ 2 then some (.pulse (BitVec.ofNat 2 w)) else none
  else
    if w < 2 ^ 36 then some (.command (BitVec.ofNat 36 w)) else none

/-- The instruction the decoder reads from a table row's bits. -/
def decodeTableWord (nbits w : Nat) : Option Instr :=
  match tableCodeWord nbits w with
  | none => none
  | some c =>
    match decode c with
    | .instr i => some i
    | .reservedOpcode _ => none
    | .badArgument _ => none

end Sys2Proof
end

