-- ==== Sys2Proof/Machine/State.lean ====
section
/-! DEFINITION. All the state of M100FSK (10_state R20 to R48), its reset values (R53), the streams of
20_memory R61, and the two reason types of a step. -/

namespace Sys2Proof.Machine

/-- `LAST_SIGN` (10_state R31). The code 3 is never written, so it has no constructor (log 8). -/
inductive LastSign
  | none
  | pos
  | neg
deriving DecidableEq, Repr

/-- `DSTATE` (10_state R34). -/
inductive DState
  | idle
  | run
  | done
deriving DecidableEq, Repr

/-- `MSTATE` (10_state R46). -/
inductive MState
  | idle
  | run
deriving DecidableEq, Repr

/-- The eight decode errors (30_encoding R110, 60_exceptions R227). -/
inductive ErrorKind
  | invalidPulseLength
  | invalidStartPulse
  | startSequenceNotFound
  | invalidBufferLength
  | invalidChecksum
  | invalidFileType
  | missingStartByte
  | indexOverflow
deriving DecidableEq, Repr

/-- The result of a decode call, `D_CODE` and `OD.code`: `none` is code 0, success. Codes 9 to 15 are
never produced (30_encoding R110). -/
abbrev ResultCode := Option ErrorKind

/-- What a stage error register holds when `V = 1`: `CODE`, `INFO`, `INFO2` (10_state R35). -/
structure ErrorRecord where
  kind : ErrorKind
  info : Word
  info2 : Word
deriving DecidableEq, Repr

/-- The three stages of the decode path (60_exceptions R226). -/
inductive Stage
  | classifier
  | assembler
  | validator
deriving DecidableEq, Repr

/-- The reasons of a refusal (30_encoding R98). -/
inductive Reason
  | reservedOpcode
  | badArgument
  | wrongState
deriving DecidableEq, Repr

/-- Tokens of the decode output stream `DO` (20_memory R62, 30_encoding R103 to R105). -/
inductive DoToken
  /-- `OB(v)`: `DO_BYTE`. -/
  | ob (v : Byte)
  /-- `OS(sec, n, res, acc, len)`: `DO_SEC`, `DO_N`, `DO_RES`, `DO_ACC`, `DO_LEN`. -/
  | os (sec n : Word) (res : BitVec 3) (acc : Bool) (len : BitVec 9)
  /-- `OD(code, info, info2)`: `DO_CODE`, `DO_INFO`, `DO_INFO2`. -/
  | od (code : ResultCode) (info info2 : Word)
deriving DecidableEq, Repr

/-- What arrives at the block's inputs, in order: a code word to run, or the reset input for one clock
edge (30_encoding R86, 70_reset R260). The code word of a pulse row is no port of the block: it stands
here so that the step can run each row of the opcode table (log 3). -/
inductive PortInput
  | code (w : CodeWord)
  | rst
deriving DecidableEq, Repr

/-- Configuration registers (10_state R22 to R25). -/
structure CfgRegs where
  /-- `CFG_RATE`, R22. -/
  rate : BitVec 32
  /-- `CFG_CHAN`, R23. -/
  chan : BitVec 16
  /-- `CFG_BITS`, R24. -/
  bits : BitVec 6
  /-- `CFG_MODE`, R25: bit 0 TEXT, bit 1 IGNCK. -/
  mode : BitVec 2
deriving DecidableEq, Repr

/-- Decoder registers (10_state R29 to R45). -/
structure DecRegs where
  /-- `DSTATE`, R34. -/
  dstate : DState
  /-- `IDX`, R29. -/
  idx : BitVec 32
  /-- `CHPH`, R30. -/
  chph : BitVec 16
  /-- `LAST_SIGN`, R31. -/
  lastSign : LastSign
  /-- `PREV_VALID`, R32. -/
  prevValid : Bool
  /-- `PREV_IDX`, R32. -/
  prevIdx : BitVec 32
  /-- `GRP_OPEN`, R33. -/
  grpOpen : Bool
  /-- `ERR_CLS`, R35: `none` is `V = 0` with every field 0 (log 9). -/
  errCls : Option ErrorRecord
  /-- `ERR_ASM`, R35. -/
  errAsm : Option ErrorRecord
  /-- `ERR_VAL`, R35. -/
  errVal : Option ErrorRecord
  /-- `LOCKED`, R36. -/
  locked : Bool
  /-- `SR`, R37. -/
  sr : BitVec 8
  /-- `BITCNT`, R38. -/
  bitcnt : BitVec 3
  /-- `BSR`, R38. -/
  bsr : BitVec 8
  /-- `BYTECNT`, R39. -/
  bytecnt : BitVec 32
  /-- `SECIDX`, R40. -/
  secidx : BitVec 32
  /-- `RSUM`, R41. -/
  rsum : BitVec 8
  /-- `B0_OK`, R42. -/
  b0Ok : Bool
  /-- `B0_ACT`, R42. -/
  b0Act : BitVec 8
  /-- `NAME[0..5]`, R43. -/
  name : Vector (BitVec 8) 6
  /-- `PAYLEN`, R44. -/
  paylen : BitVec 9
  /-- `D_CODE`, R45. -/
  dCode : ResultCode
  /-- `D_INFO`, R45. -/
  dInfo : BitVec 32
  /-- `D_INFO2`, R45. -/
  dInfo2 : BitVec 32
deriving DecidableEq, Repr

/-- Modulator registers (10_state R46, R47). -/
structure ModRegs where
  /-- `MSTATE`, R46. -/
  mstate : MState
  /-- `M_INPAY`, R47. -/
  inPay : Bool
  /-- `M_HAVEPREV`, R47. -/
  havePrev : Bool
deriving DecidableEq, Repr

/-- The whole machine: the four groups of registers of 10_state R20, the streams of 20_memory R61, and
the model's own fields `inputs`, `doPast`, `moPast` and `build`. -/
structure State where
  cfg : CfgRegs
  dec : DecRegs
  mod : ModRegs
  /-- `FAULT`, 10_state R48. -/
  faultReg : BitVec 8
  /-- `DO` since the last reset, oldest token first (20_memory R62). -/
  doStream : List DoToken
  /-- `MO` since the last reset, oldest sample first (20_memory R63). -/
  moStream : List Word
  /-- Inputs presented and not yet accepted, next first (log 2). -/
  inputs : List PortInput
  /-- `DO` tokens that left the block before the last reset (log 4). -/
  doPast : List DoToken
  /-- `MO` samples that left the block before the last reset (log 4). -/
  moPast : List Word
  /-- The build-time parameters; no step writes them (log 5). -/
  build : BuildParams
deriving DecidableEq, Repr

/-- Reset values of the configuration registers (10_state R53). -/
def CfgRegs.reset : CfgRegs where
  rate := 44100
  chan := 1
  bits := 16
  mode := 0b00

/-- Reset values of the decoder registers (10_state R53). -/
def DecRegs.reset : DecRegs where
  dstate := .idle
  idx := 0
  chph := 0
  lastSign := .none
  prevValid := false
  prevIdx := 0
  grpOpen := false
  errCls := none
  errAsm := none
  errVal := none
  locked := false
  sr := 0xFF
  bitcnt := 0
  bsr := 0x00
  bytecnt := 0
  secidx := 0
  rsum := 0x00
  b0Ok := false
  b0Act := 0x00
  name := Vector.replicate 6 0x00
  paylen := 0
  dCode := none
  dInfo := 0
  dInfo2 := 0

/-- Reset values of the modulator registers (10_state R53). -/
def ModRegs.reset : ModRegs where
  mstate := .idle
  inPay := false
  havePrev := false

/-- The machine right after reset (10_state R53, 70_reset R260, R262): every register at its reset
value, both output streams empty, nothing presented yet, the decided build parameters. -/
def State.reset : State where
  cfg := CfgRegs.reset
  dec := DecRegs.reset
  mod := ModRegs.reset
  faultReg := 0x00
  doStream := []
  moStream := []
  inputs := []
  doPast := []
  moPast := []
  build := BuildParams.decided

/-- The faults of a step: none. Nothing in the block stops it (93_implementation_defined section 4,
60_exceptions R237): a decode error and a refused command are next states. Nothing raises a fault,
which is safe. -/
inductive Fault
deriving DecidableEq, Repr

/-- Why the model gives no meaning. -/
inductive Refusal
  /-- Raised by an arm of `exec` for an instruction not modelled yet; no arm raises it. Safe: the model
  stops where the hardware goes on. -/
  | notModelled (mnemonic : String)
deriving DecidableEq, Repr

/-- What `exec` and `step` answer. -/
abbrev Result := Host.Outcome State Fault Refusal

end Sys2Proof.Machine
end

