-- ==== Sys2Proof/Machine/Flags.lean ====
section
/-! DEFINITION. The codes and the single-bit conditions of the block (30_encoding R98, 10_state R51),
the fault register's fields (10_state R48) and the status read port (10_state R49). -/

namespace Sys2Proof.Machine

/-! ### Codes -/

/-- `LAST_SIGN` codes (30_encoding R98). -/
def LastSign.code : LastSign → BitVec 2
  | .none => 0
  | .pos => 1
  | .neg => 2

/-- `DSTATE` codes (30_encoding R98). -/
def DState.code : DState → BitVec 2
  | .idle => 0
  | .run => 1
  | .done => 2

/-- `MSTATE` codes (30_encoding R98). -/
def MState.code : MState → BitVec 1
  | .idle => 0
  | .run => 1

/-- `FAULT.REASON` codes (30_encoding R98). -/
def Reason.code : Reason → BitVec 2
  | .reservedOpcode => 1
  | .badArgument => 2
  | .wrongState => 3

/-- Error codes (30_encoding R110). -/
def ErrorKind.code : ErrorKind → BitVec 4
  | .invalidPulseLength => 1
  | .invalidStartPulse => 2
  | .startSequenceNotFound => 3
  | .invalidBufferLength => 4
  | .invalidChecksum => 5
  | .invalidFileType => 6
  | .missingStartByte => 7
  | .indexOverflow => 8

/-- The stage an error belongs to (30_encoding R110). -/
def ErrorKind.stage : ErrorKind → Stage
  | .invalidPulseLength => .classifier
  | .invalidStartPulse => .assembler
  | .startSequenceNotFound => .assembler
  | .invalidBufferLength => .validator
  | .invalidChecksum => .validator
  | .invalidFileType => .validator
  | .missingStartByte => .validator
  | .indexOverflow => .classifier

/-- `D_CODE` and `DO_CODE`: 0 is success (30_encoding R110). -/
def ResultCode.code : ResultCode → BitVec 4
  | none => 0
  | some e => e.code

/-- `DO_KIND` (30_encoding R102). -/
def DoToken.kind : DoToken → BitVec 2
  | .ob _ => 0
  | .os _ _ _ _ _ => 1
  | .od _ _ _ => 2

/-! ### Conditions -/

/-- `CFG_MODE.TEXT` (10_state R25). -/
def CfgRegs.text (c : CfgRegs) : Bool := c.mode.getLsbD 0

/-- `CFG_MODE.IGNCK` (10_state R25). -/
def CfgRegs.ignck (c : CfgRegs) : Bool := c.mode.getLsbD 1

/-- The error register of a stage (60_exceptions R226). -/
def DecRegs.err (d : DecRegs) : Stage → Option ErrorRecord
  | .classifier => d.errCls
  | .assembler => d.errAsm
  | .validator => d.errVal

/-- `V` of a stage's error register: the stage is halted (10_state R35). -/
def DecRegs.halted (d : DecRegs) (st : Stage) : Bool := (d.err st).isSome

/-- A decode call is in progress. -/
def State.decRun (s : State) : Bool := decide (s.dec.dstate = .run)

/-- An encode call is in progress. -/
def State.modRun (s : State) : Bool := decide (s.mod.mstate = .run)

/-- The configuration may not be written (10_state R26). -/
def State.cfgFrozen (s : State) : Bool := s.decRun || s.modRun

/-- CV is called for a byte or a section end: text mode and the validator not halted
(42_assembler_framer R167, R169, 44_validator R200). -/
def State.cvActive (s : State) : Bool := s.cfg.text && !s.dec.halted .validator

/-- A record's checksum holds (44_validator R204). -/
def checksumOk (target sum : Byte) : Bool := decide (sum = target)

/-! ### The interface fault register (10_state R48) -/

/-- `CMDERR`, bit 0. -/
def cmdErr (f : BitVec 8) : Bool := f.getLsbD 0

/-- `REASON`, bits 2:1. -/
def faultReason (f : BitVec 8) : BitVec 2 := f.extractLsb' 1 2

/-- `FOP`, bits 7:4. -/
def faultOp (f : BitVec 8) : BitVec 4 := f.extractLsb' 4 4

/-- The register's contents after the first refusal: `FOP ‖ 0 ‖ REASON ‖ 1`. -/
def faultWord (reason : Reason) (op : BitVec 4) : BitVec 8 :=
  op ++ (0#1 ++ (reason.code ++ 1#1))

/-! ### Status read port (10_state R49) -/

/-- `S_DSTAT`, register 4. -/
def DecRegs.statusWord (d : DecRegs) : BitVec 32 :=
  d.chph ++ (0#3 ++ (d.bitcnt ++ (d.lastSign.code ++ (BitVec.ofBool d.prevValid ++
    (BitVec.ofBool d.grpOpen ++ (BitVec.ofBool d.locked ++ (BitVec.ofBool d.errVal.isSome ++
      (BitVec.ofBool d.errAsm.isSome ++ (BitVec.ofBool d.errCls.isSome ++ d.dstate.code)))))))))

/-- The combinational read at the status port: `ST_NUM` selects `ST_DATA`. A function of the state, with
no side effect (10_state R49, 20_memory R74; log 13). -/
def State.statusRead (s : State) (num : BitVec 4) : BitVec 32 :=
  match num.toNat with
  | 0 => s.cfg.rate
  | 1 => s.cfg.chan.setWidth 32
  | 2 => s.cfg.bits.setWidth 32
  | 3 => s.cfg.mode.setWidth 32
  | 4 => s.dec.statusWord
  | 5 => (ResultCode.code s.dec.dCode).setWidth 32
  | 6 => s.dec.dInfo
  | 7 => s.dec.dInfo2
  | 8 => s.dec.idx
  | 9 => s.dec.prevIdx
  | 10 => s.dec.secidx
  | 11 => s.dec.bytecnt
  | 12 => s.dec.b0Act ++ (s.dec.rsum ++ (s.dec.bsr ++ s.dec.sr))
  | 13 => (BitVec.ofBool s.dec.b0Ok ++ s.dec.paylen).setWidth 32
  | 14 => (BitVec.ofBool s.mod.havePrev ++ (BitVec.ofBool s.mod.inPay ++ s.mod.mstate.code)).setWidth 32
  | _ => s.faultReg.setWidth 32

end Sys2Proof.Machine
end

