-- ==== Sys2Proof/Machine/Operands.lean ====
section
/-! DEFINITION. Which operands are legal (30_encoding R91), and the values the block derives from its
registers and operands: full scale and threshold
(10_state R27), sample counts (43_modulator R182, R183), the sign and magnitude of a sample
(41_demodulator R142, R143), the timing windows (R146), the bit shifts (45_arithmetic R300). -/

namespace Sys2Proof.Machine

/-! ### Legal operands -/

/-- The operand of a configuration command is legal: positive, and within the limit the build sets, which
is the register's width or `BITS_MAX` (30_encoding R91, 00_scope R11). For the decided parameters this is
`Instr.wellFormed`. -/
def legalOperand (build : BuildParams) (i : Instr) : Bool :=
  i.wellFormed &&
  match i with
  | .setrate u => decide (u.toNat < 2 ^ build.rateW.val)
  | .setchan u => decide (u.toNat < 2 ^ build.chanW.val)
  | .setbits u => decide (u.toNat ≤ build.bitsMax.val)
  | .nop | .setmode _ | .dstart | .sample _ | .dend | .mstart | .pbyte _ | .pend | .mend
  | .pulseZero | .pulseOne | .pulseStart | .pulseGap => true

/-- The largest value of `IDX`, `2^IDX_W - 1` (10_state R29, 41_demodulator R141). -/
def indexLimit (build : BuildParams) : Nat := 2 ^ build.idxW.val - 1

/-! ### Derived configuration values -/

/-- `round(a / b)` of positive integers, ties away from zero (00_scope R14). -/
def roundDiv (a b : Nat) : Nat := (2 * a + b) / (2 * b)

/-- `A = max_amplitude(b) = 2^(b-1) - 1` (10_state R27). -/
def maxAmplitude (bits : BitVec 6) : Nat := 2 ^ (bits.toNat - 1) - 1

/-- `THR = round(0.1 * A)`, which is `(A + 5) div 10` (10_state R27). -/
def threshold (bits : BitVec 6) : Nat := roundDiv (Config.thrNum * maxAmplitude bits) Config.thrDen

/-- `N0`, samples per 0 bit (43_modulator R182). -/
def samplesZero (rate : BitVec 32) : Nat := roundDiv rate.toNat Config.f0

/-- `N1`, samples per 1 bit (43_modulator R182). -/
def samplesOne (rate : BitVec 32) : Nat := roundDiv rate.toNat Config.f1

/-- `NSIL = round(0.75 * CFG_RATE)`, which is `(3*CFG_RATE + 2) div 4` (43_modulator R183). -/
def samplesSilence (rate : BitVec 32) : Nat := roundDiv (Config.silNum * rate.toNat) Config.silDen

/-! ### Samples -/

/-- `|v|`, exact: 2^31 for the most negative value (00_scope R12, 41_demodulator R142). -/
def magnitude (v : Word) : Nat := v.toInt.natAbs

/-- The threshold test, strict (41_demodulator R142). -/
def aboveThreshold (bits : BitVec 6) (v : Word) : Bool := decide (threshold bits < magnitude v)

/-- The sign of a sample that passed the threshold test (41_demodulator R143). -/
def signOf (v : Word) : LastSign := if 0 < v.toInt then .pos else .neg

/-- The crossing test: positive after a negative `LAST_SIGN` (41_demodulator R143). -/
def isCrossing (last : LastSign) (v : Word) : Bool := decide (signOf v = .pos ∧ last = .neg)

/-! ### Timing windows -/

/-- `lo/44100 s ≤ Δt < hi/44100 s` by exact cross-multiplication (41_demodulator R146). -/
def inWindow (lo hi rate d : Nat) : Bool :=
  decide (lo * rate ≤ Config.calRate * d) && decide (Config.calRate * d < hi * rate)

/-- `classify(d)` at rate `r` (41_demodulator R146); `none` is a length in no window. -/
def classify (rate d : Nat) : Option PulseKind :=
  if inWindow Config.oneLo Config.oneHi rate d then some .one
  else if inWindow Config.zeroLo Config.zeroHi rate d then some .zero
  else if inWindow Config.startLo Config.startHi rate d then some .start
  else if Config.gapMin * rate < Config.calRate * d then some .gap
  else none

/-! ### Shift registers -/

/-- `((r << 1) | b) mod 256` (42_assembler_framer R165, R167). -/
def shiftIn (r : Byte) (b : Bool) : Byte := (r <<< 1) ||| (BitVec.ofBool b).setWidth 8

/-- `(BSR << (8 - BITCNT)) mod 256`, the padded last byte of `PadZero` (42_assembler_framer R169). -/
def padByte (bsr : Byte) (bitcnt : BitVec 3) : Byte := bsr <<< (8 - bitcnt.toNat)

end Sys2Proof.Machine
end

