-- ==== Sys2Proof/Machine/Sine.lean ====
section
/-! DEFINITION. The exact rounded sine `SINQ(f, i) = round(sin(2π f i / r) * A)` of 43_modulator R185, by
integer arithmetic (log 7), and `SINQ` as the configuration supplies it (45_arithmetic R304).

The phase is reduced to the first quarter, `sin(2π f i / r) = ± sin(π k / r)` with `0 ≤ k ≤ r/2`. The exact
tie is decided by the phase. Everywhere else an enclosure of the real value is narrowed, doubling the
digits, until both its ends round to the same integer. -/

namespace Sys2Proof.Machine.Sine

/-! ### The real value, enclosed -/

/-- `n` terms of `t * arctan(1/x)` from term `j` on, each truncated to an integer. -/
def arctanInv (t x : Nat) : Nat → Nat → Int
  | 0, _ => 0
  | n + 1, j => ((t / ((2 * j + 1) * x ^ (2 * j + 1)) : Nat) : Int) - arctanInv t x n (j + 1)

/-- `π * 10^d` to within 2, by `π = 16 arctan(1/5) - 4 arctan(1/239)` computed with `2 d` digits. -/
def piTo (d : Nat) : Nat :=
  let t := 10 ^ (2 * d)
  ((16 * arctanInv t 5 (2 * d) 0 - 4 * arctanInv t 239 (2 * d) 0) / ((10 ^ d : Nat) : Int)).toNat

/-- Horner form of `1 - x²/((2j)(2j+1)) * (1 - x²/((2j+2)(2j+3)) * …)` with `n` factors, for
`x² = x2 / d2`, as numerator and denominator. -/
def horner (x2 d2 : Nat) : Nat → Nat → Nat × Nat
  | 0, _ => (1, 1)
  | n + 1, j =>
    let h := horner x2 d2 n (j + 1)
    let q := (2 * j) * (2 * j + 1) * d2 * h.2
    (q - x2 * h.1, q)

/-- The Taylor polynomial of degree `2 n + 1` of the sine at `x / d`, as numerator and denominator. -/
def taylor (n x d : Nat) : Nat × Nat :=
  let h := horner (x * x) (d * d) n 1
  (x * h.1, d * h.2)

/-- The two ends of `A * sin(π k / r) ± A / 10^d`, each rounded to the nearest integer; `n` is the number
of factors of the Taylor polynomial. -/
def ends (r a k d n : Nat) : Nat × Nat :=
  let t := taylor n (k * piTo d) (10 ^ d * r)
  let mid := 2 * a * t.1 * 10 ^ d + t.2 * 10 ^ d
  let den := 2 * t.2 * 10 ^ d
  ((mid - 2 * a * t.2) / den, (mid + 2 * a * t.2) / den)

/-- The integer to which both ends round, at the first number of digits where they agree. `levels` bounds
the doublings; for a 32-bit rate and full scale 40 of them always suffice (log 7,
`Sine.nearest_eq_floor`), so that its end is not reached. -/
def nearest (r a k : Nat) : (levels d n : Nat) → Nat
  | 0, d, n => (ends r a k d n).1
  | levels + 1, d, n =>
    let e := ends r a k d n
    if e.1 = e.2 then e.1 else nearest r a k levels (2 * d) (2 * n)

/-! ### The rounded sine -/

/-- `round(A * sin(π k / r))` for `2 k ≤ r`. An exact tie occurs only at `sin = 1/2`, which is
`6 k = r` (43_modulator R185), and goes away from zero. -/
def quarter (r a k : Nat) : Nat :=
  if 6 * k = r then (a + 1) / 2 else nearest r a k 40 20 13

/-- The reduced phase of `f * i` periods over `r` samples: the sign (true: negative half-wave) and the
`k` of `quarter`. -/
def phase (r n : Nat) : Bool × Nat :=
  let p := n % r
  let m := if 2 * p ≤ r then p else r - p
  (decide (r < 2 * p), if 4 * m ≤ r then 2 * m else r - 2 * m)

/-- The exact `SINQ(f, i)` for rate `r` and full scale `a` (43_modulator R185). -/
def sinq (r a f i : Nat) : Int :=
  let ph := phase r (f * i)
  let m := min a (quarter r a ph.2)
  if ph.1 then -(m : Int) else (m : Int)

/-! ### The rounded sine as the configuration supplies it -/

/-- The entry of the first supplied table for this rate and depth, if there is one. -/
def tableEntry (tables : List SineTable) (cfg : CfgRegs) (b : Bool) (i : Nat) : Option Int :=
  match tables.find? (fun t => t.rate == cfg.rate && t.bits == cfg.bits) with
  | none => none
  | some t => (if b then t.one else t.zero)[i]?

/-- What a supplied function must satisfy: `SINQ(f, 0) = 0` and `|SINQ| ≤ A`
(93_implementation_defined P6, 45_arithmetic R304). -/
def constrain (a i : Nat) (v : Int) : Int := if i = 0 then 0 else max (-(a : Int)) (min (a : Int) v)

/-- `SINQ(f, i)` of the configuration, `f` the tone of the bit value `b`: the supplied entry, else the exact
rounded sine (00_scope R11, 43_modulator R185). -/
def supplied (tables : List SineTable) (cfg : CfgRegs) (b : Bool) (i : Nat) : Int :=
  let a := maxAmplitude cfg.bits
  match tableEntry tables cfg b i with
  | none => sinq cfg.rate.toNat a (if b then Config.f1 else Config.f0) i
  | some v => constrain a i v

end Sys2Proof.Machine.Sine
end

