-- ==== Sys2Proof/Machine/Ops.lean ====
section
/-! DEFINITION. The shared operations: emitting tokens (00_scope R15), raising a decode error and
leaving the error state (60_exceptions R228, R238), refusing a command (40_control R121), reset
(70_reset R260), and taking the next input (log 2). -/

namespace Sys2Proof.Machine

/-! ### Updates -/

/-- Replace the decoder registers. -/
def State.setDec (s : State) (d : DecRegs) : State := { s with dec := d }

/-- Replace the configuration registers. -/
def State.setCfg (s : State) (c : CfgRegs) : State := { s with cfg := c }

/-- Replace the modulator registers. -/
def State.setMod (s : State) (m : ModRegs) : State := { s with mod := m }

/-- `emit DO.<token>` (00_scope R15). -/
def State.emitDo (s : State) (t : DoToken) : State := { s with doStream := s.doStream ++ [t] }

/-- `emit MO.MS(v)` for each sample in order (00_scope R15). -/
def State.emitMo (s : State) (vs : List Word) : State := { s with moStream := s.moStream ++ vs }

/-! ### Decode errors: taking one and leaving the error state -/

/-- Write a stage's error register. -/
def DecRegs.setErr (d : DecRegs) (st : Stage) (e : Option ErrorRecord) : DecRegs :=
  match st with
  | .classifier => { d with errCls := e }
  | .assembler => { d with errAsm := e }
  | .validator => { d with errVal := e }

/-- `raise[stage] E(INFO = a, INFO2 = b)` (60_exceptions R228): the stage's register takes the record if
its `V` is 0; nothing else changes and control goes nowhere (R236). -/
def DecRegs.raise (d : DecRegs) (st : Stage) (e : ErrorKind) (a b : Word) : DecRegs :=
  if d.halted st then d else d.setErr st (some ⟨e, a, b⟩)

/-- The start of a decode call: every decoder register takes its reset value, which is the only way
besides reset to leave the error state (40_control R126, 10_state R54, 60_exceptions R238). -/
def DecRegs.restart : DecRegs := { DecRegs.reset with dstate := .run }

/-- `final_result()` (60_exceptions R232): classifier over assembler over validator. -/
def DecRegs.finalResult (d : DecRegs) : ResultCode × Word × Word :=
  match d.errCls, d.errAsm, d.errVal with
  | some e, _, _ => (some e.kind, e.info, e.info2)
  | none, some e, _ => (some e.kind, e.info, e.info2)
  | none, none, some e => (some e.kind, e.info, e.info2)
  | none, none, none => (none, d.secidx, 0)

/-! ### Refusal and reset -/

/-- `refuse(reason)` (40_control R121): the first refusal is recorded in `FAULT`, a later one is not;
nothing else changes. -/
def State.refuse (s : State) (reason : Reason) (op : BitVec 4) : State :=
  if cmdErr s.faultReg then s else { s with faultReg := faultWord reason op }

/-- A clock edge with `RST = 1` (70_reset R260, R261): every register at its reset value. The output
streams are empty afterwards (R262); what was emitted before is not recalled (log 4). -/
def State.assertReset (s : State) : State :=
  { State.reset with
    inputs := s.inputs
    doPast := s.doPast ++ s.doStream
    moPast := s.moPast ++ s.moStream
    build := s.build }

/-! ### Taking the next input -/

/-- The next input, in the order the host presents them, and the state that has taken it (20_memory R76). -/
def State.fetch (s : State) : Option (PortInput × State) :=
  match s.inputs with
  | [] => none
  | i :: rest => some (i, { s with inputs := rest })

/-- What the block does with a command word its decoder rejects: reserved opcode before argument
(40_control R121, 30_encoding R90, R91). -/
def State.rejectWord (s : State) : Decoded → State
  | .instr _ => s
  | .reservedOpcode op => s.refuse .reservedOpcode op
  | .badArgument op => s.refuse .badArgument op

/-- Put a code word at the head of the inputs. -/
def State.present (s : State) (w : CodeWord) : State := { s with inputs := .code w :: s.inputs }

end Sys2Proof.Machine
end

