-- ==== Sys2Proof/Machine/Validator.lean ====
section
/-! DEFINITION. The checksum validator CV (44_validator): one byte of a section, the checks at a section
end, and the two extraction lengths. -/

namespace Sys2Proof.Machine

/-- The required byte 0 of section `sec` (44_validator R202, R208). -/
def firstByte (sec : Word) : Byte := if sec = 0 then Config.typeText else Config.datMark

/-- `cv_byte(v, p)` at position 0 (44_validator R202). -/
def cvByteFirst (d : DecRegs) (v : Byte) : DecRegs :=
  { d with rsum := 0, paylen := 0, b0Act := v, b0Ok := decide (v = firstByte d.secidx) }

/-- `cv_byte(v, p)` in the header record, `p > 0` (44_validator R202). -/
def cvByteHeader (d : DecRegs) (v : Byte) (p : Nat) : DecRegs :=
  { d with
    rsum := if p ≤ Config.hdrSumEnd then d.rsum + v else d.rsum
    name := if p ≤ Config.nameLenMax then d.name.setIfInBounds (p - 1) v else d.name }

/-- `cv_byte(v, p)` in a data record, `p > 0` (44_validator R202). -/
def cvByteData (d : DecRegs) (v : Byte) (p : Nat) : DecRegs :=
  { d with
    rsum := if p ≤ Config.datSumEnd then d.rsum + v else d.rsum
    paylen := if p ≤ Config.payWin ∧ v ≠ Config.filler then BitVec.ofNat 9 p else d.paylen }

/-- `cv_byte(v, p)` (44_validator R202). -/
def cvByte (d : DecRegs) (v : Byte) (p : Nat) : DecRegs :=
  if p = 0 then cvByteFirst d v
  else if d.secidx = 0 then cvByteHeader d v p
  else cvByteData d v p

/-- `name_len()`: the least `k` with `NAME[k] = 0x20`, or 6 (44_validator R216). -/
def nameLen (name : Vector Byte 6) : BitVec 9 :=
  BitVec.ofNat 9 (name.toList.findIdx (fun b => b == Config.space))

/-- `payload_len()` (44_validator R217). -/
def payloadLen (build : BuildParams) (paylen : BitVec 9) : BitVec 9 :=
  if paylen ≠ 0 then paylen else build.allFillerLen.len

/-- What the checks of a section end find, in the order length, first byte, checksum
(44_validator R206, 60_exceptions R234). -/
def cvVerdict (cfg : CfgRegs) (build : BuildParams) (d : DecRegs) (n : Word) : Option ErrorRecord :=
  let len := if d.secidx = 0 then Config.hdrLen else Config.datLen
  if n.toNat ≠ len then some ⟨.invalidBufferLength, d.secidx, n⟩
  else if !d.b0Ok then
    some ⟨if d.secidx = 0 then .invalidFileType else .missingStartByte,
      (firstByte d.secidx).setWidth 32, d.b0Act.setWidth 32⟩
  else if !checksumOk build.ckTarget d.rsum && !cfg.ignck then
    some ⟨.invalidChecksum, d.secidx, d.rsum.setWidth 32⟩
  else none

/-- The `(acc, len)` of a section end (44_validator R206, R215). -/
def cvLengths (build : BuildParams) (d : DecRegs) : Bool × BitVec 9 :=
  (true, if d.secidx = 0 then nameLen d.name else payloadLen build d.paylen)

/-- `cv_section_end(n)` (44_validator R206): the registers afterwards and `(acc, len)`. -/
def cvSectionEnd (cfg : CfgRegs) (build : BuildParams) (d : DecRegs) (n : Word) :
    DecRegs × Bool × BitVec 9 :=
  match cvVerdict cfg build d n with
  | some e => (d.raise .validator e.kind e.info e.info2, false, 0)
  | none => (d, cvLengths build d)

end Sys2Proof.Machine
end

