-- ==== Sys2Proof/Machine/Framer.lean ====
section
/-! DEFINITION. The bit assembler with sync-pattern matcher BA and the byte framer BF
(42_assembler_framer), and the meanings of the four pulse rows of the opcode table. -/

namespace Sys2Proof.Machine

/-! ### Byte framer -/

/-- `emit_byte(v)` (42_assembler_framer R167). -/
def emitByte (s : State) (v : Byte) : State :=
  let s := s.emitDo (.ob v)
  let s := if s.cvActive then s.setDec (cvByte s.dec v s.dec.bytecnt.toNat) else s
  s.setDec { s.dec with bytecnt := s.dec.bytecnt + 1 }

/-- `push(b)`, one data bit while Locked (42_assembler_framer R167). -/
def push (s : State) (b : Bool) : State :=
  let bsr := shiftIn s.dec.bsr b
  if s.dec.bitcnt = 7 then emitByte (s.setDec { s.dec with bsr := bsr, bitcnt := 0 }) bsr
  else s.setDec { s.dec with bsr := bsr, bitcnt := s.dec.bitcnt + 1 }

/-! ### Sync-pattern matcher -/

/-- `seek(b)`, the shift register and the 0x7F detector (42_assembler_framer R165). -/
def seek (d : DecRegs) (b : Bool) : DecRegs :=
  let sr := shiftIn d.sr b
  if sr = Config.marker then { d with sr := sr, locked := true, bitcnt := 0, bsr := 0, bytecnt := 0 }
  else { d with sr := sr }

/-- `accept_bit(b)` (42_assembler_framer R164). -/
def acceptBit (s : State) (b : Bool) : State :=
  if s.dec.locked then push s b else s.setDec (seek s.dec b)

/-! ### Pulses -/

/-- The dispatch test of BA: a halted assembler ignores what it is sent (42_assembler_framer R160, R168). -/
def unlessAsmHalted (s : State) (t : State) : State := if s.dec.halted .assembler then s else t

/-- `PULSE(ZERO)` at BA (42_assembler_framer R160, R161). -/
def pulseZero (s : State) : State := unlessAsmHalted s (acceptBit s false)

/-- `PULSE(ONE)` at BA (42_assembler_framer R160, R162). -/
def pulseOne (s : State) : State := unlessAsmHalted s (acceptBit s true)

/-- `PULSE(START)` on a running assembler (42_assembler_framer R163). -/
def startPulse (s : State) : State :=
  if !s.dec.locked then acceptBit s false
  else if s.dec.bitcnt ≠ 0 then
    s.setDec (s.dec.raise .assembler .invalidStartPulse s.dec.secidx (s.dec.bitcnt.setWidth 32))
  else s

/-- `PULSE(START)` at BA (42_assembler_framer R160, R163). -/
def pulseStart (s : State) : State := unlessAsmHalted s (startPulse s)

/-! ### Section end -/

/-- The tail of a section: `PadZero` emits the leftover bits as one byte, `Discard` drops them
(42_assembler_framer R169, 20_memory R72). -/
def flushTail (s : State) : State :=
  if s.build.tailPolicy = .padZero ∧ s.dec.bitcnt ≠ 0 then
    emitByte (s.setDec { s.dec with bitcnt := 0 }) (padByte s.dec.bsr s.dec.bitcnt)
  else s

/-- The section registers after a section end (42_assembler_framer R169). -/
def DecRegs.nextSection (d : DecRegs) : DecRegs :=
  { d with locked := false, sr := 0xFF, bitcnt := 0, bsr := 0, bytecnt := 0, secidx := d.secidx + 1 }

/-- `section_end()` (42_assembler_framer R169). -/
def sectionEnd (s : State) : State :=
  let res := s.dec.bitcnt
  let s := flushTail s
  let n := s.dec.bytecnt
  let cv := if s.cvActive then cvSectionEnd s.cfg s.build s.dec n else (s.dec, false, 0)
  let s := (s.setDec cv.1).emitDo (.os s.dec.secidx n res cv.2.1 cv.2.2)
  s.setDec s.dec.nextSection

/-- The end of a group on a running assembler (42_assembler_framer R168). -/
def groupEnd (s : State) : State :=
  if s.dec.locked then sectionEnd s
  else s.setDec (s.dec.raise .assembler .startSequenceNotFound s.dec.secidx 0)

/-- `GEND` at BA (42_assembler_framer R168). -/
def gend (s : State) : State := unlessAsmHalted s (groupEnd s)

/-! ### Meanings -/

/-- PULSE.ZERO: the token `PULSE(ZERO)` received by BA (42_assembler_framer R161). -/
def execPulseZero (s : State) : Result := .next (pulseZero s)

/-- PULSE.ONE: the token `PULSE(ONE)` received by BA (42_assembler_framer R162). -/
def execPulseOne (s : State) : Result := .next (pulseOne s)

/-- PULSE.START: the token `PULSE(START)` received by BA (42_assembler_framer R163). -/
def execPulseStart (s : State) : Result := .next (pulseStart s)

/-- PULSE.GAP: delivered to BA as `GEND` (41_demodulator R148, 42_assembler_framer R168). -/
def execPulseGap (s : State) : Result := .next (gend s)

end Sys2Proof.Machine
end

