-- ==== Sys2Proof/Machine/Demodulator.lean ====
section
/-! DEFINITION. The zero-crossing detector ZCD and the timing classifier TC (41_demodulator), and the
meaning of SAMPLE. -/

namespace Sys2Proof.Machine

/-- `pulse(k)`, dispatch of a classified pulse (41_demodulator R148). -/
def pulse (s : State) (k : PulseKind) : State :=
  match k with
  | .gap =>
    let s := gend s
    s.setDec { s.dec with grpOpen := false }
  | .zero => pulseZero (s.setDec { s.dec with grpOpen := true })
  | .one => pulseOne (s.setDec { s.dec with grpOpen := true })
  | .start => pulseStart (s.setDec { s.dec with grpOpen := true })

/-- The pulse that ends at a crossing `d` samples after the one before (41_demodulator R145, R147). -/
def measure (s : State) (d c : Word) : State :=
  match classify s.cfg.rate.toNat d.toNat with
  | none => s.setDec (s.dec.raise .classifier .invalidPulseLength d c)
  | some k => pulse s k

/-- `cross(c)`, one crossing at index `c` (41_demodulator R145). -/
def cross (s : State) (c : Word) : State :=
  let s := if s.dec.prevValid then measure s (c - s.dec.prevIdx) c else s
  s.setDec { s.dec with prevValid := true, prevIdx := c }

/-- `update(v, i)`, the crossing test and the update of `last` (41_demodulator R143). -/
def update (s : State) (v i : Word) : State :=
  let s' := if isCrossing s.dec.lastSign v then cross s i else s
  s'.setDec { s'.dec with lastSign := signOf v }

/-- `inspect(v, i)`, the threshold test (41_demodulator R142). -/
def inspect (s : State) (v i : Word) : State :=
  if aboveThreshold s.cfg.bits v then update s v i else s

/-- `index_overflow()` (41_demodulator R141). -/
def indexOverflow (s : State) : State := s.setDec (s.dec.raise .classifier .indexOverflow 0 0)

/-- `IDX` is at its limit `2^IDX_W - 1` (41_demodulator R140, R141). No run goes beyond it (log 10). -/
def atIndexLimit (build : BuildParams) (idx : Word) : Bool := decide (indexLimit build ≤ idx.toNat)

/-- The sample is inspected: first channel of its frame, classifier running (41_demodulator R140). -/
def inspected (d : DecRegs) : Bool := decide (d.chph = 0) && !d.halted .classifier

/-- `CHPH` and `IDX` advance by one sample (41_demodulator R140, 10_state R29, R30). -/
def advance (s : State) : State :=
  s.setDec { s.dec with
    chph := BitVec.ofNat 16 ((s.dec.chph.toNat + 1) % s.cfg.chan.toNat)
    idx := s.dec.idx + 1 }

/-- One sample of a running decode call (41_demodulator R140). -/
def acceptSample (s : State) (v : Word) : State :=
  if atIndexLimit s.build s.dec.idx then indexOverflow s
  else advance (if inspected s.dec then inspect s v s.dec.idx else s)

/-- SAMPLE (41_demodulator R140). -/
def execSample (v : BitVec 32) (s : State) : Result :=
  .next (if s.decRun then acceptSample s v else s.refuse .wrongState 0x6)

end Sys2Proof.Machine
end

