-- ==== Sys2Proof/Machine/Modulator.lean ====
section
/-! DEFINITION. The FSK modulator MOD (43_modulator) and the meanings of PBYTE and PEND. -/

namespace Sys2Proof.Machine

/-- One output sample `SINQ(f, i)` as `MS` carries it, sign extended to 32 bits (20_memory R63). -/
def toneSample (sine : List SineTable) (cfg : CfgRegs) (b : Bool) (i : Nat) : Word :=
  BitVec.ofInt 32 (Sine.supplied sine cfg b i)

/-- `N0` or `N1`, samples per bit (43_modulator R182). -/
def samplesPerBit (rate : BitVec 32) (b : Bool) : Nat := if b then samplesOne rate else samplesZero rate

/-- `bit_tone(b)`, the phase restarting at 0 (43_modulator R184, R187). -/
def bitTone (sine : List SineTable) (cfg : CfgRegs) (b : Bool) : List Word :=
  (List.range (samplesPerBit cfg.rate b)).map (toneSample sine cfg b)

/-- `tones(v)`, one byte, most significant bit first (43_modulator R187). -/
def tones (sine : List SineTable) (cfg : CfgRegs) (v : Byte) : List Word :=
  [7, 6, 5, 4, 3, 2, 1, 0].flatMap (fun k => bitTone sine cfg (v.getLsbD k))

/-- The leader and marker of a burst (43_modulator R187, 30_encoding R108). -/
def leader (sine : List SineTable) (cfg : CfgRegs) : List Word :=
  (List.replicate Config.preCount (tones sine cfg Config.preByte)).flatten ++
    tones sine cfg Config.marker

/-- The silence between two bursts (43_modulator R183, R187). -/
def silence (cfg : CfgRegs) : List Word := List.replicate (samplesSilence cfg.rate) 0

/-- `open_burst()` (43_modulator R187). -/
def openBurst (s : State) : State :=
  let s := if s.mod.havePrev then s.emitMo (silence s.cfg) else s
  let s := s.emitMo (leader s.build.sine s.cfg)
  s.setMod { s.mod with inPay := true }

/-- Open the burst of the current payload unless it is open (43_modulator R188, R189). -/
def ensureBurst (s : State) : State := if s.mod.inPay then s else openBurst s

/-- One payload byte of a running encode call (43_modulator R188). -/
def payloadByte (s : State) (u : Byte) : State :=
  let s := ensureBurst s
  s.emitMo (tones s.build.sine s.cfg u)

/-- The end of a payload of a running encode call (43_modulator R189). -/
def payloadEnd (s : State) : State :=
  let s := ensureBurst s
  s.setMod { s.mod with inPay := false, havePrev := true }

/-- PBYTE (43_modulator R188). -/
def execPbyte (u : BitVec 8) (s : State) : Result :=
  .next (if s.modRun then payloadByte s u else s.refuse .wrongState 0x9)

/-- PEND (43_modulator R189). -/
def execPend (s : State) : Result :=
  .next (if s.modRun then payloadEnd s else s.refuse .wrongState 0xA)

end Sys2Proof.Machine
end

