-- ==== Sys2Proof/Machine/Control.lean ====
section
/-! DEFINITION. The meanings of the configuration and sequencing commands (40_control). -/

namespace Sys2Proof.Machine

/-! ### NOP -/

/-- NOP (40_control R120). -/
def execNop (s : State) : Result := .next s

/-! ### Configuration -/

/-- The two tests of a configuration command, argument before state, and its write
(40_control R122 to R125). -/
def configure (s : State) (op : BitVec 4) (legal : Bool) (c : CfgRegs) : State :=
  if !legal then s.refuse .badArgument op
  else if s.cfgFrozen then s.refuse .wrongState op
  else s.setCfg c

/-- SETRATE (40_control R122). -/
def execSetrate (u : BitVec 32) (s : State) : Result :=
  .next (configure s 0x1 (legalOperand s.build (.setrate u)) { s.cfg with rate := u })

/-- SETCHAN (40_control R123). -/
def execSetchan (u : BitVec 16) (s : State) : Result :=
  .next (configure s 0x2 (legalOperand s.build (.setchan u)) { s.cfg with chan := u })

/-- SETBITS (40_control R124). -/
def execSetbits (u : BitVec 6) (s : State) : Result :=
  .next (configure s 0x3 (legalOperand s.build (.setbits u)) { s.cfg with bits := u })

/-- SETMODE (40_control R125). -/
def execSetmode (u : BitVec 2) (s : State) : Result :=
  .next (configure s 0x4 true { s.cfg with mode := u })

/-! ### Decode sequencing -/

/-- DSTART (40_control R126). -/
def execDstart (s : State) : Result :=
  .next (if s.decRun then s.refuse .wrongState 0x5 else s.setDec DecRegs.restart)

/-- The flush of an open trailing group (40_control R127). -/
def flushGroup (s : State) : State :=
  if !s.dec.halted .classifier && s.dec.grpOpen then
    let s := gend s
    s.setDec { s.dec with grpOpen := false }
  else s

/-- Text mode with no section at all: `InvalidBufferLength(0, 0)` (40_control R127). -/
def requireHeader (s : State) : State :=
  if s.cfg.text && !s.dec.halted .classifier && !s.dec.halted .assembler && !s.dec.halted .validator
      && decide (s.dec.secidx = 0) then
    s.setDec (s.dec.raise .validator .invalidBufferLength 0 0)
  else s

/-- The report of a decode call: result registers, `OD`, `DSTATE` (40_control R127). -/
def report (s : State) : State :=
  let r := s.dec.finalResult
  (s.emitDo (.od r.1 r.2.1 r.2.2)).setDec
    { s.dec with dCode := r.1, dInfo := r.2.1, dInfo2 := r.2.2, dstate := .done }

/-- The end of a running decode call (40_control R127). -/
def endDecode (s : State) : State := report (requireHeader (flushGroup s))

/-- DEND (40_control R127). -/
def execDend (s : State) : Result :=
  .next (if s.decRun then endDecode s else s.refuse .wrongState 0x7)

/-! ### Encode sequencing -/

/-- MSTART (40_control R128). -/
def execMstart (s : State) : Result :=
  .next (if s.modRun then s.refuse .wrongState 0x8
    else s.setMod { mstate := .run, inPay := false, havePrev := false })

/-- MEND (40_control R129). -/
def execMend (s : State) : Result :=
  .next (if s.modRun then s.setMod { s.mod with mstate := .idle } else s.refuse .wrongState 0xB)

end Sys2Proof.Machine
end

