-- ==== Sys2Proof/Machine/Dispatch.lean ====
section
/-! DEFINITION. One arm per instruction. -/

namespace Sys2Proof.Machine

def exec (i : Instr) (s : State) : Host.Outcome State Fault Refusal :=
  match i with
  | .nop => Sys2Proof.Machine.execNop s
  | .setrate u => Sys2Proof.Machine.execSetrate u s
  | .setchan u => Sys2Proof.Machine.execSetchan u s
  | .setbits u => Sys2Proof.Machine.execSetbits u s
  | .setmode u => Sys2Proof.Machine.execSetmode u s
  | .dstart => Sys2Proof.Machine.execDstart s
  | .sample v => Sys2Proof.Machine.execSample v s
  | .dend => Sys2Proof.Machine.execDend s
  | .mstart => Sys2Proof.Machine.execMstart s
  | .pbyte u => Sys2Proof.Machine.execPbyte u s
  | .pend => Sys2Proof.Machine.execPend s
  | .mend => Sys2Proof.Machine.execMend s
  | .pulseZero => Sys2Proof.Machine.execPulseZero s
  | .pulseOne => Sys2Proof.Machine.execPulseOne s
  | .pulseStart => Sys2Proof.Machine.execPulseStart s
  | .pulseGap => Sys2Proof.Machine.execPulseGap s

end Sys2Proof.Machine
end

