-- ==== Sys2Proof/Machine/Step.lean ====
section
/-! DEFINITION. One step: the next input is taken and carried through every unit it reaches
(00_scope R16, 20_memory R66, R76). -/

namespace Sys2Proof.Machine

/-- One step. With nothing presented the block holds its state (60_exceptions R250, 70_reset R262;
log 2). A reset edge accepts no command (70_reset R260). A word the decoder rejects is refused
(40_control R121). -/
def step (s : State) : Host.Outcome State Fault Refusal :=
  match s.fetch with
  | none => .next s
  | some (.rst, s') => .next s'.assertReset
  | some (.code w, s') =>
    match decode w with
    | .instr i => exec i s'
    | bad => .next (s'.rejectWord bad)

/-- `s` with a table row's word presented as the next input. -/
def State.withFetchWord (s : State) (nbits w : Nat) : State :=
  match tableCodeWord nbits w with
  | none => s
  | some c => s.present c

end Sys2Proof.Machine
end

