-- ==== Sys2Proof/Machine/Reference.lean ====
section
/-! DEFINITION. The document's functions over whole buffers, as the rules quote them: `classify`
(41_demodulator R142 to R149, closed form R144), `assemble` (42_assembler_framer R171), `parse`
(44_validator R201 to R218) and `modulate` (43_modulator R180). Claims compare calls of the machine with
them (40_control R131, R132). The step never calls them. -/

namespace Sys2Proof.Machine.Reference

/-! ### classify -/

/-- The inspected samples above the threshold: index and whether positive (41_demodulator R144). -/
def qualifying (cfg : CfgRegs) (vs : List Word) : List (Nat × Bool) :=
  (vs.zipIdx.filter
    (fun p => decide (p.2 % cfg.chan.toNat = 0) && aboveThreshold cfg.bits p.1)).map
    (fun p => (p.2, decide (0 < p.1.toInt)))

/-- The crossings: a positive one directly after a negative one (41_demodulator R144). -/
def crossings (cfg : CfgRegs) (vs : List Word) : List Nat :=
  let q := qualifying cfg vs
  ((q.zip q.tail).filter (fun p => !p.1.2 && p.2.2)).map (fun p => p.2.1)

/-- For each adjacent pair of crossings, the index difference and the later index (41_demodulator R145). -/
def intervals (cs : List Nat) : List (Nat × Nat) := (cs.zip cs.tail).map (fun p => (p.2 - p.1, p.2))

/-- The groups of pulses bounded by Gaps; a Gap always ends one, the end of input a non-empty one
(41_demodulator R147 to R149). `acc` is the accumulated pulse list. -/
def groups (rate : Nat) : List PulseKind → List (Nat × Nat) → Except ErrorRecord (List (List PulseKind))
  | acc, [] => .ok (if acc.isEmpty then [] else [acc])
  | acc, (d, c) :: rest =>
    match classify rate d with
    | none => .error ⟨.invalidPulseLength, BitVec.ofNat 32 d, BitVec.ofNat 32 c⟩
    | some .gap => (groups rate [] rest).map (acc :: ·)
    | some k => groups rate (acc ++ [k]) rest

/-- The document's `classify(samples, spec)`. -/
def classifySamples (cfg : CfgRegs) (vs : List Word) : Except ErrorRecord (List (List PulseKind)) :=
  groups cfg.rate.toNat [] (intervals (crossings cfg vs))

/-! ### assemble -/

/-- The marker as bits, oldest first (20_memory R68). -/
def markerBits : List Bool := [false, true, true, true, true, true, true, true]

/-- The bit a pulse appends (30_encoding R97). -/
def bitOf : PulseKind → Bool
  | .one => true
  | .zero | .start | .gap => false

/-- One group: the document's `locked` flag and accumulator (42_assembler_framer R160 to R168). -/
def groupBits (sec : Nat) : Bool → List Bool → List PulseKind → Except ErrorRecord (List Bool)
  | true, acc, [] => .ok acc
  | false, _, [] => .error ⟨.startSequenceNotFound, BitVec.ofNat 32 sec, 0⟩
  | true, acc, .start :: ks =>
    if acc.length % 8 = 0 then groupBits sec true acc ks
    else .error ⟨.invalidStartPulse, BitVec.ofNat 32 sec, BitVec.ofNat 32 (acc.length % 8)⟩
  | true, acc, k :: ks => groupBits sec true (acc ++ [bitOf k]) ks
  | false, acc, k :: ks =>
    let acc := acc ++ [bitOf k]
    if 8 ≤ acc.length ∧ acc.drop (acc.length - 8) = markerBits then groupBits sec true [] ks
    else groupBits sec false acc ks

/-- Eight bits as a byte, most significant first (20_memory R68). -/
def byteOf (bs : List Bool) : Byte := bs.foldl shiftIn 0

/-- Complete bytes of a bit sequence; leftover bits are not in it. -/
def packBytes : List Bool → List Byte
  | b7 :: b6 :: b5 :: b4 :: b3 :: b2 :: b1 :: b0 :: rest =>
    byteOf [b7, b6, b5, b4, b3, b2, b1, b0] :: packBytes rest
  | _ => []

/-- One raw buffer. -/
structure Buffer where
  bytes : List Byte
  res : Nat
deriving DecidableEq, Repr

/-- The raw buffer of a group's data bits (42_assembler_framer R171, 20_memory R72). -/
def bufferOf (tail : TailPolicy) (bs : List Bool) : Buffer where
  bytes := packBytes (if tail = .padZero then bs ++ List.replicate ((8 - bs.length % 8) % 8) false else bs)
  res := bs.length % 8

/-- The document's `assemble(groups)` from group number `sec` on: one buffer per group, in order. -/
def assemble (tail : TailPolicy) : Nat → List (List PulseKind) → Except ErrorRecord (List Buffer)
  | _, [] => .ok []
  | sec, g :: gs =>
    match groupBits sec false [] g with
    | .error e => .error e
    | .ok bs => (assemble tail (sec + 1) gs).map (bufferOf tail bs :: ·)

/-! ### parse -/

/-- The checksum-relevant bytes of record `sec` (44_validator R203). -/
def relevant (sec : Nat) (bytes : List Byte) : List Byte :=
  (bytes.drop 1).take (if sec = 0 then Config.hdrSumEnd else Config.datSumEnd)

/-- The wrapping sum (44_validator R203). -/
def wrappingSum (bytes : List Byte) : Byte := bytes.foldl (· + ·) 0

/-- The header's name field and the name trimmed at the first space (44_validator R216). -/
def nameField (bytes : List Byte) : List Byte := (bytes.drop 1).take Config.nameLenMax

def trimName (field : List Byte) : List Byte := field.takeWhile (fun b => b != Config.space)

/-- A data record's payload window, and the window without trailing filler (44_validator R217). -/
def payloadWindow (bytes : List Byte) : List Byte := (bytes.drop 1).take Config.payWin

def trimPayload (window : List Byte) : List Byte :=
  (window.reverse.dropWhile (fun b => b == Config.filler)).reverse

/-- The length reported for an accepted record (44_validator R215 to R217). -/
def recordLen (allFiller : AllFillerLen) (sec : Nat) (bytes : List Byte) : BitVec 9 :=
  if sec = 0 then BitVec.ofNat 9 (trimName (nameField bytes)).length
  else if (trimPayload (payloadWindow bytes)).isEmpty then allFiller.len
  else BitVec.ofNat 9 (trimPayload (payloadWindow bytes)).length

/-- The checks on record `sec`: length, first byte, checksum (44_validator R206 to R210). -/
def checkRecord (build : BuildParams) (ignck : Bool) (sec : Nat) (bytes : List Byte) :
    Option ErrorRecord :=
  let idx := BitVec.ofNat 32 sec
  let expected := if sec = 0 then Config.typeText else Config.datMark
  let sum := wrappingSum (relevant sec bytes)
  if bytes.length ≠ (if sec = 0 then Config.hdrLen else Config.datLen) then
    some ⟨.invalidBufferLength, idx, BitVec.ofNat 32 bytes.length⟩
  else if bytes.head? ≠ some expected then
    some ⟨if sec = 0 then .invalidFileType else .missingStartByte, expected.setWidth 32,
      (bytes.headD 0).setWidth 32⟩
  else if sum ≠ build.ckTarget ∧ ignck = false then some ⟨.invalidChecksum, idx, sum.setWidth 32⟩
  else none

/-- A section as the `DO` stream delivers it. -/
structure Section where
  bytes : List Byte
  res : Nat
  acc : Bool
  len : BitVec 9
deriving DecidableEq, Repr

/-- The document's `parse(buffers, ignore_checksums)` from record `sec` on. -/
def parse (build : BuildParams) (ignck : Bool) : Nat → List Buffer → Except ErrorRecord (List Section)
  | _, [] => .ok []
  | sec, b :: bs =>
    match checkRecord build ignck sec b.bytes with
    | some e => .error e
    | none =>
      (parse build ignck (sec + 1) bs).map
        (⟨b.bytes, b.res, true, recordLen build.allFillerLen sec b.bytes⟩ :: ·)

/-! ### decode -/

/-- The document's whole decode (40_control R131): raw mode delivers the buffers verbatim, text mode
parses them, and text mode with no buffer at all is `InvalidBufferLength` (R127). -/
def decodeCall (cfg : CfgRegs) (build : BuildParams) (vs : List Word) :
    Except ErrorRecord (List Section) :=
  match classifySamples cfg vs with
  | .error e => .error e
  | .ok gs =>
    match assemble build.tailPolicy 0 gs with
    | .error e => .error e
    | .ok bs =>
      if cfg.text then
        if bs.isEmpty then .error ⟨.invalidBufferLength, 0, 0⟩ else parse build cfg.ignck 0 bs
      else .ok (bs.map (fun b => ⟨b.bytes, b.res, false, 0⟩))

/-- The tokens of section number `sec` (20_memory R62). -/
def sectionTokens (sec : Nat) (x : Section) : List DoToken :=
  x.bytes.map .ob ++
    [.os (BitVec.ofNat 32 sec) (BitVec.ofNat 32 x.bytes.length) (BitVec.ofNat 3 x.res) x.acc x.len]

/-- The tokens of all sections in order. -/
def tokensFrom : Nat → List Section → List DoToken
  | _, [] => []
  | sec, x :: xs => sectionTokens sec x ++ tokensFrom (sec + 1) xs

/-- The file name and content the host assembles from the sections of a successful text-mode call:
positions 1 to `len` of each (44_validator R218). -/
def hostFile : List Section → List Byte × List Byte
  | [] => ([], [])
  | h :: rs => ((h.bytes.drop 1).take h.len.toNat, rs.flatMap (fun r => (r.bytes.drop 1).take r.len.toNat))

/-! ### modulate -/

/-- `burst(P)` (43_modulator R180). -/
def burst (sine : List SineTable) (cfg : CfgRegs) (p : List Byte) : List Word :=
  (List.replicate Config.preCount Config.preByte ++ [Config.marker] ++ p).flatMap (tones sine cfg)

/-- The document's `modulate(payloads, spec)` (43_modulator R180), for the supplied `SINQ`. -/
def modulate (sine : List SineTable) (cfg : CfgRegs) (ps : List (List Byte)) : List Word :=
  ((ps.map (burst sine cfg)).intersperse (silence cfg)).flatten

/-- The commands of an encode call (40_control R132). -/
def encodeCommands (ps : List (List Byte)) : List Instr :=
  .mstart :: (ps.flatMap (fun p => p.map .pbyte ++ [.pend]) ++ [.mend])

/-- The commands of a decode call (40_control R131). -/
def decodeCommands (vs : List Word) : List Instr := .dstart :: (vs.map .sample ++ [.dend])

end Sys2Proof.Machine.Reference
end

