-- ==== Sys2Proof/Safety.lean ====
section
/-! DEFINITION. The terms in which claims speak of runs: sequences of instructions, the classes of
instructions, the state table of 40_control R130, what a step of one path may touch, and the invariant
of the register file. -/

namespace Sys2Proof.Machine

/-! ### Sequences -/

/-- The instructions in order, stopping at the first that gives no next state. -/
def execSeq : List Instr → State → Result
  | [], s => .next s
  | i :: is, s =>
    match exec i s with
    | .next t => execSeq is t
    | .fault r => .fault r
    | .refused r => .refused r

end Sys2Proof.Machine

namespace Sys2Proof

/-! ### Classes of instructions -/

/-- Commands of the decode path (20_memory R77). -/
def Instr.isDecode : Instr → Bool
  | .dstart | .sample _ | .dend => true
  | .nop | .setrate _ | .setchan _ | .setbits _ | .setmode _ | .mstart | .pbyte _ | .pend | .mend
  | .pulseZero | .pulseOne | .pulseStart | .pulseGap => false

/-- Commands of the encode path (20_memory R77). -/
def Instr.isEncode : Instr → Bool
  | .mstart | .pbyte _ | .pend | .mend => true
  | .nop | .setrate _ | .setchan _ | .setbits _ | .setmode _ | .dstart | .sample _ | .dend
  | .pulseZero | .pulseOne | .pulseStart | .pulseGap => false

/-- Configuration commands (40_control R122 to R125). -/
def Instr.isConfig : Instr → Bool
  | .setrate _ | .setchan _ | .setbits _ | .setmode _ => true
  | .nop | .dstart | .sample _ | .dend | .mstart | .pbyte _ | .pend | .mend
  | .pulseZero | .pulseOne | .pulseStart | .pulseGap => false

/-- The pulse rows of the opcode table, tokens inside the block (30_encoding R100). -/
def Instr.isPulse : Instr → Bool
  | .pulseZero | .pulseOne | .pulseStart | .pulseGap => true
  | .nop | .setrate _ | .setchan _ | .setbits _ | .setmode _ | .dstart | .sample _ | .dend
  | .mstart | .pbyte _ | .pend | .mend => false

end Sys2Proof

namespace Sys2Proof.Machine

/-- The state table of 40_control R130; the internal tokens are no commands and have no row. -/
def allowed (i : Instr) (s : State) : Bool :=
  match i with
  | .nop => true
  | .setrate _ | .setchan _ | .setbits _ | .setmode _ =>
    decide (s.dec.dstate ≠ .run) && decide (s.mod.mstate ≠ .run)
  | .dstart => decide (s.dec.dstate = .idle ∨ s.dec.dstate = .done)
  | .sample _ | .dend => decide (s.dec.dstate = .run)
  | .mstart => decide (s.mod.mstate = .idle)
  | .pbyte _ | .pend | .mend => decide (s.mod.mstate = .run)
  | .pulseZero | .pulseOne | .pulseStart | .pulseGap => true

/-- The instruction at the head of the inputs, if a decodable code word stands there. -/
def nextInstr? (s : State) : Option Instr :=
  match s.inputs with
  | .code w :: _ =>
    match decode w with
    | .instr i => some i
    | .reservedOpcode _ => none
    | .badArgument _ => none
  | .rst :: _ => none
  | [] => none

/-- The reset input is the next input. -/
def resetNext (s : State) : Prop := s.inputs.head? = some .rst

/-- The row of the opcode table for a pulse kind (30_encoding R95, R112). -/
def pulseInstr : PulseKind → Instr
  | .zero => .pulseZero
  | .one => .pulseOne
  | .start => .pulseStart
  | .gap => .pulseGap

/-- The decoder registers after one more sample has been counted: `CHPH` is `(CHPH + 1) mod CFG_CHAN`
and `IDX` is `IDX + 1` (10_state R29, R30). -/
def counted (cfg : CfgRegs) (d : DecRegs) : DecRegs :=
  { d with chph := BitVec.ofNat 16 ((d.chph.toNat + 1) % cfg.chan.toNat), idx := d.idx + 1 }

/-- A running decode call that will inspect the next sample (41_demodulator R140). -/
structure Inspecting (s : State) : Prop where
  run : s.dec.dstate = .run
  room : s.dec.idx.toNat < indexLimit s.build
  channel : s.dec.chph = 0
  running : s.dec.errCls = none

/-- CV's registers are the same in both (44_validator R202). -/
structure SameValidator (d e : DecRegs) : Prop where
  rsum : e.rsum = d.rsum
  paylen : e.paylen = d.paylen
  b0Ok : e.b0Ok = d.b0Ok
  b0Act : e.b0Act = d.b0Act
  name : e.name = d.name

/-- The registers of BA and BF are the same in both (42_assembler_framer R172). -/
structure SameAssembler (d e : DecRegs) : Prop where
  locked : e.locked = d.locked
  sr : e.sr = d.sr
  bitcnt : e.bitcnt = d.bitcnt
  bsr : e.bsr = d.bsr
  bytecnt : e.bytecnt = d.bytecnt
  secidx : e.secidx = d.secidx

/-- How many stages hold an error (60_exceptions R231). -/
def errorCount (d : DecRegs) : Nat :=
  d.errCls.isSome.toNat + d.errAsm.isSome.toNat + d.errVal.isSome.toNat

/-- How many of the bits of the bytes have the value `b` (43_modulator R188, R190). -/
def countBits (b : Bool) (p : List Byte) : Nat :=
  (p.map (fun v => [0, 1, 2, 3, 4, 5, 6, 7].countP (fun k => v.getLsbD k == b))).sum

/-- CV fed the bytes of one section, from position 0 (44_validator R202). -/
def feedSection (d : DecRegs) (bytes : List Byte) : DecRegs :=
  bytes.zipIdx.foldl (fun d p => cvByte d p.1 p.2) d

/-- BA at the start of a section (10_state R37, R38, 42_assembler_framer R169). -/
structure SectionStart (d : DecRegs) : Prop where
  locked : d.locked = false
  sr : d.sr = 0xFF
  bitcnt : d.bitcnt = 0
  bsr : d.bsr = 0
  bytecnt : d.bytecnt = 0
  running : d.errAsm = none

/-- Every register holds the value of the table of 10_state R53. -/
structure AtResetValues (s : State) : Prop where
  cfgRate : s.cfg.rate = 44100
  cfgChan : s.cfg.chan = 1
  cfgBits : s.cfg.bits = 16
  cfgMode : s.cfg.mode = 0b00
  dstate : s.dec.dstate = .idle
  idx : s.dec.idx = 0
  chph : s.dec.chph = 0
  lastSign : s.dec.lastSign = .none
  prevValid : s.dec.prevValid = false
  prevIdx : s.dec.prevIdx = 0
  grpOpen : s.dec.grpOpen = false
  errCls : s.dec.errCls = none
  errAsm : s.dec.errAsm = none
  errVal : s.dec.errVal = none
  locked : s.dec.locked = false
  sr : s.dec.sr = 0xFF
  bitcnt : s.dec.bitcnt = 0
  bsr : s.dec.bsr = 0x00
  bytecnt : s.dec.bytecnt = 0
  secidx : s.dec.secidx = 0
  rsum : s.dec.rsum = 0x00
  b0Ok : s.dec.b0Ok = false
  b0Act : s.dec.b0Act = 0x00
  name : s.dec.name.toList = [0x00, 0x00, 0x00, 0x00, 0x00, 0x00]
  paylen : s.dec.paylen = 0
  dCode : s.dec.dCode = none
  dInfo : s.dec.dInfo = 0
  dInfo2 : s.dec.dInfo2 = 0
  mstate : s.mod.mstate = .idle
  inPay : s.mod.inPay = false
  havePrev : s.mod.havePrev = false
  fault : s.faultReg = 0x00

/-! ### What a step of one path may touch -/

/-- From `s` to `t` only decoder registers changed and only `DO` tokens were added (20_memory R77). -/
structure OnlyDecoder (s t : State) : Prop where
  cfg : t.cfg = s.cfg
  mod : t.mod = s.mod
  faultReg : t.faultReg = s.faultReg
  doStream : s.doStream <+: t.doStream
  moStream : t.moStream = s.moStream
  inputs : t.inputs = s.inputs
  doPast : t.doPast = s.doPast
  moPast : t.moPast = s.moPast
  build : t.build = s.build

/-- From `s` to `t` only modulator registers changed and only `MO` samples were added (20_memory R77). -/
structure OnlyModulator (s t : State) : Prop where
  cfg : t.cfg = s.cfg
  dec : t.dec = s.dec
  faultReg : t.faultReg = s.faultReg
  doStream : t.doStream = s.doStream
  moStream : s.moStream <+: t.moStream
  inputs : t.inputs = s.inputs
  doPast : t.doPast = s.doPast
  moPast : t.moPast = s.moPast
  build : t.build = s.build

/-! ### The invariant -/

/-- The reset values of the configuration registers are legal for the build (10_state R53; log 6). -/
structure BuildHoldsReset (build : BuildParams) : Prop where
  rate : 44100 < 2 ^ build.rateW.val
  chan : 1 < 2 ^ build.chanW.val
  bits : 16 ≤ build.bitsMax.val

/-- What every register holds between steps. -/
structure State.Inv (s : State) : Prop where
  build : BuildHoldsReset s.build
  /-- Legal configuration (10_state R22 to R24, 30_encoding R91). -/
  rate : s.cfg.rate ≠ 0 ∧ s.cfg.rate.toNat < 2 ^ s.build.rateW.val
  chan : s.cfg.chan ≠ 0 ∧ s.cfg.chan.toNat < 2 ^ s.build.chanW.val
  bits : 1 ≤ s.cfg.bits.toNat ∧ s.cfg.bits.toNat ≤ s.build.bitsMax.val
  /-- `IDX` never passes its limit (10_state R29). -/
  index : s.dec.idx.toNat ≤ indexLimit s.build
  /-- Bit 3 of `FAULT` reads 0, the register is 0 until a refusal, and a refusal has a reason
  (10_state R48). -/
  faultBit3 : s.faultReg.getLsbD 3 = false
  faultClear : cmdErr s.faultReg = false → s.faultReg = 0
  faultCause : cmdErr s.faultReg = true → faultReason s.faultReg ≠ 0
  /-- The channel phase is the position in the frame (10_state R30, 20_memory R65). -/
  phase : s.dec.dstate = .run → s.dec.chph.toNat = s.dec.idx.toNat % s.cfg.chan.toNat
  /-- The latest crossing lies before the next sample, at an inspected index (10_state R32). -/
  prevBefore : s.dec.prevValid = true → s.dec.prevIdx.toNat < s.dec.idx.toNat
  prevNone : s.dec.prevValid = false → s.dec.prevIdx = 0
  prevInspected : s.dec.dstate = .run → s.dec.prevIdx.toNat % s.cfg.chan.toNat = 0
  /-- A negative sample after a crossing was inspected at least one frame later (10_state R32). -/
  negAfterPrev : s.dec.dstate = .run → s.dec.prevValid = true → s.dec.lastSign = .neg →
    s.dec.prevIdx.toNat + s.cfg.chan.toNat < s.dec.idx.toNat
  /-- The section is locked exactly while `SR` holds the marker (42_assembler_framer R165). -/
  lockedMarker : s.dec.locked = true ↔ s.dec.sr = Config.marker
  /-- While Seeking there is no data bit and no byte (10_state R38, R39). -/
  seeking : s.dec.locked = false → s.dec.bitcnt = 0 ∧ s.dec.bsr = 0 ∧ s.dec.bytecnt = 0
  /-- `PAYLEN` lies in 0 to 256 (10_state R44). -/
  paylen : s.dec.paylen.toNat ≤ Config.payWin
  /-- Each stage holds only errors of its own (30_encoding R110). -/
  errStage : ∀ st e, s.dec.err st = some e → e.kind.stage = st
  /-- During a raw-mode call the validator has no error (44_validator R200). -/
  rawNoError : s.dec.dstate = .run → s.cfg.text = false → s.dec.errVal = none
  /-- The result registers are 0 until a call has ended (10_state R45). -/
  noResult : s.dec.dstate ≠ .done → s.dec.dCode = none ∧ s.dec.dInfo = 0 ∧ s.dec.dInfo2 = 0

end Sys2Proof.Machine
end

