-- ==== Sys2Proof/Certificates/Slice0/Obligations.lean ====
section
/-! DEFINITION. The statements for the provers, from the numbered rules of spec/. -/

open Sys2Proof Sys2Proof.Machine

/-! ### Encoding (30_encoding) -/

/-- Words written out in 30_encoding R93 and 95_test_vectors 2.1 decode to what they stand for. -/
def Obligations.SpecWordsDecode : Prop :=
  decode (.command 0x0DEADBEEF) = .instr .nop ∧
  decode (.command 0x10000AC44) = .instr (.setrate 44100) ∧
  decode (.command 0x200000002) = .instr (.setchan 2) ∧
  decode (.command 0x300000010) = .instr (.setbits 16) ∧
  decode (.command 0x400000003) = .instr (.setmode 3) ∧
  decode (.command 0x500000000) = .instr .dstart ∧
  decode (.command 0x6FFFFF060) = .instr (.sample (BitVec.ofInt 32 (-4000))) ∧
  decode (.command 0x700000000) = .instr .dend ∧
  decode (.command 0x800000000) = .instr .mstart ∧
  decode (.command 0x900000048) = .instr (.pbyte 0x48) ∧
  decode (.command 0xA00000000) = .instr .pend ∧
  decode (.command 0xB00000000) = .instr .mend ∧
  decode (.pulse 0b00) = .instr .pulseZero ∧
  decode (.pulse 0b01) = .instr .pulseOne ∧
  decode (.pulse 0b10) = .instr .pulseStart ∧
  decode (.pulse 0b11) = .instr .pulseGap

/-- 30_encoding R85, R87 to R89, R95: the decoder reads back every instruction with every operand. -/
def Obligations.DecodeEncodeRoundTrip : Prop :=
  ∀ i : Instr, decode (encode i) = .instr i

/-- 30_encoding R85, R87 to R91, R112: a command word is decoded exactly when it matches a row of the
opcode table, to that row's opcode, and no word matches two rows; every other word is rejected by name;
and a word is the encoding of what it decodes to, but for `NOP`, whose ARG is ignored (format X). -/
def Obligations.DecoderFollowsOpcodeTable : Prop :=
  (∀ cw : CmdWord,
    (∃ i, decode (.command cw) = .instr i ∧ i.opcode? = some (opOf cw)) ↔
      ∃ r ∈ commandRows, cw &&& r.2 = r.1) ∧
  commandRows.Pairwise (fun a b => ∀ cw : CmdWord, ¬ (cw &&& a.2 = a.1 ∧ cw &&& b.2 = b.1)) ∧
  (∀ (cw : CmdWord) (op : BitVec 4),
    (decode (.command cw) = .reservedOpcode op ↔ opOf cw = op ∧ 12 ≤ op.toNat) ∧
    (decode (.command cw) = .badArgument op ↔
      opOf cw = op ∧
        ((op = 0x2 ∧ 2 ^ 16 ≤ (argOf cw).toNat) ∨ (op = 0x3 ∧ 2 ^ 6 ≤ (argOf cw).toNat) ∨
          (op = 0x4 ∧ 2 ^ 2 ≤ (argOf cw).toNat) ∨ (op = 0x9 ∧ 2 ^ 8 ≤ (argOf cw).toNat) ∨
          (op ∈ [0x5, 0x7, 0x8, 0xA, 0xB] ∧ argOf cw ≠ 0)))) ∧
  (∀ (w : CodeWord) (i : Instr), decode w = .instr i →
    encode i = w ∨ (i = .nop ∧ ∃ arg, w = .command (cmdWord 0x0 arg)))

/-! ### The step (00_scope R16, 20_memory R76) -/

/-- 00_scope R16, 20_memory R76: the step takes the head of the inputs and runs what it decodes to; with
no input it keeps the state (the model's convention, log 2). -/
def Obligations.StepRunsTheDecodedInstruction : Prop :=
  ∀ s : State,
    (∀ w rest i, s.inputs = .code w :: rest → decode w = .instr i →
      step s = exec i { s with inputs := rest }) ∧
    (s.inputs = [] → step s = .next s)

/-- 93_implementation_defined section 4, 60_exceptions R237: every input in every state leads to a next
state; the block is never stuck. No step changes a build-time parameter (00_scope R11; their place in the
state is the model's, log 5). -/
def Obligations.StepNeverStops : Prop := ∀ s : State, ∃ t, step s = .next t ∧ t.build = s.build

/-- 70_reset R260, R262, 10_state R53: the state the machine starts in holds the reset table and empty
output streams; a clock edge with RST puts every register at its reset value, whatever the block was
doing, accepts no command, and leaves the output streams empty. -/
def Obligations.ResetEdge : Prop :=
  (AtResetValues State.reset ∧ State.reset.doStream = [] ∧ State.reset.moStream = []) ∧
  (∀ (s : State) (rest : List PortInput), s.inputs = .rst :: rest →
    ∃ t, step s = .next t ∧ AtResetValues t ∧ t.inputs = rest ∧ t.doStream = [] ∧ t.moStream = [])

/-- 70_reset R261: a reset emits no token and recalls none. Where the earlier tokens stand is the model's
convention (log 4). -/
def Obligations.ResetRecallsNoToken : Prop :=
  ∀ (s : State) (rest : List PortInput), s.inputs = .rst :: rest →
    ∃ t, step s = .next t ∧ t.doPast ++ t.doStream = s.doPast ++ s.doStream ∧
      t.moPast ++ t.moStream = s.moPast ++ s.moStream

/-- The invariant holds at reset (10_state R53). -/
def Obligations.ResetMeetsTheInvariant : Prop := State.Inv State.reset

/-- The invariant of the register file (10_state R22 to R48, 42_assembler_framer R165) is kept by every
step from every state that meets it. It bounds the configuration by the widths of the build, since an operand
that the built register cannot hold is a bad argument (the model's reading of 30_encoding R91, log 6). -/
def Obligations.StepKeepsTheInvariant : Prop :=
  (∀ s t : State, s.Inv → step s = .next t → t.Inv) ∧
  (∀ (s : State) (u : BitVec 32), 2 ^ s.build.rateW.val ≤ u.toNat →
    exec (.setrate u) s = .next (s.refuse .badArgument 0x1)) ∧
  (∀ (s : State) (u : BitVec 16), 2 ^ s.build.chanW.val ≤ u.toNat →
    exec (.setchan u) s = .next (s.refuse .badArgument 0x2))

/-! ### Refusal (40_control R121, R130, 10_state R48) -/

/-- 40_control R121, R130: the three tests in their order, with the legal operands of 30_encoding R91 for
the second (`legalOperand`), the state table for the third (`allowed`), what a refusal records, and that an
accepted command records none. At the decided widths the legal operands are those of R91; that a build with a
narrower `RATE_W` or `CHAN_W` refuses an operand its register cannot hold is the model's choice (log 6), which
the pseudocode of R122 and R123 does not state. -/
def Obligations.CommandsAreRefusedInOrder : Prop :=
  (∀ (s : State) (cw : CmdWord) (rest : List PortInput), s.inputs = .code (.command cw) :: rest →
    (∀ op, decode (.command cw) = .reservedOpcode op →
      op = opOf cw ∧ step s = .next (State.refuse { s with inputs := rest } .reservedOpcode op)) ∧
    (∀ op, decode (.command cw) = .badArgument op →
      op = opOf cw ∧ step s = .next (State.refuse { s with inputs := rest } .badArgument op)) ∧
    (∀ i, decode (.command cw) = .instr i → legalOperand s.build i = false →
      step s = .next (State.refuse { s with inputs := rest } .badArgument (opOf cw))) ∧
    (∀ i, decode (.command cw) = .instr i → legalOperand s.build i = true → allowed i s = false →
      step s = .next (State.refuse { s with inputs := rest } .wrongState (opOf cw))) ∧
    (∀ i, decode (.command cw) = .instr i → legalOperand s.build i = true → allowed i s = true →
      ∃ t, step s = .next t ∧ t.faultReg = s.faultReg)) ∧
  (∀ (s : State) (reason : Reason) (op : BitVec 4),
    State.refuse s reason op =
      if cmdErr s.faultReg then s else { s with faultReg := faultWord reason op }) ∧
  (∀ i : Instr, legalOperand BuildParams.decided i = i.wellFormed) ∧
  (∀ (reason : Reason) (op : BitVec 4),
    cmdErr (faultWord reason op) = true ∧ faultReason (faultWord reason op) = reason.code ∧
      faultOp (faultWord reason op) = op)

/-- 10_state R48: `FAULT` is written by a refusal alone, holds the first one until reset, has bit 3 at
0, and starts at 0. -/
def Obligations.FaultRegisterIsSticky : Prop :=
  (∀ s t : State, step s = .next t → ¬ resetNext s →
    (cmdErr s.faultReg = true → t.faultReg = s.faultReg) ∧
    (t.faultReg ≠ s.faultReg → ∃ reason op, t.faultReg = faultWord reason op)) ∧
  (∀ s t : State, step s = .next t → resetNext s → t.faultReg = 0) ∧
  (∀ (s : State) (reason : Reason) (op : BitVec 4),
    (cmdErr s.faultReg = false →
      s.refuse reason op = { s with faultReg := faultWord reason op }) ∧
    (cmdErr s.faultReg = true → s.refuse reason op = s)) ∧
  (∀ (reason : Reason) (op : BitVec 4),
    (faultWord reason op).getLsbD 0 = true ∧ (faultWord reason op).extractLsb' 1 2 = reason.code ∧
      (faultWord reason op).getLsbD 3 = false ∧ (faultWord reason op).extractLsb' 4 4 = op) ∧
  Reason.code .reservedOpcode = 1 ∧ Reason.code .badArgument = 2 ∧ Reason.code .wrongState = 3 ∧
  State.reset.faultReg = 0x00

/-! ### Control commands (40_control) -/

/-- 40_control R120. -/
def Obligations.NopDoesNothing : Prop :=
  (∀ (s : State) (arg : BitVec 32),
    decode (.command (cmdWord 0x0 arg)) = .instr .nop ∧ exec .nop s = .next s) ∧
  decode (.command 0x000000000) = .instr .nop ∧ decode (.command 0x0DEADBEEF) = .instr .nop

/-- 40_control R122, for every `RATE_W` of the build and every operand that its register holds; at the decided
width every operand does. -/
def Obligations.SetrateRule : Prop :=
  (∀ (s : State) (u : BitVec 32),
    decode (.command (cmdWord 0x1 u)) = .instr (.setrate u) ∧
    (u = 0 → exec (.setrate u) s = .next (s.refuse .badArgument 0x1)) ∧
    (u ≠ 0 → u.toNat < 2 ^ s.build.rateW.val → s.dec.dstate = .run ∨ s.mod.mstate = .run →
      exec (.setrate u) s = .next (s.refuse .wrongState 0x1)) ∧
    (u ≠ 0 → u.toNat < 2 ^ s.build.rateW.val → s.dec.dstate ≠ .run → s.mod.mstate ≠ .run →
      exec (.setrate u) s = .next { s with cfg := { s.cfg with rate := u } })) ∧
  (∀ u : BitVec 32, u.toNat < 2 ^ BuildParams.decided.rateW.val) ∧
  encode (.setrate 44100) = .command 0x10000AC44

/-- 40_control R123, for every `CHAN_W` of the build and every operand that its register holds; at the decided
width every operand does. The corner cases, mono and every second sample, are read off the channel phase. -/
def Obligations.SetchanRule : Prop :=
  (∀ arg : BitVec 32,
    (2 ^ 16 ≤ arg.toNat → decode (.command (cmdWord 0x2 arg)) = .badArgument 0x2) ∧
    (arg.toNat < 2 ^ 16 →
      decode (.command (cmdWord 0x2 arg)) = .instr (.setchan (arg.setWidth 16)))) ∧
  (∀ (s : State) (u : BitVec 16),
    (u = 0 → exec (.setchan u) s = .next (s.refuse .badArgument 0x2)) ∧
    (u ≠ 0 → u.toNat < 2 ^ s.build.chanW.val → s.dec.dstate = .run ∨ s.mod.mstate = .run →
      exec (.setchan u) s = .next (s.refuse .wrongState 0x2)) ∧
    (u ≠ 0 → u.toNat < 2 ^ s.build.chanW.val → s.dec.dstate ≠ .run → s.mod.mstate ≠ .run →
      exec (.setchan u) s = .next { s with cfg := { s.cfg with chan := u } })) ∧
  (∀ s : State, s.Inv → s.dec.dstate = .run →
    (s.cfg.chan = 1 → s.dec.chph = 0) ∧
    (s.cfg.chan = 2 → (s.dec.chph = 0 ↔ s.dec.idx.toNat % 2 = 0))) ∧
  (∀ u : BitVec 16, u.toNat < 2 ^ BuildParams.decided.chanW.val) ∧
  encode (.setchan 2) = .command 0x200000002

/-- 40_control R124, for every `BITS_MAX` of the build, 32 as decided. The corner cases `u = 1` and `u = 2` are
the values of `A` and `THR`. -/
def Obligations.SetbitsRule : Prop :=
  (∀ arg : BitVec 32,
    (2 ^ 6 ≤ arg.toNat → decode (.command (cmdWord 0x3 arg)) = .badArgument 0x3) ∧
    (arg.toNat < 2 ^ 6 →
      decode (.command (cmdWord 0x3 arg)) = .instr (.setbits (arg.setWidth 6)))) ∧
  (∀ (s : State) (u : BitVec 6),
    (u = 0 ∨ s.build.bitsMax.val < u.toNat → exec (.setbits u) s = .next (s.refuse .badArgument 0x3)) ∧
    (u ≠ 0 → u.toNat ≤ s.build.bitsMax.val → s.dec.dstate = .run ∨ s.mod.mstate = .run →
      exec (.setbits u) s = .next (s.refuse .wrongState 0x3)) ∧
    (u ≠ 0 → u.toNat ≤ s.build.bitsMax.val → s.dec.dstate ≠ .run → s.mod.mstate ≠ .run →
      exec (.setbits u) s = .next { s with cfg := { s.cfg with bits := u } })) ∧
  (maxAmplitude 1 = 0 ∧ threshold 1 = 0 ∧ maxAmplitude 2 = 1 ∧ threshold 2 = 0) ∧
  (∀ v : Word, v ≠ 0 → aboveThreshold 1 v = true) ∧
  (∀ (sine : List SineTable) (c : CfgRegs) (b : Bool) (i : Nat), c.bits = 1 →
    toneSample sine c b i = 0) ∧
  BuildParams.decided.bitsMax.val = 32 ∧
  encode (.setbits 16) = .command 0x300000010

/-- 40_control R125, 10_state R25: with `u = 0b10` every instruction but a configuration command does
what it does in raw mode. -/
def Obligations.SetmodeRule : Prop :=
  (∀ arg : BitVec 32,
    (2 ^ 2 ≤ arg.toNat → decode (.command (cmdWord 0x4 arg)) = .badArgument 0x4) ∧
    (arg.toNat < 2 ^ 2 →
      decode (.command (cmdWord 0x4 arg)) = .instr (.setmode (arg.setWidth 2)))) ∧
  (∀ (s : State) (u : BitVec 2),
    (s.dec.dstate = .run ∨ s.mod.mstate = .run →
      exec (.setmode u) s = .next (s.refuse .wrongState 0x4)) ∧
    (s.dec.dstate ≠ .run → s.mod.mstate ≠ .run →
      exec (.setmode u) s = .next { s with cfg := { s.cfg with mode := u } })) ∧
  (∀ c : CfgRegs, c.text = c.mode.getLsbD 0 ∧ c.ignck = c.mode.getLsbD 1) ∧
  (∀ (i : Instr) (s t : State), i.isConfig = false → s.cfg.mode = 0b10 → exec i s = .next t →
    exec i { s with cfg := { s.cfg with mode := 0b00 } } =
      .next { t with cfg := { t.cfg with mode := 0b00 } }) ∧
  encode (.setmode 3) = .command 0x400000003

/-- 40_control R126, 10_state R54. -/
def Obligations.DstartRule : Prop :=
  (∀ arg : BitVec 32,
    (arg ≠ 0 → decode (.command (cmdWord 0x5 arg)) = .badArgument 0x5) ∧
    (arg = 0 → decode (.command (cmdWord 0x5 arg)) = .instr .dstart)) ∧
  (∀ s : State,
    (s.dec.dstate = .run → exec .dstart s = .next (s.refuse .wrongState 0x5)) ∧
    (s.dec.dstate ≠ .run →
      exec .dstart s = .next { s with dec := { State.reset.dec with dstate := .run } })) ∧
  encode .dstart = .command 0x500000000

/-- 40_control R127: the flush of an open group through GEND, the text-mode check for no section at
all, then the report. The example is `DSTART`; `DEND` in raw and in text mode. -/
def Obligations.DendRule : Prop :=
  (∀ arg : BitVec 32,
    (arg ≠ 0 → decode (.command (cmdWord 0x7 arg)) = .badArgument 0x7) ∧
    (arg = 0 → decode (.command (cmdWord 0x7 arg)) = .instr .dend)) ∧
  encode .dend = .command 0x700000000 ∧
  (∀ s : State, s.dec.dstate ≠ .run → exec .dend s = .next (s.refuse .wrongState 0x7)) ∧
  (∀ s : State, s.dec.dstate = .run → ∃ u : State, exec .pulseGap s = .next u ∧
    let a : State :=
      if s.dec.errCls = none ∧ s.dec.grpOpen = true then { u with dec := { u.dec with grpOpen := false } }
      else s
    let b : State :=
      if a.cfg.mode.getLsbD 0 = true ∧ a.dec.errCls = none ∧ a.dec.errAsm = none ∧ a.dec.errVal = none ∧
          a.dec.secidx = 0 then
        { a with dec := { a.dec with errVal := some ⟨.invalidBufferLength, 0, 0⟩ } }
      else a
    let r := b.dec.finalResult
    exec .dend s =
      .next { b with
        doStream := b.doStream ++ [.od r.1 r.2.1 r.2.2]
        dec := { b.dec with dCode := r.1, dInfo := r.2.1, dInfo2 := r.2.2, dstate := .done } }) ∧
  (∀ s : State, s.dec.dstate ≠ .run → ∃ t, execSeq [.dstart, .dend] s = .next t ∧
    t.doStream = s.doStream ++
      [if s.cfg.mode.getLsbD 0 then .od (some .invalidBufferLength) 0 0 else .od none 0 0])

/-- 40_control R128. -/
def Obligations.MstartRule : Prop :=
  (∀ arg : BitVec 32,
    (arg ≠ 0 → decode (.command (cmdWord 0x8 arg)) = .badArgument 0x8) ∧
    (arg = 0 → decode (.command (cmdWord 0x8 arg)) = .instr .mstart)) ∧
  (∀ s : State,
    (s.mod.mstate = .run → exec .mstart s = .next (s.refuse .wrongState 0x8)) ∧
    (s.mod.mstate ≠ .run →
      exec .mstart s = .next { s with mod := { mstate := .run, inPay := false, havePrev := false } })) ∧
  encode .mstart = .command 0x800000000

/-- 40_control R129, with its corner cases: a call without payloads emits nothing, and a closing `PEND`
after at least one `PBYTE` emits nothing. -/
def Obligations.MendRule : Prop :=
  (∀ arg : BitVec 32,
    (arg ≠ 0 → decode (.command (cmdWord 0xB arg)) = .badArgument 0xB) ∧
    (arg = 0 → decode (.command (cmdWord 0xB arg)) = .instr .mend)) ∧
  (∀ s : State,
    (s.mod.mstate ≠ .run → exec .mend s = .next (s.refuse .wrongState 0xB)) ∧
    (s.mod.mstate = .run → exec .mend s = .next { s with mod := { s.mod with mstate := .idle } })) ∧
  (∀ s : State, s.mod.mstate ≠ .run →
    ∃ t, execSeq [.mstart, .mend] s = .next t ∧ t.moStream = s.moStream) ∧
  (∀ s : State, s.mod.mstate = .run → s.mod.inPay = true →
    ∃ t u, execSeq [.mend] s = .next t ∧ execSeq [.pend, .mend] s = .next u ∧
      t.moStream = u.moStream) ∧
  encode .mend = .command 0xB00000000

/-! ### Registers (10_state) -/

/-- 10_state R26: configuration is frozen during a call, and so for the whole of it; and (R22 to R25)
each configuration register is written only by its own command, with a legal value. -/
def Obligations.ConfigurationIsFrozenDuringACall : Prop :=
  (∀ (i : Instr) (s t : State), s.dec.dstate = .run ∨ s.mod.mstate = .run → exec i s = .next t →
    t.cfg = s.cfg ∧
    (i.isConfig = true → (∃ reason op, t = s.refuse reason op) ∧ cmdErr t.faultReg = true)) ∧
  (∀ (is : List Instr) (s t : State), s.dec.dstate = .run → Instr.dend ∉ is →
    execSeq is s = .next t → t.cfg = s.cfg) ∧
  (∀ (is : List Instr) (s t : State), s.mod.mstate = .run → Instr.mend ∉ is →
    execSeq is s = .next t → t.cfg = s.cfg) ∧
  (∀ (i : Instr) (s t : State), exec i s = .next t →
    (t.cfg.rate ≠ s.cfg.rate → i = .setrate t.cfg.rate ∧ t.cfg.rate ≠ 0) ∧
    (t.cfg.chan ≠ s.cfg.chan → i = .setchan t.cfg.chan ∧ t.cfg.chan ≠ 0) ∧
    (t.cfg.bits ≠ s.cfg.bits →
      i = .setbits t.cfg.bits ∧ 1 ≤ t.cfg.bits.toNat ∧ t.cfg.bits.toNat ≤ s.build.bitsMax.val) ∧
    (t.cfg.mode ≠ s.cfg.mode → i = .setmode t.cfg.mode))

/-- 10_state R27, with its table of values and its list of ties. -/
def Obligations.FullScaleAndThreshold : Prop :=
  (∀ b : BitVec 6, 1 ≤ b.toNat → b.toNat ≤ 32 →
    maxAmplitude b = 2 ^ (b.toNat - 1) - 1 ∧ threshold b = (maxAmplitude b + 5) / 10 ∧
    (maxAmplitude b % 10 = 5 ↔ b ∈ [5, 9, 13, 17, 21, 25, 29])) ∧
  ([1, 2, 4, 5, 8, 9, 12, 13, 16, 17, 24, 32].map (fun b => (maxAmplitude b, threshold b)) =
    [(0, 0), (1, 0), (7, 1), (15, 2), (127, 13), (255, 26), (2047, 205), (4095, 410), (32767, 3277),
      (65535, 6554), (8388607, 838861), (2147483647, 214748365)])

/-- 10_state R34, R46: the transitions of `DSTATE` and `MSTATE`, and that nothing else changes them. -/
def Obligations.SequencingTransitions : Prop :=
  (∀ s t : State, step s = .next t →
    (resetNext s → t.dec.dstate = .idle ∧ t.mod.mstate = .idle) ∧
    (nextInstr? s = some .dstart → s.dec.dstate = .idle ∨ s.dec.dstate = .done →
      t.dec.dstate = .run) ∧
    (nextInstr? s = some .dend → s.dec.dstate = .run → t.dec.dstate = .done) ∧
    (¬ resetNext s → ¬ (nextInstr? s = some .dstart ∧ s.dec.dstate ≠ .run) →
      ¬ (nextInstr? s = some .dend ∧ s.dec.dstate = .run) → t.dec.dstate = s.dec.dstate) ∧
    (nextInstr? s = some .mstart → s.mod.mstate = .idle → t.mod.mstate = .run) ∧
    (nextInstr? s = some .mend → s.mod.mstate = .run → t.mod.mstate = .idle) ∧
    (¬ resetNext s → ¬ (nextInstr? s = some .mstart ∧ s.mod.mstate = .idle) →
      ¬ (nextInstr? s = some .mend ∧ s.mod.mstate = .run) → t.mod.mstate = s.mod.mstate)) ∧
  DState.code .idle = 0 ∧ DState.code .run = 1 ∧ DState.code .done = 2 ∧
  MState.code .idle = 0 ∧ MState.code .run = 1

/-- 10_state R29: `IDX` counts the samples of a call, does not wrap, and nothing else changes it; for every
`IDX_W` of the build, 32 as decided. -/
def Obligations.IdxCountsSamples : Prop :=
  (∀ s t : State, step s = .next t →
    (resetNext s → t.dec.idx = 0) ∧
    (nextInstr? s = some .dstart → s.dec.dstate ≠ .run → t.dec.idx = 0) ∧
    (∀ v, nextInstr? s = some (.sample v) → s.dec.dstate = .run →
      s.dec.idx.toNat < 2 ^ s.build.idxW.val - 1 → t.dec.idx.toNat = s.dec.idx.toNat + 1) ∧
    (∀ v, nextInstr? s = some (.sample v) → s.dec.dstate = .run →
      s.dec.idx.toNat = 2 ^ s.build.idxW.val - 1 →
      t.dec.idx = s.dec.idx ∧
        (s.dec.errCls = none → t.dec.errCls = some ⟨.indexOverflow, 0, 0⟩)) ∧
    (¬ resetNext s → ¬ (nextInstr? s = some .dstart ∧ s.dec.dstate ≠ .run) →
      (∀ v, ¬ (nextInstr? s = some (.sample v) ∧ s.dec.dstate = .run)) → t.dec.idx = s.dec.idx)) ∧
  2 ^ BuildParams.decided.idxW.val - 1 = 2 ^ 32 - 1

/-- 10_state R32: between two crossings of a call at least two frames pass. -/
def Obligations.CrossingsAreTwoFramesApart : Prop :=
  ∀ (s : State) (v : Word), s.Inv → Inspecting s → threshold s.cfg.bits < v.toInt.natAbs →
    0 < v.toInt → s.dec.lastSign = .neg → s.dec.prevValid = true →
    2 * s.cfg.chan.toNat ≤ (s.dec.idx - s.dec.prevIdx).toNat ∧
      (s.dec.idx - s.dec.prevIdx).toNat = s.dec.idx.toNat - s.dec.prevIdx.toNat

/-- 10_state R49: the register map of the status port. -/
def Obligations.StatusPortMap : Prop :=
  ∀ s : State,
    s.statusRead 0 = s.cfg.rate ∧
    s.statusRead 1 = s.cfg.chan.setWidth 32 ∧
    s.statusRead 2 = s.cfg.bits.setWidth 32 ∧
    s.statusRead 3 = s.cfg.mode.setWidth 32 ∧
    ((s.statusRead 4).extractLsb' 0 2 = s.dec.dstate.code ∧
      (s.statusRead 4).getLsbD 2 = s.dec.errCls.isSome ∧
      (s.statusRead 4).getLsbD 3 = s.dec.errAsm.isSome ∧
      (s.statusRead 4).getLsbD 4 = s.dec.errVal.isSome ∧
      (s.statusRead 4).getLsbD 5 = s.dec.locked ∧
      (s.statusRead 4).getLsbD 6 = s.dec.grpOpen ∧
      (s.statusRead 4).getLsbD 7 = s.dec.prevValid ∧
      (s.statusRead 4).extractLsb' 8 2 = s.dec.lastSign.code ∧
      (s.statusRead 4).extractLsb' 10 3 = s.dec.bitcnt ∧
      (s.statusRead 4).extractLsb' 13 3 = 0 ∧
      (s.statusRead 4).extractLsb' 16 16 = s.dec.chph) ∧
    s.statusRead 5 = (ResultCode.code s.dec.dCode).setWidth 32 ∧
    s.statusRead 6 = s.dec.dInfo ∧
    s.statusRead 7 = s.dec.dInfo2 ∧
    s.statusRead 8 = s.dec.idx ∧
    s.statusRead 9 = s.dec.prevIdx ∧
    s.statusRead 10 = s.dec.secidx ∧
    s.statusRead 11 = s.dec.bytecnt ∧
    ((s.statusRead 12).extractLsb' 0 8 = s.dec.sr ∧
      (s.statusRead 12).extractLsb' 8 8 = s.dec.bsr ∧
      (s.statusRead 12).extractLsb' 16 8 = s.dec.rsum ∧
      (s.statusRead 12).extractLsb' 24 8 = s.dec.b0Act) ∧
    ((s.statusRead 13).extractLsb' 0 9 = s.dec.paylen ∧ (s.statusRead 13).getLsbD 9 = s.dec.b0Ok ∧
      (s.statusRead 13).extractLsb' 10 22 = 0) ∧
    ((s.statusRead 14).extractLsb' 0 1 = s.mod.mstate.code ∧
      (s.statusRead 14).getLsbD 1 = s.mod.inPay ∧ (s.statusRead 14).getLsbD 2 = s.mod.havePrev ∧
      (s.statusRead 14).extractLsb' 3 29 = 0) ∧
    s.statusRead 15 = s.faultReg.setWidth 32

/-! ### Independence of the two paths (20_memory R77) -/

/-- 20_memory R77: who writes the registers and streams of each path; that any interleaving of a decode
call's and an encode call's commands gives each path what its own commands alone give; and what an
accepted command of either path, or a pulse token, leaves alone. (Pulse rows are tokens inside the decode
path; the claim about interleavings is about commands.) -/
def Obligations.PathsAreIndependent : Prop :=
  (∀ (i : Instr) (s t : State), exec i s = .next t →
    (i.isDecode = false → i.isPulse = false → t.dec = s.dec ∧ t.doStream = s.doStream) ∧
    (i.isEncode = false → t.mod = s.mod ∧ t.moStream = s.moStream)) ∧
  (∀ (is : List Instr) (s : State),
    (∀ i ∈ is, i = .nop ∨ i.isDecode = true ∨ i.isEncode = true) →
    ∃ t a b, execSeq is s = .next t ∧
      execSeq (is.filter Instr.isDecode) s = .next a ∧
      execSeq (is.filter Instr.isEncode) s = .next b ∧
      t.dec = a.dec ∧ t.doStream = a.doStream ∧ t.mod = b.mod ∧ t.moStream = b.moStream ∧
      t.cfg = s.cfg) ∧
  (∀ (i : Instr) (s t : State), i.isDecode = true ∨ i.isPulse = true → allowed i s = true →
    exec i s = .next t → OnlyDecoder s t) ∧
  (∀ (i : Instr) (s t : State), i.isEncode = true → allowed i s = true →
    exec i s = .next t → OnlyModulator s t)

/-! ### Demodulator (41_demodulator) -/

/-- 41_demodulator R141: the sample at the index limit, for every `IDX_W` of the build, 32 as decided. -/
def Obligations.IndexOverflowRule : Prop :=
  2 ^ BuildParams.decided.idxW.val - 1 = 2 ^ 32 - 1 ∧
  ∀ (s : State) (v : Word), s.dec.dstate = .run → s.dec.idx.toNat = 2 ^ s.build.idxW.val - 1 →
    (s.dec.errCls = none →
      exec (.sample v) s =
        .next { s with dec := { s.dec with errCls := some ⟨.indexOverflow, 0, 0⟩ } }) ∧
    (s.dec.errCls.isSome = true → exec (.sample v) s = .next s) ∧
    (∀ (t : State) (w : Word), exec (.sample v) s = .next t → exec (.sample w) t = .next t)

/-- 41_demodulator R142: the threshold test, strict and exact, and that a sample at or below the
threshold changes nothing but the counters. -/
def Obligations.ThresholdTest : Prop :=
  (∀ (b : BitVec 6) (v : Word), aboveThreshold b v = true ↔ threshold b < v.toInt.natAbs) ∧
  (∀ (s : State) (v : Word), Inspecting s → v.toInt.natAbs ≤ threshold s.cfg.bits →
    exec (.sample v) s = .next { s with dec := counted s.cfg s.dec }) ∧
  (0x80000000#32).toInt.natAbs = 2 ^ 31 ∧ threshold 16 = 3277 ∧
  (aboveThreshold 16 (BitVec.ofInt 32 3277) = false ∧
    aboveThreshold 16 (BitVec.ofInt 32 (-3277)) = false ∧
    aboveThreshold 16 (BitVec.ofInt 32 3278) = true ∧
    aboveThreshold 16 (BitVec.ofInt 32 (-3278)) = true)

/-- 41_demodulator R143, R145, R147: the sign kept of an above-threshold sample, and which one is a
crossing; the first crossing of a call yields no pulse; a crossing whose distance to the one before lies
in no window records `InvalidPulseLength` and is still registered. -/
def Obligations.CrossingTest : Prop :=
  ∀ (s : State) (v : Word), Inspecting s → threshold s.cfg.bits < v.toInt.natAbs →
    v ≠ 0 ∧
    (¬ (0 < v.toInt ∧ s.dec.lastSign = .neg) →
      exec (.sample v) s =
        .next { s with
          dec := counted s.cfg { s.dec with lastSign := if 0 < v.toInt then .pos else .neg } }) ∧
    (0 < v.toInt → s.dec.lastSign = .neg →
      ∃ t, exec (.sample v) s = .next t ∧ t.dec.prevValid = true ∧ t.dec.prevIdx = s.dec.idx ∧
        t.dec.lastSign = .pos) ∧
    (0 < v.toInt → s.dec.lastSign = .neg → s.dec.prevValid = false →
      exec (.sample v) s =
        .next { s with
          dec := counted s.cfg
            { s.dec with prevValid := true, prevIdx := s.dec.idx, lastSign := .pos } }) ∧
    (0 < v.toInt → s.dec.lastSign = .neg → s.dec.prevValid = true →
      classify s.cfg.rate.toNat (s.dec.idx - s.dec.prevIdx).toNat = none →
      exec (.sample v) s =
        .next { s with
          dec := counted s.cfg
            { s.dec with
              errCls := some ⟨.invalidPulseLength, s.dec.idx - s.dec.prevIdx, s.dec.idx⟩
              prevValid := true, prevIdx := s.dec.idx, lastSign := .pos } })

/-- 41_demodulator R145, R148: a crossing that ends a classified pulse sends it to BA, exactly as the
pulse row of the opcode table runs, and keeps `GRP_OPEN`. -/
def Obligations.CrossingSendsItsPulse : Prop :=
  ∀ (s : State) (v : Word) (k : PulseKind), Inspecting s →
    threshold s.cfg.bits < v.toInt.natAbs → 0 < v.toInt → s.dec.lastSign = .neg →
    s.dec.prevValid = true →
    classify s.cfg.rate.toNat (s.dec.idx - s.dec.prevIdx).toNat = some k →
    ∃ u, exec (pulseInstr k)
      { s with dec := { s.dec with grpOpen := if k = .gap then s.dec.grpOpen else true } } = .next u ∧
    exec (.sample v) s =
      .next { u with
        dec := counted u.cfg
          { u.dec with
            grpOpen := decide (k ≠ .gap), prevValid := true, prevIdx := s.dec.idx,
            lastSign := .pos } }

/-- 41_demodulator R146, R150: the four windows, that at most one holds, the values at 44100 Hz, and
scale invariance. -/
def Obligations.ClassificationWindows : Prop :=
  (∀ r d : Nat,
    (classify r d = some .one ↔ 15 * r ≤ 44100 * d ∧ 44100 * d < 20 * r) ∧
    (classify r d = some .zero ↔ 35 * r ≤ 44100 * d ∧ 44100 * d < 39 * r) ∧
    (classify r d = some .start ↔ 41 * r ≤ 44100 * d ∧ 44100 * d < 46 * r) ∧
    (classify r d = some .gap ↔ 20000 * r < 44100 * d) ∧
    (classify r d = none ↔
      44100 * d < 15 * r ∨ (20 * r ≤ 44100 * d ∧ 44100 * d < 35 * r) ∨
        (39 * r ≤ 44100 * d ∧ 44100 * d < 41 * r) ∨ (46 * r ≤ 44100 * d ∧ 44100 * d ≤ 20000 * r))) ∧
  ([15, 19, 20, 34, 35, 38, 39, 40, 41, 45, 46, 20000, 20001].map (classify 44100) =
    [some .one, some .one, none, none, some .zero, some .zero, none, none, some .start, some .start,
      none, none, some .gap]) ∧
  (∀ m r d : Nat, 0 < m → classify (m * r) (m * d) = classify r d)

/-- 41_demodulator R153, R140: outside a call a sample is refused; a sample of another channel only
advances the counters; after the classifier halts every sample only counts and `DEND` flushes nothing, the
classifier's error being the result. -/
def Obligations.UninspectedSamplesOnlyCount : Prop :=
  (∀ (s : State) (v : Word),
    (s.dec.dstate ≠ .run → exec (.sample v) s = .next (s.refuse .wrongState 0x6)) ∧
    (s.dec.dstate = .run → s.dec.idx.toNat < indexLimit s.build → s.dec.chph ≠ 0 →
      exec (.sample v) s = .next { s with dec := counted s.cfg s.dec })) ∧
  (∀ (s : State) (e : ErrorRecord), s.dec.dstate = .run → s.dec.errCls = some e →
    (∀ v, s.dec.idx.toNat < indexLimit s.build →
      exec (.sample v) s = .next { s with dec := counted s.cfg s.dec }) ∧
    (∀ v, s.dec.idx.toNat = indexLimit s.build → exec (.sample v) s = .next s) ∧
    exec .dend s =
      .next { s with
        doStream := s.doStream ++ [.od (some e.kind) e.info e.info2]
        dec := { s.dec with
          dCode := some e.kind, dInfo := e.info, dInfo2 := e.info2, dstate := .done } })

/-! ### Bit assembler and byte framer (42_assembler_framer) -/

/-- 42_assembler_framer R161, R162, R163, R165: a pulse while Seeking shifts its bit into `SR`, Start as
0, and the marker locks the section. -/
def Obligations.SeekingPulsesShiftAndLock : Prop :=
  (∀ (s : State) (i : Instr) (b : Bool), s.dec.errAsm = none → s.dec.locked = false →
    (i, b) ∈ [(Instr.pulseZero, false), (Instr.pulseOne, true), (Instr.pulseStart, false)] →
    let sr : Byte := (s.dec.sr <<< 1) ||| (if b then 1 else 0)
    exec i s =
      .next { s with
        dec :=
          if sr = 0x7F then
            { s.dec with sr := sr, locked := true, bitcnt := 0, bsr := 0, bytecnt := 0 }
          else { s.dec with sr := sr } }) ∧
  (0xFF <<< 1 ||| 0 : Byte) = 0xFE ∧ (0x3F <<< 1 ||| 1 : Byte) = 0x7F

/-- 42_assembler_framer R161, R162, R167: a Zero or One pulse while Locked pushes its bit; the eighth
emits the byte, which CV sees in text mode while it is not halted. -/
def Obligations.LockedPulsesPushBits : Prop :=
  ∀ (s : State) (i : Instr) (b : Bool), s.dec.errAsm = none → s.dec.locked = true →
    (i, b) ∈ [(Instr.pulseZero, false), (Instr.pulseOne, true)] →
    let bsr : Byte := (s.dec.bsr <<< 1) ||| (if b then 1 else 0)
    (s.dec.bitcnt ≠ 7 →
      exec i s =
        .next { s with dec := { s.dec with bsr := bsr, bitcnt := s.dec.bitcnt + 1 } }) ∧
    (s.dec.bitcnt = 7 →
      let d : DecRegs := { s.dec with bsr := bsr, bitcnt := 0 }
      let d' : DecRegs :=
        if s.cfg.mode.getLsbD 0 = true ∧ s.dec.errVal = none then cvByte d bsr d.bytecnt.toNat else d
      exec i s =
        .next { s with
          doStream := s.doStream ++ [.ob bsr]
          dec := { d' with bytecnt := s.dec.bytecnt + 1 } })

/-- 42_assembler_framer R163: the Start pulse. -/
def Obligations.StartPulseRule : Prop :=
  ∀ s : State, s.dec.errAsm = none →
    (s.dec.locked = false → exec .pulseStart s = exec .pulseZero s) ∧
    (s.dec.locked = true → s.dec.bitcnt ≠ 0 →
      exec .pulseStart s =
        .next { s with
          dec := { s.dec with
            errAsm := some ⟨.invalidStartPulse, s.dec.secidx, s.dec.bitcnt.setWidth 32⟩ } }) ∧
    (s.dec.locked = true → s.dec.bitcnt = 0 → exec .pulseStart s = .next s)

/-- 42_assembler_framer R168, R169: the end of a group. While Seeking it is `StartSequenceNotFound`;
while Locked with CV not called, the section is delivered, with its leftover bits dropped or padded as
`TAIL_POLICY` says, and the next one begins. -/
def Obligations.GroupEndRule : Prop :=
  ∀ s : State, s.dec.errAsm = none →
    (s.dec.locked = false →
      exec .pulseGap s =
        .next { s with
          dec := { s.dec with errAsm := some ⟨.startSequenceNotFound, s.dec.secidx, 0⟩ } }) ∧
    (s.dec.locked = true → ¬ (s.cfg.mode.getLsbD 0 = true ∧ s.dec.errVal = none) →
      let fresh : DecRegs :=
        { s.dec with
          locked := false, sr := 0xFF, bitcnt := 0, bsr := 0, bytecnt := 0,
          secidx := s.dec.secidx + 1 }
      (s.build.tailPolicy = .discard ∨ s.dec.bitcnt = 0 →
        exec .pulseGap s =
          .next { s with
            doStream := s.doStream ++ [.os s.dec.secidx s.dec.bytecnt s.dec.bitcnt false 0]
            dec := fresh }) ∧
      (s.build.tailPolicy = .padZero → s.dec.bitcnt ≠ 0 →
        exec .pulseGap s =
          .next { s with
            doStream := s.doStream ++
              [.ob (s.dec.bsr <<< (8 - s.dec.bitcnt.toNat)),
                .os s.dec.secidx (s.dec.bytecnt + 1) s.dec.bitcnt false 0]
            dec := fresh }))

/-- 44_validator R206, 42_assembler_framer R169: the section end in text mode with no leftover bit to
pad: length, first byte, checksum, in that order, then acceptance with the extraction length; the `OS`
token is emitted in every case. -/
def Obligations.TextSectionEndRule : Prop :=
  ∀ s : State, s.dec.errAsm = none → s.dec.locked = true → s.cfg.mode.getLsbD 0 = true →
    s.dec.errVal = none → s.build.tailPolicy = .discard ∨ s.dec.bitcnt = 0 →
    let fresh : DecRegs :=
      { s.dec with
        locked := false, sr := 0xFF, bitcnt := 0, bsr := 0, bytecnt := 0, secidx := s.dec.secidx + 1 }
    let n := s.dec.bytecnt
    let rejected (e : ErrorRecord) : State :=
      { s with
        doStream := s.doStream ++ [.os s.dec.secidx n s.dec.bitcnt false 0]
        dec := { fresh with errVal := some e } }
    let header : Prop := s.dec.secidx = 0
    let goodLength : Prop := (header → n.toNat = 38) ∧ (¬ header → n.toNat = 278)
    let badSum : Prop := s.dec.rsum ≠ s.build.ckTarget ∧ s.cfg.mode.getLsbD 1 = false
    (¬ goodLength →
      exec .pulseGap s = .next (rejected ⟨.invalidBufferLength, s.dec.secidx, n⟩)) ∧
    (goodLength → s.dec.b0Ok = false → header →
      exec .pulseGap s = .next (rejected ⟨.invalidFileType, 0x9C, s.dec.b0Act.setWidth 32⟩)) ∧
    (goodLength → s.dec.b0Ok = false → ¬ header →
      exec .pulseGap s = .next (rejected ⟨.missingStartByte, 0x8D, s.dec.b0Act.setWidth 32⟩)) ∧
    (goodLength → s.dec.b0Ok = true → badSum →
      exec .pulseGap s =
        .next (rejected ⟨.invalidChecksum, s.dec.secidx, s.dec.rsum.setWidth 32⟩)) ∧
    (goodLength → s.dec.b0Ok = true → ¬ badSum →
      exec .pulseGap s =
        .next { s with
          doStream := s.doStream ++
            [.os s.dec.secidx n s.dec.bitcnt true
              (if s.dec.secidx = 0 then nameLen s.dec.name else payloadLen s.build s.dec.paylen)]
          dec := fresh })

/-- 42_assembler_framer R169, 20_memory R72: with `PadZero` a section that ends with leftover bits ends
as if Zero pulses had completed its last byte, in every mode; only `OS.res` still counts the real bits. -/
def Obligations.PadZeroCompletesTheByte : Prop :=
  ∀ s : State, s.dec.errAsm = none → s.dec.locked = true → s.build.tailPolicy = .padZero →
    s.dec.bitcnt ≠ 0 →
    ∃ p t u, execSeq (List.replicate (8 - s.dec.bitcnt.toNat) .pulseZero) s = .next p ∧
      p.dec.bitcnt = 0 ∧ exec .pulseGap p = .next t ∧ exec .pulseGap s = .next u ∧
      u.dec = t.dec ∧
      ∃ n acc len,
        t.doStream = s.doStream ++
          [.ob (s.dec.bsr <<< (8 - s.dec.bitcnt.toNat)), .os s.dec.secidx n 0 acc len] ∧
        u.doStream = s.doStream ++
          [.ob (s.dec.bsr <<< (8 - s.dec.bitcnt.toNat)), .os s.dec.secidx n s.dec.bitcnt acc len]

/-- 42_assembler_framer R166, 10_state R36, R40: a locked section stays locked, with `SR` unchanged,
until a section end, which returns to Seeking and adds 1 to `SECIDX`. -/
def Obligations.OneLockPerSection : Prop :=
  ∀ (i : Instr) (s t : State), s.dec.locked = true → exec i s = .next t →
    ¬ (i = .dstart ∧ s.dec.dstate ≠ .run) →
    (t.dec.locked = true ∧ t.dec.sr = s.dec.sr ∧ t.dec.secidx = s.dec.secidx) ∨
    (t.dec.locked = false ∧ t.dec.sr = 0xFF ∧ t.dec.secidx = s.dec.secidx + 1)

/-- 42_assembler_framer R172: after the assembler halts it ignores every token, the validator receives
nothing, no `OB` or `OS` is emitted, and a classifier error still takes precedence. -/
def Obligations.HaltedAssemblerIgnoresTokens : Prop :=
  ∀ s : State, s.dec.errAsm.isSome = true →
    (∀ k, exec (pulseInstr k) s = .next s) ∧
    (∀ v t, exec (.sample v) s = .next t →
      SameAssembler s.dec t.dec ∧ SameValidator s.dec t.dec ∧ t.doStream = s.doStream ∧
        t.dec.errAsm = s.dec.errAsm ∧ t.dec.errVal = s.dec.errVal) ∧
    (∀ t, s.dec.dstate = .run → exec .dend s = .next t →
      SameAssembler s.dec t.dec ∧ SameValidator s.dec t.dec ∧
        t.doStream = s.doStream ++ [.od t.dec.dCode t.dec.dInfo t.dec.dInfo2]) ∧
    (∀ e, s.dec.errCls = some e → s.dec.finalResult = (some e.kind, e.info, e.info2))

/-- 42_assembler_framer R170: a group without the marker pattern never locks, emits nothing, and ends in
`StartSequenceNotFound`, in every mode. -/
def Obligations.NoMarkerNoBuffer : Prop :=
  ∀ (s : State) (ks : List PulseKind), SectionStart s.dec → PulseKind.gap ∉ ks →
    (∀ a b : List Bool, ks.map Reference.bitOf ≠ a ++ Reference.markerBits ++ b) →
    ∃ t u, execSeq (ks.map pulseInstr) s = .next t ∧ t.dec.locked = false ∧
      t.doStream = s.doStream ∧ exec .pulseGap t = .next u ∧ u.doStream = s.doStream ∧
      u.dec.errAsm = some ⟨.startSequenceNotFound, s.dec.secidx, 0⟩

/-- 42_assembler_framer R171: what a group delivers, as the closed statement over its pulses, where CV is
not called. -/
def Obligations.SectionAsClosedStatement : Prop :=
  ∀ (s : State) (ks : List PulseKind), SectionStart s.dec → s.cvActive = false →
    PulseKind.gap ∉ ks →
    ∃ t, execSeq (ks.map pulseInstr ++ [.pulseGap]) s = .next t ∧
      match Reference.groupBits s.dec.secidx.toNat false [] ks with
      | .error e => t.dec.errAsm = some e
      | .ok bs =>
        let b := Reference.bufferOf s.build.tailPolicy bs
        t.doStream = s.doStream ++ b.bytes.map .ob ++
          [.os s.dec.secidx (BitVec.ofNat 32 b.bytes.length) (BitVec.ofNat 3 b.res) false 0] ∧
        SectionStart t.dec ∧ t.dec.secidx = s.dec.secidx + 1

/-! ### Validator (44_validator) -/

/-- 44_validator R200, R214: in raw mode and after the validator has halted, no instruction of the decode
path changes CV's registers or its error, and every `OS` token has `acc = 0` and `len = 0`. -/
def Obligations.InactiveValidatorSeesNothing : Prop :=
  ∀ (i : Instr) (s t : State), s.cvActive = false → i ≠ .dstart → exec i s = .next t →
    SameValidator s.dec t.dec ∧ t.dec.errVal = s.dec.errVal ∧
    ∃ added, t.doStream = s.doStream ++ added ∧
      ∀ sec n res acc len, DoToken.os sec n res acc len ∈ added → acc = false ∧ len = 0

/-- 44_validator R201 to R210, R212, R215 to R217: CV fed a section's bytes one at a time decides and
reports what the document's checks over the whole record do, whatever its registers held before. -/
def Obligations.RecordVerdictIsReference : Prop :=
  ∀ (cfg : CfgRegs) (build : BuildParams) (d : DecRegs) (bytes : List Byte), bytes.length < 2 ^ 32 →
    let e := feedSection d bytes
    cvVerdict cfg build e (BitVec.ofNat 32 bytes.length) =
      Reference.checkRecord build cfg.ignck d.secidx.toNat bytes ∧
    (Reference.checkRecord build cfg.ignck d.secidx.toNat bytes = none →
      cvLengths build e = (true, Reference.recordLen build.allFillerLen d.secidx.toNat bytes))

/-- 44_validator R211: what one changed checksum-relevant byte does, for any target value, and that the
order of the relevant bytes is not protected. -/
def Obligations.OneChangedByteFlipsTheChecksum : Prop :=
  (∀ (d : DecRegs) (bytes : List Byte) (p : Nat) (v : Byte), 1 ≤ p →
    p ≤ (if d.secidx = 0 then 17 else 257) → p < bytes.length → bytes[p]? ≠ some v →
    (feedSection d (bytes.set p v)).rsum ≠ (feedSection d bytes).rsum ∧
    ∀ target, checksumOk target (feedSection d bytes).rsum = true →
      checksumOk target (feedSection d (bytes.set p v)).rsum = false) ∧
  (∀ (d : DecRegs) (bytes : List Byte) (p : Nat) (target : Byte), 1 ≤ p →
    p ≤ (if d.secidx = 0 then 17 else 257) → p < bytes.length →
    ∃! v, checksumOk target (feedSection d (bytes.set p v)).rsum = true) ∧
  (∀ (d : DecRegs) (xs ys : List Byte), xs ≠ [] → ys ≠ [] →
    (Reference.relevant d.secidx.toNat xs).Perm (Reference.relevant d.secidx.toNat ys) →
    (feedSection d xs).rsum = (feedSection d ys).rsum)

/-- 44_validator R218: the file a host assembles from the sections of a successful text-mode call is
the name trimmed at its first space and the payload windows trimmed of trailing filler; an all-filler
window contributes nothing or all of itself, as `ALL_FILLER_LEN` says (R217, R222). -/
def Obligations.HostFileIsNameAndPayload : Prop :=
  ∀ (build : BuildParams) (ignck : Bool) (h : Reference.Buffer) (rs : List Reference.Buffer)
    (secs : List Reference.Section), Reference.parse build ignck 0 (h :: rs) = .ok secs →
    Reference.hostFile secs =
      (Reference.trimName (Reference.nameField h.bytes),
        rs.flatMap (fun r =>
          let w := Reference.payloadWindow r.bytes
          if (Reference.trimPayload w).isEmpty then
            (match build.allFillerLen with | .zero => [] | .wholeWindow => w)
          else Reference.trimPayload w))

/-! ### Errors (60_exceptions) -/

/-- 60_exceptions R228, R231, R238, 10_state R35: a stage keeps its first error, with all it recorded,
until `DSTART` is accepted or reset; and at most one stage takes an error in a step. -/
def Obligations.FirstErrorIsKept : Prop :=
  (∀ (s t : State) (st : Stage) (e : ErrorRecord), step s = .next t → ¬ resetNext s →
    ¬ (nextInstr? s = some .dstart ∧ s.dec.dstate ≠ .run) →
    s.dec.err st = some e → t.dec.err st = some e) ∧
  (∀ s t : State, step s = .next t → errorCount t.dec ≤ errorCount s.dec + 1)

/-- 60_exceptions R232: the result of a call, by stage; in a call `ERR_VAL` is set only in text mode. -/
def Obligations.FinalResultByStage : Prop :=
  (∀ d : DecRegs,
    (∀ e, d.errCls = some e → d.finalResult = (some e.kind, e.info, e.info2)) ∧
    (∀ e, d.errCls = none → d.errAsm = some e → d.finalResult = (some e.kind, e.info, e.info2)) ∧
    (∀ e, d.errCls = none → d.errAsm = none → d.errVal = some e →
      d.finalResult = (some e.kind, e.info, e.info2)) ∧
    (d.errCls = none → d.errAsm = none → d.errVal = none → d.finalResult = (none, d.secidx, 0))) ∧
  (∀ s : State, s.Inv → s.dec.dstate = .run → s.dec.errVal.isSome = true → s.cfg.text = true)

/-! ### Calls against the document's functions (40_control R131, R132) -/

/-- 40_control R131: the result of a decode call is that of the document's pipeline on its samples, in
raw and in text mode, for a call that does not pass the index limit (41_demodulator R141). -/
def Obligations.DecodeCallIsTheDocumentsPipeline : Prop :=
  ∀ (s : State) (vs : List Word), s.dec.dstate ≠ .run → s.cfg.chan ≠ 0 →
    vs.length ≤ indexLimit s.build →
    ∃ t added, execSeq (Reference.decodeCommands vs) s = .next t ∧
      t.faultReg = s.faultReg ∧ t.doStream = s.doStream ++ added ∧
      match Reference.decodeCall s.cfg s.build vs with
      | .ok secs =>
        added = Reference.tokensFrom 0 secs ++ [.od none (BitVec.ofNat 32 secs.length) 0] ∧
        t.dec.dCode = none ∧ t.dec.dInfo = BitVec.ofNat 32 secs.length ∧ t.dec.dInfo2 = 0
      | .error e =>
        added.getLast? = some (.od (some e.kind) e.info e.info2) ∧
        t.dec.dCode = some e.kind ∧ t.dec.dInfo = e.info ∧ t.dec.dInfo2 = e.info2

/-- 40_control R132, 43_modulator R180: the samples of an encode call are `modulate(payloads, spec)`, for
every `SINQ` the configuration supplies, and the channel count plays no part. -/
def Obligations.EncodeCallIsModulate : Prop :=
  (∀ (s : State) (ps : List (List Byte)), s.mod.mstate = .idle →
    ∃ t, execSeq (Reference.encodeCommands ps) s = .next t ∧ t.faultReg = s.faultReg ∧
      t.moStream = s.moStream ++ Reference.modulate s.build.sine s.cfg ps ∧ t.mod.mstate = .idle) ∧
  (∀ (sine : List SineTable) (c : CfgRegs) (n : BitVec 16) (ps : List (List Byte)),
    Reference.modulate sine { c with chan := n } ps = Reference.modulate sine c ps)

/-! ### Modulator (43_modulator) -/

/-- 43_modulator R188: one payload byte, with the opening of its burst, and the sample counts. -/
def Obligations.PbyteRule : Prop :=
  (∀ arg : BitVec 32,
    (2 ^ 8 ≤ arg.toNat → decode (.command (cmdWord 0x9 arg)) = .badArgument 0x9) ∧
    (arg.toNat < 2 ^ 8 →
      decode (.command (cmdWord 0x9 arg)) = .instr (.pbyte (arg.setWidth 8)))) ∧
  (∀ (s : State) (u : Byte), s.mod.mstate ≠ .run →
    exec (.pbyte u) s = .next (s.refuse .wrongState 0x9)) ∧
  (∀ (s : State) (u : Byte), s.mod.mstate = .run →
    let quiet := if s.mod.inPay = false ∧ s.mod.havePrev = true then silence s.cfg else []
    let lead := if s.mod.inPay = false then leader s.build.sine s.cfg else []
    exec (.pbyte u) s =
      .next { s with
        moStream := s.moStream ++ quiet ++ lead ++ tones s.build.sine s.cfg u
        mod := { s.mod with inPay := true } }) ∧
  (∀ (sine : List SineTable) (c : CfgRegs) (u : Byte),
    let n0 := samplesZero c.rate
    let n1 := samplesOne c.rate
    (leader sine c).length = 255 * (4 * n0 + 4 * n1) + (n0 + 7 * n1) ∧
    (silence c).length = samplesSilence c.rate ∧
    (tones sine c u).length = countBits false [u] * n0 + (8 - countBits false [u]) * n1) ∧
  (∀ s : State, s.cfg = State.reset.cfg → s.build.sine = [] → s.mod = ⟨.run, false, false⟩ →
    ∃ t added, exec (.pbyte 0x48) s = .next t ∧ t.moStream = s.moStream ++ added ∧
      added.length = 50355 ∧ added.take 3 = [0, 6126, 12036]) ∧
  encode (.pbyte 0x48) = .command 0x900000048

/-- 43_modulator R189: the end of a payload; an empty payload still gets its leader and marker. -/
def Obligations.PendRule : Prop :=
  (∀ arg : BitVec 32,
    (arg ≠ 0 → decode (.command (cmdWord 0xA arg)) = .badArgument 0xA) ∧
    (arg = 0 → decode (.command (cmdWord 0xA arg)) = .instr .pend)) ∧
  (∀ s : State, s.mod.mstate ≠ .run → exec .pend s = .next (s.refuse .wrongState 0xA)) ∧
  (∀ s : State, s.mod.mstate = .run →
    let quiet := if s.mod.inPay = false ∧ s.mod.havePrev = true then silence s.cfg else []
    let lead := if s.mod.inPay = false then leader s.build.sine s.cfg else []
    exec .pend s =
      .next { s with
        moStream := s.moStream ++ quiet ++ lead
        mod := { s.mod with inPay := false, havePrev := true } }) ∧
  (∀ s : State, s.cfg = State.reset.cfg → s.mod.mstate = .idle →
    ∃ t added, execSeq [.mstart, .pbyte 0x41, .pend, .pend, .mend] s = .next t ∧
      t.moStream = s.moStream ++ added ∧ added.length = 133555)

/-- 43_modulator R182, R183, with their values, the rates at which a bit has no sample, and that a
silence is classified as a Gap. -/
def Obligations.SampleCounts : Prop :=
  (∀ r : BitVec 32,
    samplesZero r = (2 * r.toNat + 1320) / 2640 ∧ samplesOne r = (2 * r.toNat + 2680) / 5360 ∧
    (samplesZero r = 0 ↔ r.toNat < 660) ∧ (samplesOne r = 0 ↔ r.toNat < 1340) ∧
    samplesSilence r = (3 * r.toNat + 2) / 4) ∧
  ([44100, 22050, 48000, 8000].map (fun r => (samplesZero r, samplesOne r)) =
    [(33, 16), (17, 8), (36, 18), (6, 3)]) ∧
  ([44100, 22050, 48000, 44101, 44102].map samplesSilence = [33075, 16538, 36000, 33076, 33077]) ∧
  (∀ (sine : List SineTable) (c : CfgRegs) (b : Bool),
    (bitTone sine c b).length = if b then samplesOne c.rate else samplesZero c.rate) ∧
  (∀ c : CfgRegs, silence c = List.replicate (samplesSilence c.rate) 0) ∧
  (∀ (r : BitVec 32) (d : Nat), r ≠ 0 → samplesSilence r ≤ d → classify r.toNat d = some .gap)

/-- 43_modulator R190: the length of a burst, and the samples an encode call emits. -/
def Obligations.BurstLengths : Prop :=
  (∀ (sine : List SineTable) (c : CfgRegs) (p : List Byte),
    (Reference.burst sine c p).length =
      (1021 + countBits false p) * samplesZero c.rate + (1027 + countBits true p) * samplesOne c.rate) ∧
  (∀ (s : State) (ps : List (List Byte)), s.mod.mstate = .idle → ps ≠ [] →
    ∃ t added, execSeq (Reference.encodeCommands ps) s = .next t ∧
      t.moStream = s.moStream ++ added ∧
      added.length =
        (ps.map (fun p => (Reference.burst s.build.sine s.cfg p).length)).sum +
          (ps.length - 1) * samplesSilence s.cfg.rate) ∧
  (∀ (sine : List SineTable) (p : List Byte),
    (Reference.burst sine State.reset.cfg p).length =
      50125 + 33 * countBits false p + 16 * countBits true p)

/-- 20_memory R63, 43_modulator R184, R185, 45_arithmetic R304: for every `SINQ` the configuration supplies,
every emitted sample lies in `-A .. A`, and every bit begins with a 0 sample. -/
def Obligations.OutputSamplesInRange : Prop :=
  (∀ (i : Instr) (s t : State), s.cfg.bits.toNat ≤ 32 → exec i s = .next t →
    ∃ added, t.moStream = s.moStream ++ added ∧
      ∀ v ∈ added, -(maxAmplitude s.cfg.bits : Int) ≤ v.toInt ∧ v.toInt ≤ maxAmplitude s.cfg.bits) ∧
  (∀ (sine : List SineTable) (c : CfgRegs) (b : Bool), bitTone sine c b ≠ [] →
    (bitTone sine c b).head? = some 0)

/-- 43_modulator R185: with no table supplied, `SINQ` is the exact real sine times full scale, rounded to
the nearest integer, ties away from zero, for every rate, depth, tone and index. -/
def Obligations.SineIsNearestInteger : Prop :=
  ∀ (c : CfgRegs) (b : Bool) (i : Nat), c.rate ≠ 0 → c.bits.toNat ≤ 32 →
    let f : ℝ := if b then 2680 else 1320
    let x : ℝ := Real.sin (2 * Real.pi * f * i / c.rate.toNat) * maxAmplitude c.bits
    let q : Int := Sine.supplied [] c b i
    |(q : ℝ) - x| ≤ 1 / 2 ∧ (|(q : ℝ) - x| = 1 / 2 → |x| < |(q : ℝ)|)

/-- 43_modulator R186: the tables, computed for the spec with 60-digit arithmetic. -/
def Obligations.SineTables : Prop :=
  (bitTone [] State.reset.cfg false).map BitVec.toInt =
    [0, 6126, 12036, 17522, 22390, 26468, 29613, 31713, 32695, 32524, 31206, 28788, 25354, 21026,
      15957, 10325, 4329, -1820, -7904, -13710, -19033, -23684, -27500, -30346, -32122, -32765, -32253,
      -30603, -27874, -24162, -19598, -14343, -8582] ∧
  (bitTone [] State.reset.cfg true).map BitVec.toInt =
    [0, 12210, 22661, 29848, 32736, 30909, 24630, 14803, 2844, -9524, -20521, -28562, -32489, -31736,
      -26413, -17285] ∧
  (bitTone [] { State.reset.cfg with rate := 22050, bits := 8 } false).map BitVec.toInt =
    [0, 47, 87, 115, 127, 121, 98, 62, 17, -31, -74, -107, -124, -125, -108, -76, -33] ∧
  (bitTone [] { State.reset.cfg with rate := 22050, bits := 8 } true).map BitVec.toInt =
    [0, 88, 127, 95, 11, -80, -126, -102] ∧
  (bitTone [] { State.reset.cfg with rate := 8000 } false).map BitVec.toInt =
    [0, 28204, 28714, 1029, -27666, -29196] ∧
  (bitTone [] { State.reset.cfg with rate := 8000 } true).map BitVec.toInt = [0, 28204, -28714]

/-! ### Hazards (70_reset_and_hazards) -/

/-- 70_reset R274, 40_control R127: a signal that never exceeds the threshold produces no token but the
`OD`: success with zero sections in raw mode, `InvalidBufferLength(0, 0)` in text mode. -/
def Obligations.QuietSignalHasNoSections : Prop :=
  ∀ (s : State) (vs : List Word), s.dec.dstate ≠ .run → vs.length ≤ indexLimit s.build →
    (∀ v ∈ vs, v.toInt.natAbs ≤ threshold s.cfg.bits) →
    ∃ t, execSeq (Reference.decodeCommands vs) s = .next t ∧
      t.doStream = s.doStream ++
        [if s.cfg.mode.getLsbD 0 then .od (some .invalidBufferLength) 0 0 else .od none 0 0] ∧
      t.dec.idx.toNat = vs.length ∧ t.dec.prevValid = false ∧ t.dec.secidx = 0

/-- 70_reset R271: at every rate above 13860 Hz the modulator's 0-bit period lies in no window of the
demodulator, so its own output does not decode; the 1-bit period at 44100 Hz is a One. -/
def Obligations.ModulatorZeroOutsideEveryWindow : Prop :=
  (∀ r : BitVec 32, 13860 < r.toNat → classify r.toNat (samplesZero r) = none) ∧
  classify 44100 (samplesOne 44100) = some .one ∧
  (∀ r : BitVec 32, 12540 ≤ r.toNat → r.toNat ≤ 12600 →
    samplesZero r = 10 ∧ classify r.toNat 10 = some .zero)
end

