-- ==== Sys2Proof/Laws/State.lean ====
section
/-! SUPPORT. One lemma per field per update of the state, so that no proof unfolds a record update. -/

namespace Sys2Proof.Machine

/-! ### `setDec` -/

@[simp] theorem State.setDec_cfg (s : State) (d : DecRegs) : (s.setDec d).cfg = s.cfg := rfl
@[simp] theorem State.setDec_dec (s : State) (d : DecRegs) : (s.setDec d).dec = d := rfl
@[simp] theorem State.setDec_mod (s : State) (d : DecRegs) : (s.setDec d).mod = s.mod := rfl
@[simp] theorem State.setDec_faultReg (s : State) (d : DecRegs) : (s.setDec d).faultReg = s.faultReg := rfl
@[simp] theorem State.setDec_doStream (s : State) (d : DecRegs) : (s.setDec d).doStream = s.doStream := rfl
@[simp] theorem State.setDec_moStream (s : State) (d : DecRegs) : (s.setDec d).moStream = s.moStream := rfl
@[simp] theorem State.setDec_inputs (s : State) (d : DecRegs) : (s.setDec d).inputs = s.inputs := rfl
@[simp] theorem State.setDec_doPast (s : State) (d : DecRegs) : (s.setDec d).doPast = s.doPast := rfl
@[simp] theorem State.setDec_moPast (s : State) (d : DecRegs) : (s.setDec d).moPast = s.moPast := rfl
@[simp] theorem State.setDec_build (s : State) (d : DecRegs) : (s.setDec d).build = s.build := rfl

/-! ### `setCfg` -/

@[simp] theorem State.setCfg_cfg (s : State) (c : CfgRegs) : (s.setCfg c).cfg = c := rfl
@[simp] theorem State.setCfg_dec (s : State) (c : CfgRegs) : (s.setCfg c).dec = s.dec := rfl
@[simp] theorem State.setCfg_mod (s : State) (c : CfgRegs) : (s.setCfg c).mod = s.mod := rfl
@[simp] theorem State.setCfg_faultReg (s : State) (c : CfgRegs) : (s.setCfg c).faultReg = s.faultReg := rfl
@[simp] theorem State.setCfg_doStream (s : State) (c : CfgRegs) : (s.setCfg c).doStream = s.doStream := rfl
@[simp] theorem State.setCfg_moStream (s : State) (c : CfgRegs) : (s.setCfg c).moStream = s.moStream := rfl
@[simp] theorem State.setCfg_inputs (s : State) (c : CfgRegs) : (s.setCfg c).inputs = s.inputs := rfl
@[simp] theorem State.setCfg_doPast (s : State) (c : CfgRegs) : (s.setCfg c).doPast = s.doPast := rfl
@[simp] theorem State.setCfg_moPast (s : State) (c : CfgRegs) : (s.setCfg c).moPast = s.moPast := rfl
@[simp] theorem State.setCfg_build (s : State) (c : CfgRegs) : (s.setCfg c).build = s.build := rfl

/-! ### `setMod` -/

@[simp] theorem State.setMod_cfg (s : State) (m : ModRegs) : (s.setMod m).cfg = s.cfg := rfl
@[simp] theorem State.setMod_dec (s : State) (m : ModRegs) : (s.setMod m).dec = s.dec := rfl
@[simp] theorem State.setMod_mod (s : State) (m : ModRegs) : (s.setMod m).mod = m := rfl
@[simp] theorem State.setMod_faultReg (s : State) (m : ModRegs) : (s.setMod m).faultReg = s.faultReg := rfl
@[simp] theorem State.setMod_doStream (s : State) (m : ModRegs) : (s.setMod m).doStream = s.doStream := rfl
@[simp] theorem State.setMod_moStream (s : State) (m : ModRegs) : (s.setMod m).moStream = s.moStream := rfl
@[simp] theorem State.setMod_inputs (s : State) (m : ModRegs) : (s.setMod m).inputs = s.inputs := rfl
@[simp] theorem State.setMod_doPast (s : State) (m : ModRegs) : (s.setMod m).doPast = s.doPast := rfl
@[simp] theorem State.setMod_moPast (s : State) (m : ModRegs) : (s.setMod m).moPast = s.moPast := rfl
@[simp] theorem State.setMod_build (s : State) (m : ModRegs) : (s.setMod m).build = s.build := rfl

/-! ### `emitDo` -/

@[simp] theorem State.emitDo_cfg (s : State) (t : DoToken) : (s.emitDo t).cfg = s.cfg := rfl
@[simp] theorem State.emitDo_dec (s : State) (t : DoToken) : (s.emitDo t).dec = s.dec := rfl
@[simp] theorem State.emitDo_mod (s : State) (t : DoToken) : (s.emitDo t).mod = s.mod := rfl
@[simp] theorem State.emitDo_faultReg (s : State) (t : DoToken) : (s.emitDo t).faultReg = s.faultReg := rfl
@[simp] theorem State.emitDo_doStream (s : State) (t : DoToken) : (s.emitDo t).doStream = s.doStream ++ [t] := rfl
@[simp] theorem State.emitDo_moStream (s : State) (t : DoToken) : (s.emitDo t).moStream = s.moStream := rfl
@[simp] theorem State.emitDo_inputs (s : State) (t : DoToken) : (s.emitDo t).inputs = s.inputs := rfl
@[simp] theorem State.emitDo_doPast (s : State) (t : DoToken) : (s.emitDo t).doPast = s.doPast := rfl
@[simp] theorem State.emitDo_moPast (s : State) (t : DoToken) : (s.emitDo t).moPast = s.moPast := rfl
@[simp] theorem State.emitDo_build (s : State) (t : DoToken) : (s.emitDo t).build = s.build := rfl

/-! ### `emitMo` -/

@[simp] theorem State.emitMo_cfg (s : State) (vs : List Word) : (s.emitMo vs).cfg = s.cfg := rfl
@[simp] theorem State.emitMo_dec (s : State) (vs : List Word) : (s.emitMo vs).dec = s.dec := rfl
@[simp] theorem State.emitMo_mod (s : State) (vs : List Word) : (s.emitMo vs).mod = s.mod := rfl
@[simp] theorem State.emitMo_faultReg (s : State) (vs : List Word) : (s.emitMo vs).faultReg = s.faultReg := rfl
@[simp] theorem State.emitMo_doStream (s : State) (vs : List Word) : (s.emitMo vs).doStream = s.doStream := rfl
@[simp] theorem State.emitMo_moStream (s : State) (vs : List Word) : (s.emitMo vs).moStream = s.moStream ++ vs := rfl
@[simp] theorem State.emitMo_inputs (s : State) (vs : List Word) : (s.emitMo vs).inputs = s.inputs := rfl
@[simp] theorem State.emitMo_doPast (s : State) (vs : List Word) : (s.emitMo vs).doPast = s.doPast := rfl
@[simp] theorem State.emitMo_moPast (s : State) (vs : List Word) : (s.emitMo vs).moPast = s.moPast := rfl
@[simp] theorem State.emitMo_build (s : State) (vs : List Word) : (s.emitMo vs).build = s.build := rfl

@[simp] theorem State.setDec_setDec (s : State) (d d' : DecRegs) : (s.setDec d).setDec d' = s.setDec d' := rfl
@[simp] theorem State.setCfg_setCfg (s : State) (c c' : CfgRegs) : (s.setCfg c).setCfg c' = s.setCfg c' := rfl
@[simp] theorem State.setMod_setMod (s : State) (m m' : ModRegs) : (s.setMod m).setMod m' = s.setMod m' := rfl
@[simp] theorem State.setDec_self (s : State) : s.setDec s.dec = s := rfl
@[simp] theorem State.setCfg_self (s : State) : s.setCfg s.cfg = s := rfl
@[simp] theorem State.setMod_self (s : State) : s.setMod s.mod = s := rfl

/-! ### `refuse` -/

@[simp] theorem State.refuse_cfg (s : State) (r : Reason) (op : BitVec 4) : (s.refuse r op).cfg = s.cfg := by
  unfold State.refuse; split <;> rfl
@[simp] theorem State.refuse_dec (s : State) (r : Reason) (op : BitVec 4) : (s.refuse r op).dec = s.dec := by
  unfold State.refuse; split <;> rfl
@[simp] theorem State.refuse_mod (s : State) (r : Reason) (op : BitVec 4) : (s.refuse r op).mod = s.mod := by
  unfold State.refuse; split <;> rfl
theorem State.refuse_faultReg (s : State) (r : Reason) (op : BitVec 4) :
    (s.refuse r op).faultReg = if cmdErr s.faultReg then s.faultReg else faultWord r op := by
  unfold State.refuse; split <;> rfl
@[simp] theorem State.refuse_doStream (s : State) (r : Reason) (op : BitVec 4) : (s.refuse r op).doStream = s.doStream := by
  unfold State.refuse; split <;> rfl
@[simp] theorem State.refuse_moStream (s : State) (r : Reason) (op : BitVec 4) : (s.refuse r op).moStream = s.moStream := by
  unfold State.refuse; split <;> rfl
@[simp] theorem State.refuse_inputs (s : State) (r : Reason) (op : BitVec 4) : (s.refuse r op).inputs = s.inputs := by
  unfold State.refuse; split <;> rfl
@[simp] theorem State.refuse_doPast (s : State) (r : Reason) (op : BitVec 4) : (s.refuse r op).doPast = s.doPast := by
  unfold State.refuse; split <;> rfl
@[simp] theorem State.refuse_moPast (s : State) (r : Reason) (op : BitVec 4) : (s.refuse r op).moPast = s.moPast := by
  unfold State.refuse; split <;> rfl
@[simp] theorem State.refuse_build (s : State) (r : Reason) (op : BitVec 4) : (s.refuse r op).build = s.build := by
  unfold State.refuse; split <;> rfl

/-! ### `assertReset` -/

@[simp] theorem State.assertReset_cfg (s : State) : s.assertReset.cfg = CfgRegs.reset := rfl
@[simp] theorem State.assertReset_dec (s : State) : s.assertReset.dec = DecRegs.reset := rfl
@[simp] theorem State.assertReset_mod (s : State) : s.assertReset.mod = ModRegs.reset := rfl
@[simp] theorem State.assertReset_faultReg (s : State) : s.assertReset.faultReg = 0x00 := rfl
@[simp] theorem State.assertReset_doStream (s : State) : s.assertReset.doStream = [] := rfl
@[simp] theorem State.assertReset_moStream (s : State) : s.assertReset.moStream = [] := rfl
@[simp] theorem State.assertReset_inputs (s : State) : s.assertReset.inputs = s.inputs := rfl
@[simp] theorem State.assertReset_doPast (s : State) : s.assertReset.doPast = s.doPast ++ s.doStream := rfl
@[simp] theorem State.assertReset_moPast (s : State) : s.assertReset.moPast = s.moPast ++ s.moStream := rfl
@[simp] theorem State.assertReset_build (s : State) : s.assertReset.build = s.build := rfl

/-! ### Error registers -/

@[simp] theorem DecRegs.setErr_err_self (d : DecRegs) (st : Stage) (e : Option ErrorRecord) :
    (d.setErr st e).err st = e := by cases st <;> rfl

theorem DecRegs.setErr_err_of_ne (d : DecRegs) (st st' : Stage) (e : Option ErrorRecord) (h : st' ≠ st) :
    (d.setErr st e).err st' = d.err st' := by cases st <;> cases st' <;> first | rfl | exact absurd rfl h

@[simp] theorem DecRegs.setErr_dstate (d : DecRegs) (st : Stage) (e : Option ErrorRecord) : (d.setErr st e).dstate = d.dstate := by cases st <;> rfl
@[simp] theorem DecRegs.setErr_idx (d : DecRegs) (st : Stage) (e : Option ErrorRecord) : (d.setErr st e).idx = d.idx := by cases st <;> rfl
@[simp] theorem DecRegs.setErr_chph (d : DecRegs) (st : Stage) (e : Option ErrorRecord) : (d.setErr st e).chph = d.chph := by cases st <;> rfl
@[simp] theorem DecRegs.setErr_lastSign (d : DecRegs) (st : Stage) (e : Option ErrorRecord) : (d.setErr st e).lastSign = d.lastSign := by cases st <;> rfl
@[simp] theorem DecRegs.setErr_prevValid (d : DecRegs) (st : Stage) (e : Option ErrorRecord) : (d.setErr st e).prevValid = d.prevValid := by cases st <;> rfl
@[simp] theorem DecRegs.setErr_prevIdx (d : DecRegs) (st : Stage) (e : Option ErrorRecord) : (d.setErr st e).prevIdx = d.prevIdx := by cases st <;> rfl
@[simp] theorem DecRegs.setErr_grpOpen (d : DecRegs) (st : Stage) (e : Option ErrorRecord) : (d.setErr st e).grpOpen = d.grpOpen := by cases st <;> rfl
@[simp] theorem DecRegs.setErr_locked (d : DecRegs) (st : Stage) (e : Option ErrorRecord) : (d.setErr st e).locked = d.locked := by cases st <;> rfl
@[simp] theorem DecRegs.setErr_sr (d : DecRegs) (st : Stage) (e : Option ErrorRecord) : (d.setErr st e).sr = d.sr := by cases st <;> rfl
@[simp] theorem DecRegs.setErr_bitcnt (d : DecRegs) (st : Stage) (e : Option ErrorRecord) : (d.setErr st e).bitcnt = d.bitcnt := by cases st <;> rfl
@[simp] theorem DecRegs.setErr_bsr (d : DecRegs) (st : Stage) (e : Option ErrorRecord) : (d.setErr st e).bsr = d.bsr := by cases st <;> rfl
@[simp] theorem DecRegs.setErr_bytecnt (d : DecRegs) (st : Stage) (e : Option ErrorRecord) : (d.setErr st e).bytecnt = d.bytecnt := by cases st <;> rfl
@[simp] theorem DecRegs.setErr_secidx (d : DecRegs) (st : Stage) (e : Option ErrorRecord) : (d.setErr st e).secidx = d.secidx := by cases st <;> rfl
@[simp] theorem DecRegs.setErr_rsum (d : DecRegs) (st : Stage) (e : Option ErrorRecord) : (d.setErr st e).rsum = d.rsum := by cases st <;> rfl
@[simp] theorem DecRegs.setErr_b0Ok (d : DecRegs) (st : Stage) (e : Option ErrorRecord) : (d.setErr st e).b0Ok = d.b0Ok := by cases st <;> rfl
@[simp] theorem DecRegs.setErr_b0Act (d : DecRegs) (st : Stage) (e : Option ErrorRecord) : (d.setErr st e).b0Act = d.b0Act := by cases st <;> rfl
@[simp] theorem DecRegs.setErr_name (d : DecRegs) (st : Stage) (e : Option ErrorRecord) : (d.setErr st e).name = d.name := by cases st <;> rfl
@[simp] theorem DecRegs.setErr_paylen (d : DecRegs) (st : Stage) (e : Option ErrorRecord) : (d.setErr st e).paylen = d.paylen := by cases st <;> rfl
@[simp] theorem DecRegs.setErr_dCode (d : DecRegs) (st : Stage) (e : Option ErrorRecord) : (d.setErr st e).dCode = d.dCode := by cases st <;> rfl
@[simp] theorem DecRegs.setErr_dInfo (d : DecRegs) (st : Stage) (e : Option ErrorRecord) : (d.setErr st e).dInfo = d.dInfo := by cases st <;> rfl
@[simp] theorem DecRegs.setErr_dInfo2 (d : DecRegs) (st : Stage) (e : Option ErrorRecord) : (d.setErr st e).dInfo2 = d.dInfo2 := by cases st <;> rfl

@[simp] theorem DecRegs.raise_dstate (d : DecRegs) (st : Stage) (e : ErrorKind) (a b : Word) : (d.raise st e a b).dstate = d.dstate := by unfold DecRegs.raise; split <;> simp
@[simp] theorem DecRegs.raise_idx (d : DecRegs) (st : Stage) (e : ErrorKind) (a b : Word) : (d.raise st e a b).idx = d.idx := by unfold DecRegs.raise; split <;> simp
@[simp] theorem DecRegs.raise_chph (d : DecRegs) (st : Stage) (e : ErrorKind) (a b : Word) : (d.raise st e a b).chph = d.chph := by unfold DecRegs.raise; split <;> simp
@[simp] theorem DecRegs.raise_lastSign (d : DecRegs) (st : Stage) (e : ErrorKind) (a b : Word) : (d.raise st e a b).lastSign = d.lastSign := by unfold DecRegs.raise; split <;> simp
@[simp] theorem DecRegs.raise_prevValid (d : DecRegs) (st : Stage) (e : ErrorKind) (a b : Word) : (d.raise st e a b).prevValid = d.prevValid := by unfold DecRegs.raise; split <;> simp
@[simp] theorem DecRegs.raise_prevIdx (d : DecRegs) (st : Stage) (e : ErrorKind) (a b : Word) : (d.raise st e a b).prevIdx = d.prevIdx := by unfold DecRegs.raise; split <;> simp
@[simp] theorem DecRegs.raise_grpOpen (d : DecRegs) (st : Stage) (e : ErrorKind) (a b : Word) : (d.raise st e a b).grpOpen = d.grpOpen := by unfold DecRegs.raise; split <;> simp
@[simp] theorem DecRegs.raise_locked (d : DecRegs) (st : Stage) (e : ErrorKind) (a b : Word) : (d.raise st e a b).locked = d.locked := by unfold DecRegs.raise; split <;> simp
@[simp] theorem DecRegs.raise_sr (d : DecRegs) (st : Stage) (e : ErrorKind) (a b : Word) : (d.raise st e a b).sr = d.sr := by unfold DecRegs.raise; split <;> simp
@[simp] theorem DecRegs.raise_bitcnt (d : DecRegs) (st : Stage) (e : ErrorKind) (a b : Word) : (d.raise st e a b).bitcnt = d.bitcnt := by unfold DecRegs.raise; split <;> simp
@[simp] theorem DecRegs.raise_bsr (d : DecRegs) (st : Stage) (e : ErrorKind) (a b : Word) : (d.raise st e a b).bsr = d.bsr := by unfold DecRegs.raise; split <;> simp
@[simp] theorem DecRegs.raise_bytecnt (d : DecRegs) (st : Stage) (e : ErrorKind) (a b : Word) : (d.raise st e a b).bytecnt = d.bytecnt := by unfold DecRegs.raise; split <;> simp
@[simp] theorem DecRegs.raise_secidx (d : DecRegs) (st : Stage) (e : ErrorKind) (a b : Word) : (d.raise st e a b).secidx = d.secidx := by unfold DecRegs.raise; split <;> simp
@[simp] theorem DecRegs.raise_rsum (d : DecRegs) (st : Stage) (e : ErrorKind) (a b : Word) : (d.raise st e a b).rsum = d.rsum := by unfold DecRegs.raise; split <;> simp
@[simp] theorem DecRegs.raise_b0Ok (d : DecRegs) (st : Stage) (e : ErrorKind) (a b : Word) : (d.raise st e a b).b0Ok = d.b0Ok := by unfold DecRegs.raise; split <;> simp
@[simp] theorem DecRegs.raise_b0Act (d : DecRegs) (st : Stage) (e : ErrorKind) (a b : Word) : (d.raise st e a b).b0Act = d.b0Act := by unfold DecRegs.raise; split <;> simp
@[simp] theorem DecRegs.raise_name (d : DecRegs) (st : Stage) (e : ErrorKind) (a b : Word) : (d.raise st e a b).name = d.name := by unfold DecRegs.raise; split <;> simp
@[simp] theorem DecRegs.raise_paylen (d : DecRegs) (st : Stage) (e : ErrorKind) (a b : Word) : (d.raise st e a b).paylen = d.paylen := by unfold DecRegs.raise; split <;> simp
@[simp] theorem DecRegs.raise_dCode (d : DecRegs) (st : Stage) (e : ErrorKind) (a b : Word) : (d.raise st e a b).dCode = d.dCode := by unfold DecRegs.raise; split <;> simp
@[simp] theorem DecRegs.raise_dInfo (d : DecRegs) (st : Stage) (e : ErrorKind) (a b : Word) : (d.raise st e a b).dInfo = d.dInfo := by unfold DecRegs.raise; split <;> simp
@[simp] theorem DecRegs.raise_dInfo2 (d : DecRegs) (st : Stage) (e : ErrorKind) (a b : Word) : (d.raise st e a b).dInfo2 = d.dInfo2 := by unfold DecRegs.raise; split <;> simp

end Sys2Proof.Machine
end

