-- ==== Sys2Proof/Laws/Decoder.lean ====
section
/-! SUPPORT. What the operations of the decode path can touch, said once for each: they change decoder
registers and append to `DO`, and nothing else (20_memory R77); and what `raise` does (60_exceptions
R228). -/

namespace Sys2Proof.Machine

/-! ### `raise` -/

theorem DecRegs.raise_of_running (d : DecRegs) (st : Stage) (e : ErrorKind) (a b : Word)
    (h : d.err st = none) : d.raise st e a b = d.setErr st (some ⟨e, a, b⟩) := by
  simp [DecRegs.raise, DecRegs.halted, h]

theorem DecRegs.raise_of_halted (d : DecRegs) (st : Stage) (e : ErrorKind) (a b : Word)
    (h : d.halted st = true) : d.raise st e a b = d := by
  simp [DecRegs.raise, h]

theorem DecRegs.raise_keeps_error (d : DecRegs) (st st' : Stage) (e : ErrorKind) (a b : Word)
    (r : ErrorRecord) (h : d.err st' = some r) : (d.raise st e a b).err st' = some r := by
  by_cases hs : st' = st
  · subst hs
    rw [DecRegs.raise_of_halted _ _ _ _ _ (by simp [DecRegs.halted, h]), h]
  · unfold DecRegs.raise
    split
    · exact h
    · rw [DecRegs.setErr_err_of_ne _ _ _ _ hs, h]

/-! ### The frame of the decode path -/

theorem OnlyDecoder.refl (s : State) : OnlyDecoder s s :=
  ⟨rfl, rfl, rfl, List.prefix_refl _, rfl, rfl, rfl, rfl, rfl⟩

theorem OnlyDecoder.trans {s t u : State} (h : OnlyDecoder s t) (k : OnlyDecoder t u) :
    OnlyDecoder s u :=
  ⟨k.cfg.trans h.cfg, k.mod.trans h.mod, k.faultReg.trans h.faultReg, h.doStream.trans k.doStream,
    k.moStream.trans h.moStream, k.inputs.trans h.inputs, k.doPast.trans h.doPast,
    k.moPast.trans h.moPast, k.build.trans h.build⟩

theorem OnlyDecoder.setDec (s : State) (d : DecRegs) : OnlyDecoder s (s.setDec d) :=
  ⟨rfl, rfl, rfl, List.prefix_refl _, rfl, rfl, rfl, rfl, rfl⟩

theorem OnlyDecoder.emitDo (s : State) (t : DoToken) : OnlyDecoder s (s.emitDo t) :=
  ⟨rfl, rfl, rfl, List.prefix_append _ _, rfl, rfl, rfl, rfl, rfl⟩

theorem OnlyDecoder.thenSetDec {s t : State} (h : OnlyDecoder s t) (d : DecRegs) :
    OnlyDecoder s (t.setDec d) := h.trans (.setDec t d)

theorem OnlyDecoder.ite {s t u : State} {p : Prop} [Decidable p] (h : OnlyDecoder s t)
    (k : OnlyDecoder s u) : OnlyDecoder s (if p then t else u) := by
  split
  · exact h
  · exact k

theorem emitByte_only (s : State) (v : Byte) : OnlyDecoder s (emitByte s v) :=
  OnlyDecoder.thenSetDec
    ((OnlyDecoder.emitDo s (.ob v)).trans (.ite (.setDec _ _) (.refl _))) _

theorem push_only (s : State) (b : Bool) : OnlyDecoder s (push s b) :=
  .ite ((OnlyDecoder.setDec s _).trans (emitByte_only _ _)) (.setDec s _)

theorem acceptBit_only (s : State) (b : Bool) : OnlyDecoder s (acceptBit s b) :=
  .ite (push_only s b) (.setDec s _)

theorem unlessAsmHalted_only {s t : State} (h : OnlyDecoder s t) :
    OnlyDecoder s (unlessAsmHalted s t) := .ite (.refl s) h

theorem pulseZero_only (s : State) : OnlyDecoder s (pulseZero s) :=
  unlessAsmHalted_only (acceptBit_only s false)

theorem pulseOne_only (s : State) : OnlyDecoder s (pulseOne s) :=
  unlessAsmHalted_only (acceptBit_only s true)

theorem pulseStart_only (s : State) : OnlyDecoder s (pulseStart s) :=
  unlessAsmHalted_only (.ite (acceptBit_only s false) (.ite (.setDec s _) (.refl s)))

theorem flushTail_only (s : State) : OnlyDecoder s (flushTail s) :=
  .ite ((OnlyDecoder.setDec s _).trans (emitByte_only _ _)) (.refl s)

theorem sectionEnd_only (s : State) : OnlyDecoder s (sectionEnd s) :=
  OnlyDecoder.thenSetDec
    (((flushTail_only s).thenSetDec _).trans (.emitDo _ _)) _

theorem gend_only (s : State) : OnlyDecoder s (gend s) :=
  unlessAsmHalted_only (.ite (sectionEnd_only s) (.setDec s _))

theorem pulse_only (s : State) (k : PulseKind) : OnlyDecoder s (pulse s k) := by
  cases k
  · exact (OnlyDecoder.setDec s _).trans (pulseZero_only _)
  · exact (OnlyDecoder.setDec s _).trans (pulseOne_only _)
  · exact (OnlyDecoder.setDec s _).trans (pulseStart_only _)
  · exact (gend_only s).thenSetDec _

theorem measure_only (s : State) (d c : Word) : OnlyDecoder s (measure s d c) := by
  unfold measure
  split
  · exact .setDec s _
  · exact pulse_only s _

theorem cross_only (s : State) (c : Word) : OnlyDecoder s (cross s c) :=
  OnlyDecoder.thenSetDec (.ite (measure_only s _ c) (.refl s)) _

theorem update_only (s : State) (v i : Word) : OnlyDecoder s (update s v i) :=
  OnlyDecoder.thenSetDec (.ite (cross_only s i) (.refl s)) _

theorem inspect_only (s : State) (v i : Word) : OnlyDecoder s (inspect s v i) :=
  .ite (update_only s v i) (.refl s)

theorem acceptSample_only (s : State) (v : Word) : OnlyDecoder s (acceptSample s v) :=
  .ite (.setDec s _) (OnlyDecoder.thenSetDec (.ite (inspect_only s v _) (.refl s)) _)

theorem flushGroup_only (s : State) : OnlyDecoder s (flushGroup s) :=
  .ite ((gend_only s).thenSetDec _) (.refl s)

theorem requireHeader_only (s : State) : OnlyDecoder s (requireHeader s) :=
  .ite (.setDec s _) (.refl s)

theorem report_only (s : State) : OnlyDecoder s (report s) :=
  (OnlyDecoder.emitDo s _).thenSetDec _

theorem endDecode_only (s : State) : OnlyDecoder s (endDecode s) :=
  ((flushGroup_only s).trans (requireHeader_only _)).trans (report_only _)

/-! ### What CV's byte operation keeps -/

/-- `cv_byte` writes CV's own registers only (44_validator R202). -/
theorem cvByte_writes_cv (d : DecRegs) (v : Byte) (p : Nat) :
    ∃ rsum b0Ok b0Act name paylen, cvByte d v p =
      { d with rsum := rsum, b0Ok := b0Ok, b0Act := b0Act, name := name, paylen := paylen } := by
  unfold cvByte
  split
  · exact ⟨_, _, _, _, _, rfl⟩
  · split <;> exact ⟨_, _, _, _, _, rfl⟩

@[simp] theorem cvByte_dstate (d : DecRegs) (v : Byte) (p : Nat) : (cvByte d v p).dstate = d.dstate := by
  obtain ⟨_, _, _, _, _, h⟩ := cvByte_writes_cv d v p; rw [h]

@[simp] theorem cvByte_idx (d : DecRegs) (v : Byte) (p : Nat) : (cvByte d v p).idx = d.idx := by
  obtain ⟨_, _, _, _, _, h⟩ := cvByte_writes_cv d v p; rw [h]

@[simp] theorem cvByte_chph (d : DecRegs) (v : Byte) (p : Nat) : (cvByte d v p).chph = d.chph := by
  obtain ⟨_, _, _, _, _, h⟩ := cvByte_writes_cv d v p; rw [h]

@[simp] theorem cvByte_lastSign (d : DecRegs) (v : Byte) (p : Nat) : (cvByte d v p).lastSign = d.lastSign := by
  obtain ⟨_, _, _, _, _, h⟩ := cvByte_writes_cv d v p; rw [h]

@[simp] theorem cvByte_prevValid (d : DecRegs) (v : Byte) (p : Nat) : (cvByte d v p).prevValid = d.prevValid := by
  obtain ⟨_, _, _, _, _, h⟩ := cvByte_writes_cv d v p; rw [h]

@[simp] theorem cvByte_prevIdx (d : DecRegs) (v : Byte) (p : Nat) : (cvByte d v p).prevIdx = d.prevIdx := by
  obtain ⟨_, _, _, _, _, h⟩ := cvByte_writes_cv d v p; rw [h]

@[simp] theorem cvByte_grpOpen (d : DecRegs) (v : Byte) (p : Nat) : (cvByte d v p).grpOpen = d.grpOpen := by
  obtain ⟨_, _, _, _, _, h⟩ := cvByte_writes_cv d v p; rw [h]

@[simp] theorem cvByte_errCls (d : DecRegs) (v : Byte) (p : Nat) : (cvByte d v p).errCls = d.errCls := by
  obtain ⟨_, _, _, _, _, h⟩ := cvByte_writes_cv d v p; rw [h]

@[simp] theorem cvByte_errAsm (d : DecRegs) (v : Byte) (p : Nat) : (cvByte d v p).errAsm = d.errAsm := by
  obtain ⟨_, _, _, _, _, h⟩ := cvByte_writes_cv d v p; rw [h]

@[simp] theorem cvByte_errVal (d : DecRegs) (v : Byte) (p : Nat) : (cvByte d v p).errVal = d.errVal := by
  obtain ⟨_, _, _, _, _, h⟩ := cvByte_writes_cv d v p; rw [h]

@[simp] theorem cvByte_locked (d : DecRegs) (v : Byte) (p : Nat) : (cvByte d v p).locked = d.locked := by
  obtain ⟨_, _, _, _, _, h⟩ := cvByte_writes_cv d v p; rw [h]

@[simp] theorem cvByte_sr (d : DecRegs) (v : Byte) (p : Nat) : (cvByte d v p).sr = d.sr := by
  obtain ⟨_, _, _, _, _, h⟩ := cvByte_writes_cv d v p; rw [h]

@[simp] theorem cvByte_bitcnt (d : DecRegs) (v : Byte) (p : Nat) : (cvByte d v p).bitcnt = d.bitcnt := by
  obtain ⟨_, _, _, _, _, h⟩ := cvByte_writes_cv d v p; rw [h]

@[simp] theorem cvByte_bsr (d : DecRegs) (v : Byte) (p : Nat) : (cvByte d v p).bsr = d.bsr := by
  obtain ⟨_, _, _, _, _, h⟩ := cvByte_writes_cv d v p; rw [h]

@[simp] theorem cvByte_bytecnt (d : DecRegs) (v : Byte) (p : Nat) : (cvByte d v p).bytecnt = d.bytecnt := by
  obtain ⟨_, _, _, _, _, h⟩ := cvByte_writes_cv d v p; rw [h]

@[simp] theorem cvByte_secidx (d : DecRegs) (v : Byte) (p : Nat) : (cvByte d v p).secidx = d.secidx := by
  obtain ⟨_, _, _, _, _, h⟩ := cvByte_writes_cv d v p; rw [h]

@[simp] theorem cvByte_dCode (d : DecRegs) (v : Byte) (p : Nat) : (cvByte d v p).dCode = d.dCode := by
  obtain ⟨_, _, _, _, _, h⟩ := cvByte_writes_cv d v p; rw [h]

@[simp] theorem cvByte_dInfo (d : DecRegs) (v : Byte) (p : Nat) : (cvByte d v p).dInfo = d.dInfo := by
  obtain ⟨_, _, _, _, _, h⟩ := cvByte_writes_cv d v p; rw [h]

@[simp] theorem cvByte_dInfo2 (d : DecRegs) (v : Byte) (p : Nat) : (cvByte d v p).dInfo2 = d.dInfo2 := by
  obtain ⟨_, _, _, _, _, h⟩ := cvByte_writes_cv d v p; rw [h]

end Sys2Proof.Machine
end

