-- ==== Sys2Proof/Laws/Modulator.lean ====
section
/-! SUPPORT. What the operations of the encode path can touch, said once for each: they change modulator
registers and append to `MO`, and nothing else (20_memory R77); and what each appends. -/

namespace Sys2Proof.Machine

theorem OnlyModulator.refl (s : State) : OnlyModulator s s :=
  ⟨rfl, rfl, rfl, rfl, List.prefix_refl _, rfl, rfl, rfl, rfl⟩

theorem OnlyModulator.trans {s t u : State} (h : OnlyModulator s t) (k : OnlyModulator t u) :
    OnlyModulator s u :=
  ⟨k.cfg.trans h.cfg, k.dec.trans h.dec, k.faultReg.trans h.faultReg, k.doStream.trans h.doStream,
    h.moStream.trans k.moStream, k.inputs.trans h.inputs, k.doPast.trans h.doPast,
    k.moPast.trans h.moPast, k.build.trans h.build⟩

theorem OnlyModulator.setMod (s : State) (m : ModRegs) : OnlyModulator s (s.setMod m) :=
  ⟨rfl, rfl, rfl, rfl, List.prefix_refl _, rfl, rfl, rfl, rfl⟩

theorem OnlyModulator.emitMo (s : State) (vs : List Word) : OnlyModulator s (s.emitMo vs) :=
  ⟨rfl, rfl, rfl, rfl, List.prefix_append _ _, rfl, rfl, rfl, rfl⟩

theorem OnlyModulator.ite {s t u : State} {p : Prop} [Decidable p] (h : OnlyModulator s t)
    (k : OnlyModulator s u) : OnlyModulator s (if p then t else u) := by
  split
  · exact h
  · exact k

theorem openBurst_only (s : State) : OnlyModulator s (openBurst s) :=
  ((OnlyModulator.ite (.emitMo s _) (.refl s)).trans (.emitMo _ _)).trans (.setMod _ _)

theorem ensureBurst_only (s : State) : OnlyModulator s (ensureBurst s) :=
  .ite (.refl s) (openBurst_only s)

theorem payloadByte_only (s : State) (u : Byte) : OnlyModulator s (payloadByte s u) :=
  (ensureBurst_only s).trans (.emitMo _ _)

theorem payloadEnd_only (s : State) : OnlyModulator s (payloadEnd s) :=
  (ensureBurst_only s).trans (.setMod _ _)

/-- What opening a burst appends (43_modulator R187). -/
theorem openBurst_moStream (s : State) :
    (openBurst s).moStream =
      s.moStream ++ (if s.mod.havePrev then silence s.cfg else []) ++
        leader s.build.sine s.cfg := by
  unfold openBurst
  cases s.mod.havePrev <;> simp

theorem openBurst_mod (s : State) : (openBurst s).mod = { s.mod with inPay := true } := by
  unfold openBurst
  cases h : s.mod.havePrev <;> simp [h]

@[simp] theorem bitTone_length (sine : List SineTable) (cfg : CfgRegs) (b : Bool) :
    (bitTone sine cfg b).length = samplesPerBit cfg.rate b := by
  simp [bitTone]

@[simp] theorem silence_length (cfg : CfgRegs) : (silence cfg).length = samplesSilence cfg.rate := by
  simp [silence]

end Sys2Proof.Machine
end

