-- ==== Sys2Proof/Laws/PerInstr.lean ====
section
/-! SUPPORT. Facts about every instruction as syntax, one lemma per constructor. -/

/-- The encoding of an instruction carries its own opcode in `CW[35:32]` (30_encoding R85, R88), and a
pulse row, which has none, is a 2-bit pulse code (R95). -/
def Sys2Proof.Laws.EncodesItsOpcode.Statement (i : Sys2Proof.Instr) : Prop :=
  match Sys2Proof.encode i with
  | .command cw => i.opcode? = some (Sys2Proof.opOf cw)
  | .pulse _ => i.opcode? = none

namespace Sys2Proof

/-- The opcode field of a command word. -/
theorem opOf_cmdWord (op : BitVec 4) (arg : BitVec 32) : opOf (cmdWord op arg) = op :=
  BitVec.extractLsb'_append_eq_left

/-- The argument field of a command word. -/
theorem argOf_cmdWord (op : BitVec 4) (arg : BitVec 32) : argOf (cmdWord op arg) = arg :=
  BitVec.extractLsb'_append_eq_right

end Sys2Proof

theorem Sys2Proof.Laws.EncodesItsOpcode.nop : Statement .nop :=
  congrArg some (opOf_cmdWord _ _).symm
theorem Sys2Proof.Laws.EncodesItsOpcode.setrate (u : BitVec 32) : Statement (.setrate u) :=
  congrArg some (opOf_cmdWord _ _).symm
theorem Sys2Proof.Laws.EncodesItsOpcode.setchan (u : BitVec 16) : Statement (.setchan u) :=
  congrArg some (opOf_cmdWord _ _).symm
theorem Sys2Proof.Laws.EncodesItsOpcode.setbits (u : BitVec 6) : Statement (.setbits u) :=
  congrArg some (opOf_cmdWord _ _).symm
theorem Sys2Proof.Laws.EncodesItsOpcode.setmode (u : BitVec 2) : Statement (.setmode u) :=
  congrArg some (opOf_cmdWord _ _).symm
theorem Sys2Proof.Laws.EncodesItsOpcode.dstart : Statement .dstart :=
  congrArg some (opOf_cmdWord _ _).symm
theorem Sys2Proof.Laws.EncodesItsOpcode.sample (v : BitVec 32) : Statement (.sample v) :=
  congrArg some (opOf_cmdWord _ _).symm
theorem Sys2Proof.Laws.EncodesItsOpcode.dend : Statement .dend :=
  congrArg some (opOf_cmdWord _ _).symm
theorem Sys2Proof.Laws.EncodesItsOpcode.mstart : Statement .mstart :=
  congrArg some (opOf_cmdWord _ _).symm
theorem Sys2Proof.Laws.EncodesItsOpcode.pbyte (u : BitVec 8) : Statement (.pbyte u) :=
  congrArg some (opOf_cmdWord _ _).symm
theorem Sys2Proof.Laws.EncodesItsOpcode.pend : Statement .pend :=
  congrArg some (opOf_cmdWord _ _).symm
theorem Sys2Proof.Laws.EncodesItsOpcode.mend : Statement .mend :=
  congrArg some (opOf_cmdWord _ _).symm
theorem Sys2Proof.Laws.EncodesItsOpcode.pulseZero : Statement .pulseZero := rfl
theorem Sys2Proof.Laws.EncodesItsOpcode.pulseOne : Statement .pulseOne := rfl
theorem Sys2Proof.Laws.EncodesItsOpcode.pulseStart : Statement .pulseStart := rfl
theorem Sys2Proof.Laws.EncodesItsOpcode.pulseGap : Statement .pulseGap := rfl
end

