-- ==== Sys2Proof/Laws/Sine.lean ====
section
/-! SUPPORT. The integer arithmetic of Machine/Sine.lean computes the rounded real sine of 43_modulator R185
exactly, at every rate and depth: an enclosure narrows to one integer, because twice the scaled sine, a sum
of roots of unity, keeps a distance from every odd integer but at the tie (log 7). -/

namespace Sys2Proof.Machine

/-! ### How near to a tie the sine can come -/

section

open Complex

/-- A nonzero algebraic integer whose conjugates are at most `B` cannot be smaller than its norm allows. -/
theorem Sine.one_le_norm_mul_pow {K : Type*} [Field K] [NumberField K] (x : K) (hx : IsIntegral ℤ x)
    (h0 : x ≠ 0) (B : ℝ) (hB1 : 1 ≤ B) (hB : ∀ σ : K →ₐ[ℚ] ℂ, ‖σ x‖ ≤ B) (σ₀ : K →ₐ[ℚ] ℂ) :
    1 ≤ ‖σ₀ x‖ * B ^ Module.finrank ℚ K := by
  classical
  have hn : IsIntegral ℤ (Algebra.norm ℚ x) := Algebra.isIntegral_norm ℚ hx
  obtain ⟨z, hz⟩ := IsIntegrallyClosed.isIntegral_iff.mp hn
  have hz0 : z ≠ 0 := by
    rintro rfl
    have : Algebra.norm ℚ x = 0 := by rw [← hz]; simp
    exact h0 (Algebra.norm_eq_zero_iff.mp this)
  have hprod := Algebra.norm_eq_prod_embeddings ℚ ℂ x
  have h1 : (1 : ℝ) ≤ ‖algebraMap ℚ ℂ (Algebra.norm ℚ x)‖ := by
    rw [← hz]
    simp only [algebraMap_int_eq, eq_intCast, eq_ratCast, Rat.cast_intCast, Complex.norm_intCast]
    exact_mod_cast Int.one_le_abs hz0
  rw [hprod, norm_prod, ← Finset.mul_prod_erase _ _ (Finset.mem_univ σ₀)] at h1
  refine h1.trans (mul_le_mul_of_nonneg_left ?_ (norm_nonneg _))
  refine (Finset.prod_le_prod (fun σ _ => norm_nonneg (σ x)) (fun σ _ => hB σ)).trans ?_
  rw [Finset.prod_const]
  refine pow_le_pow_right₀ hB1 ?_
  rw [← AlgHom.card ℚ K ℂ, Finset.card_erase_of_mem (Finset.mem_univ _)]
  simp

/-- `Sine.separation`, inside the cyclotomic field of order `4 r`, where `2 sin(π k / r)` is a sum of roots of
unity. -/
theorem Sine.separation_in (r A : ℕ) (k : ℕ) (m : ℤ) (hr : 0 < r) (hk : 2 * k ≤ r)
    (hm : |(m : ℝ)| ≤ 2 * A + 1)
    [NeZero (4 * r)] (K : Type) [Field K] [NumberField K] [IsCyclotomicExtension {4 * r} ℚ K]
    (hne : 2 * A * Real.sin (Real.pi * k / r) - m ≠ 0) :
    1 ≤ |2 * A * Real.sin (Real.pi * k / r) - m| * (4 * A + 1) ^ (4 * r) := by
  have hN : 0 < 4 * r := by omega
  have hz : IsPrimitiveRoot (IsCyclotomicExtension.zeta (4 * r) ℚ K) (4 * r) :=
    IsCyclotomicExtension.zeta_spec (4 * r) ℚ K
  set z := IsCyclotomicExtension.zeta (4 * r) ℚ K with hzdef
  have hw : IsPrimitiveRoot (Complex.exp (2 * Real.pi * I / ((4 * r : ℕ) : ℂ))) (4 * r) :=
    Complex.isPrimitiveRoot_exp (4 * r) hN.ne'
  set w := Complex.exp (2 * Real.pi * I / ((4 * r : ℕ) : ℂ)) with hwdef
  have hirr : Irreducible (Polynomial.cyclotomic (4 * r) ℚ) := Polynomial.cyclotomic.irreducible_rat hN
  let σ₀ : K →ₐ[ℚ] ℂ := (hz.embeddingsEquivPrimitiveRoots ℂ hirr).symm
    ⟨w, (mem_primitiveRoots hN).mpr hw⟩
  have hσ₀ : σ₀ z = w := by
    have := hz.embeddingsEquivPrimitiveRoots_apply_coe ℂ hirr σ₀
    rw [← this]; simp [σ₀]
  let x : K := A * (z ^ (3 * r) * (z ^ (2 * k) - z ^ (4 * r - 2 * k))) - m
  have hzi : IsIntegral ℤ z := hz.isIntegral hN
  have hxi : IsIntegral ℤ x := by
    refine IsIntegral.sub (IsIntegral.mul ?_ (IsIntegral.mul (hzi.pow _) (IsIntegral.sub (hzi.pow _) (hzi.pow _)))) ?_
    · simpa using (isIntegral_algebraMap (R := ℤ) (A := K) (x := (A : ℤ)))
    · simpa using (isIntegral_algebraMap (R := ℤ) (A := K) (x := m))
  have hσx : ∀ σ : K →ₐ[ℚ] ℂ, σ x = A * (σ z ^ (3 * r) * (σ z ^ (2 * k) - σ z ^ (4 * r - 2 * k))) - m := by
    intro σ; simp [x]
  have hval : σ₀ x = ((2 * A * Real.sin (Real.pi * k / r) - m : ℝ) : ℂ) := by
    rw [hσx, hσ₀]
    have hr' : (r : ℂ) ≠ 0 := by exact_mod_cast hr.ne'
    have e1 : w ^ (3 * r) = -I := by
      rw [hwdef, ← Complex.exp_nat_mul]
      have : ((3 * r : ℕ) : ℂ) * (2 * Real.pi * I / ((4 * r : ℕ) : ℂ)) = Real.pi * I + Real.pi / 2 * I := by
        push_cast; field_simp; ring
      rw [this, Complex.exp_add, Complex.exp_pi_mul_I, Complex.exp_pi_div_two_mul_I]; ring
    have e2 : w ^ (2 * k) = Complex.exp ((Real.pi * k / r : ℝ) * I) := by
      rw [hwdef, ← Complex.exp_nat_mul]; congr 1; push_cast; field_simp; ring
    have e3 : w ^ (4 * r - 2 * k) = Complex.exp (-((Real.pi * k / r : ℝ) * I)) := by
      have : w ^ (4 * r - 2 * k) * w ^ (2 * k) = 1 := by
        rw [← pow_add, Nat.sub_add_cancel (by omega), hw.pow_eq_one]
      rw [Complex.exp_neg, ← e2]
      exact eq_inv_of_mul_eq_one_left this
    rw [e1, e2, e3]
    have := Complex.two_sin ((Real.pi * k / r : ℝ) : ℂ)
    push_cast at this ⊢
    have h2 : (2 : ℂ) * A * Complex.sin (Real.pi * k / r) = A * (2 * Complex.sin (Real.pi * k / r)) := by ring
    rw [h2, this, neg_mul]; ring_nf
  have hx0 : x ≠ 0 := by
    intro h; apply hne; rw [h, map_zero] at hval; exact_mod_cast hval.symm
  have hB : ∀ σ : K →ₐ[ℚ] ℂ, ‖σ x‖ ≤ 4 * A + 1 := by
    intro σ
    have hnz : ‖σ z‖ = 1 := by
      refine norm_eq_one_of_pow_eq_one (n := 4 * r) ?_ hN.ne'
      rw [← map_pow, hz.pow_eq_one, map_one]
    rw [hσx]
    have hm' : ‖(m : ℂ)‖ ≤ 2 * A + 1 := by simpa using hm
    calc _ ≤ ‖(A : ℂ) * (σ z ^ (3 * r) * (σ z ^ (2 * k) - σ z ^ (4 * r - 2 * k)))‖ + ‖(m : ℂ)‖ := norm_sub_le _ _
      _ ≤ A * (1 * (1 + 1)) + (2 * A + 1) := by
        refine add_le_add ?_ hm'
        rw [norm_mul, norm_mul, norm_pow, hnz, one_pow, Complex.norm_natCast]
        gcongr
        refine (norm_sub_le _ _).trans ?_
        rw [norm_pow, norm_pow, hnz, one_pow, one_pow]
      _ = _ := by ring
  have hB1 : (1 : ℝ) ≤ 4 * A + 1 := by
    have : (0 : ℝ) ≤ A := Nat.cast_nonneg A
    linarith
  have key := Sine.one_le_norm_mul_pow x hxi hx0 (4 * A + 1) hB1 hB σ₀
  rw [hval, Complex.norm_real, Real.norm_eq_abs] at key
  refine key.trans (mul_le_mul_of_nonneg_left (pow_le_pow_right₀ hB1 ?_) (abs_nonneg _))
  rw [IsCyclotomicExtension.finrank K hirr]
  exact Nat.totient_le _

/-- Twice the scaled sine keeps a distance from every integer it does not equal. -/
theorem Sine.separation (r A : ℕ) (k : ℕ) (m : ℤ) (hr : 0 < r) (hk : 2 * k ≤ r)
    (hm : |(m : ℝ)| ≤ 2 * A + 1)
    (hne : 2 * A * Real.sin (Real.pi * k / r) - m ≠ 0) :
    1 ≤ |2 * A * Real.sin (Real.pi * k / r) - m| * (4 * A + 1) ^ (4 * r) := by
  have : NeZero (4 * r) := ⟨by omega⟩
  have := CyclotomicField.isCyclotomicExtension (4 * r) ℚ
  have : @IsCyclotomicExtension {4 * r} ℚ (CyclotomicField (4 * r) ℚ) _ _ DivisionRing.toRatAlgebra := by
    have e : (DivisionRing.toRatAlgebra : Algebra ℚ (CyclotomicField (4 * r) ℚ)) =
        CyclotomicField.algebra (4 * r) ℚ := Subsingleton.elim _ _
    rw [e]; exact this
  exact Sine.separation_in r A k m hr hk hm (CyclotomicField (4 * r) ℚ) hne

end

/-- An exact tie occurs only at `sin = 1/2` (Niven), as 43_modulator R185 says. -/
theorem Sine.no_tie (r A k : ℕ) (m : ℤ) (hr : 0 < r) (hk : 2 * k ≤ r) (h6 : 6 * k ≠ r) (hm : Odd m) :
    2 * A * Real.sin (Real.pi * k / r) - m ≠ 0 := by
  intro h
  have hr' : (0 : ℝ) < r := by exact_mod_cast hr
  have hA : A ≠ 0 := by
    rintro rfl
    have : (m : ℝ) = 0 := by simpa using h
    rw [Int.cast_eq_zero.mp this] at hm
    simp at hm
  have hA' : (A : ℝ) ≠ 0 := by exact_mod_cast hA
  have hs : Real.sin (Real.pi * k / r) = m / (2 * A) := by field_simp; linarith
  have hθ : ∃ q : ℚ, Real.pi * k / r = q * Real.pi := ⟨k / r, by push_cast; ring⟩
  have hq : ∃ q : ℚ, Real.sin (Real.pi * k / r) = q := ⟨m / (2 * A), by push_cast; exact hs⟩
  have hmem := niven_sin hθ hq
  have h0 : 0 ≤ Real.pi * k / r := by positivity
  have h2 : Real.pi * k / r ≤ Real.pi / 2 := by
    rw [div_le_iff₀ hr']
    have : (2 * k : ℝ) ≤ r := by exact_mod_cast hk
    nlinarith [Real.pi_pos]
  have hpos : 0 ≤ Real.sin (Real.pi * k / r) := Real.sin_nonneg_of_nonneg_of_le_pi h0 (by linarith [Real.pi_pos])
  simp only [Set.mem_insert_iff, Set.mem_singleton_iff] at hmem
  rcases hmem with e | e | e | e | e
  · linarith
  · linarith
  · rw [e, mul_zero, zero_sub, neg_eq_zero, Int.cast_eq_zero] at h
    rw [h] at hm; simp at hm
  · have h6' : Real.sin (Real.pi * k / r) = Real.sin (Real.pi / 6) := by rw [e, Real.sin_pi_div_six]
    have := Real.injOn_sin ⟨by linarith [Real.pi_pos], h2⟩ ⟨by linarith [Real.pi_pos], by linarith [Real.pi_pos]⟩ h6'
    apply h6
    have h7 : (6 * k : ℝ) = r := by
      field_simp at this; linarith
    exact_mod_cast h7
  · rw [e] at h
    have : m = 2 * (A : ℤ) := by
      have : (m : ℝ) = 2 * A := by linarith
      exact_mod_cast this
    rw [this] at hm
    exact (Int.not_odd_iff_even.mpr (even_two_mul _)) hm

/-! ### The enclosure: π -/

/-- The partial sum of `t * arctan(1/x)` from term `j` on that `arctanInv` truncates term by term. -/
theorem Sine.arctanInv_near (t x : Nat) (n j : Nat) :
    |(Sine.arctanInv t x n j : ℝ) -
      ∑ i ∈ Finset.range n, (-1) ^ i * ((t : ℝ) / ((2 * (j + i : ℕ) + 1) * x ^ (2 * (j + i) + 1)))| ≤ n := by
  induction n generalizing j with
  | zero => simp [Sine.arctanInv]
  | succ n ih =>
    rw [Finset.sum_range_succ']
    have h1 := ih (j + 1)
    have e : ∑ i ∈ Finset.range n, (-1 : ℝ) ^ (i + 1) *
        ((t : ℝ) / ((2 * (j + (i + 1) : ℕ) + 1) * x ^ (2 * (j + (i + 1)) + 1))) =
        -∑ i ∈ Finset.range n, (-1) ^ i * ((t : ℝ) / ((2 * (j + 1 + i : ℕ) + 1) * x ^ (2 * (j + 1 + i) + 1))) := by
      rw [← Finset.sum_neg_distrib]
      refine Finset.sum_congr rfl fun i _ => ?_
      rw [show j + (i + 1) = j + 1 + i by ring]; ring
    rw [e]
    set S := ∑ i ∈ Finset.range n, (-1 : ℝ) ^ i * ((t : ℝ) / ((2 * (j + 1 + i : ℕ) + 1) * x ^ (2 * (j + 1 + i) + 1)))
    have hf := Nat.floor_div_eq_div (K := ℝ) t ((2 * j + 1) * x ^ (2 * j + 1))
    have h2 : ((t / ((2 * j + 1) * x ^ (2 * j + 1)) : ℕ) : ℝ) ≤ (t : ℝ) / ((2 * j + 1) * x ^ (2 * j + 1)) := by
      have := Nat.cast_div_le (α := ℝ) (m := t) (n := (2 * j + 1) * x ^ (2 * j + 1))
      push_cast at this; exact this
    have h3 : (t : ℝ) / ((2 * j + 1) * x ^ (2 * j + 1)) < ((t / ((2 * j + 1) * x ^ (2 * j + 1)) : ℕ) : ℝ) + 1 := by
      have := Nat.lt_floor_add_one (((t : ℕ) : ℝ) / (((2 * j + 1) * x ^ (2 * j + 1) : ℕ) : ℝ))
      rw [hf] at this; push_cast at this ⊢; exact this
    simp only [Sine.arctanInv, Int.cast_sub, Int.cast_natCast, pow_zero, one_mul, add_zero]
    rw [abs_le] at h1 ⊢
    push_cast
    constructor <;> linarith [h1.1, h1.2]

/-- `t * arctan(1/x)` from its first `n` terms: each truncation costs at most 1 and the tail at most 1. -/
theorem Sine.arctanInv_near_arctan (t x n : Nat) (hx : 2 ≤ x) (ht : t ≤ (x ^ 2) ^ n) :
    |(Sine.arctanInv t x n 0 : ℝ) - t * Real.arctan (1 / x)| ≤ n + 1 := by
  have hx' : (2 : ℝ) ≤ x := by exact_mod_cast hx
  have hx0 : (0 : ℝ) < x := by linarith
  have h1 := Sine.arctanInv_near t x n 0
  have hs := Real.hasSum_arctan (x := 1 / (x : ℝ)) (by
    rw [Real.norm_of_nonneg (by positivity), div_lt_one hx0]; linarith)
  have hr : 1 / (x : ℝ) ^ 2 < 1 := by
    rw [div_lt_one (by positivity)]; nlinarith
  have hb : ∀ m, ‖(-1 : ℝ) ^ m * (1 / (x : ℝ)) ^ (2 * m + 1) / ((2 * m + 1 : ℕ) : ℝ)‖ ≤
      1 / x * (1 / (x : ℝ) ^ 2) ^ m := by
    intro m
    rw [norm_div, norm_mul, norm_pow, norm_neg, norm_one, one_pow, one_mul, Real.norm_of_nonneg (by positivity),
      Real.norm_of_nonneg (by positivity)]
    have : (1 / (x : ℝ)) ^ (2 * m + 1) = 1 / x * (1 / (x : ℝ) ^ 2) ^ m := by
      rw [pow_succ, pow_mul, one_div_pow]; ring
    rw [this]
    refine div_le_self (by positivity) ?_
    push_cast; nlinarith [Nat.cast_nonneg (α := ℝ) m]
  have h2 := norm_sub_le_of_geometric_bound_of_hasSum hr hb hs n
  have e : ∑ i ∈ Finset.range n, (-1) ^ i * ((t : ℝ) / ((2 * (0 + i : ℕ) + 1) * x ^ (2 * (0 + i) + 1))) =
      t * ∑ m ∈ Finset.range n, (-1 : ℝ) ^ m * (1 / (x : ℝ)) ^ (2 * m + 1) / ((2 * m + 1 : ℕ) : ℝ) := by
    rw [Finset.mul_sum]
    refine Finset.sum_congr rfl fun i _ => ?_
    rw [zero_add, one_div_pow]; push_cast; field_simp
  rw [e] at h1
  set S := ∑ m ∈ Finset.range n, (-1 : ℝ) ^ m * (1 / (x : ℝ)) ^ (2 * m + 1) / ((2 * m + 1 : ℕ) : ℝ)
  have h3 : (t : ℝ) * |S - Real.arctan (1 / x)| ≤ 1 := by
    refine (mul_le_mul_of_nonneg_left h2 (by positivity)).trans ?_
    have ht' : (t : ℝ) ≤ ((x : ℝ) ^ 2) ^ n := by exact_mod_cast ht
    have h4 : (t : ℝ) * (1 / (x : ℝ) ^ 2) ^ n ≤ 1 := by
      rw [one_div_pow, mul_one_div, div_le_one (by positivity)]; exact ht'
    have h5 : 1 / (x : ℝ) ≤ 1 - 1 / (x : ℝ) ^ 2 := by
      have hy : 1 / (x : ℝ) ≤ 1 / 2 := by
        apply one_div_le_one_div_of_le <;> linarith
      have hy0 : 0 < 1 / (x : ℝ) := by positivity
      rw [← one_div_pow]; nlinarith
    have h6 : (0 : ℝ) < 1 - 1 / (x : ℝ) ^ 2 := by linarith
    rw [← mul_div_assoc, div_le_one h6]
    have h7 : (t : ℝ) * (1 / x * (1 / (x : ℝ) ^ 2) ^ n) = 1 / x * (t * (1 / (x : ℝ) ^ 2) ^ n) := by
      ac_rfl
    rw [h7]
    exact (mul_le_of_le_one_right (by positivity) h4).trans h5
  have h8 : |(t : ℝ) * S - t * Real.arctan (1 / x)| ≤ 1 := by
    rw [← mul_sub, abs_mul, abs_of_nonneg (Nat.cast_nonneg t)]; exact h3
  rw [abs_le] at h1 h8 ⊢
  constructor <;> linarith [h1.1, h1.2, h8.1, h8.2]

/-- `piTo d` is `π * 10^d` to within 5/4. -/
theorem Sine.piTo_near (d : Nat) (hd : 4 ≤ d) :
    |(Sine.piTo d : ℝ) - Real.pi * 10 ^ d| ≤ 5 / 4 := by
  have h5 := Sine.arctanInv_near_arctan (10 ^ (2 * d)) 5 (2 * d) (by norm_num)
    (Nat.pow_le_pow_left (by norm_num) _)
  have h239 := Sine.arctanInv_near_arctan (10 ^ (2 * d)) 239 (2 * d) (by norm_num)
    (Nat.pow_le_pow_left (by norm_num) _)
  have hm := Real.four_mul_arctan_inv_5_sub_arctan_inv_239
  set X : ℤ := 16 * Sine.arctanInv (10 ^ (2 * d)) 5 (2 * d) 0 - 4 * Sine.arctanInv (10 ^ (2 * d)) 239 (2 * d) 0 with hX
  have hXr : |(X : ℝ) - Real.pi * 10 ^ (2 * d)| ≤ 40 * d + 20 := by
    rw [hX]; push_cast at h5 h239 ⊢
    simp only [one_div] at h5 h239
    have : Real.pi = 16 * Real.arctan 5⁻¹ - 4 * Real.arctan 239⁻¹ := by linarith
    rw [this]
    rw [abs_le] at h5 h239 ⊢
    constructor <;> nlinarith [h5.1, h5.2, h239.1, h239.2]
  have hbig : (160 : ℝ) * d + 80 ≤ 10 ^ d := by
    have : ∀ e : ℕ, 160 * (e + 4) + 80 ≤ 10 ^ (e + 4) := by
      intro e
      induction e with
      | zero => norm_num
      | succ e ih => rw [show e + 1 + 4 = (e + 4) + 1 by ring, pow_succ]; omega
    obtain ⟨e, rfl⟩ := Nat.exists_eq_add_of_le' hd
    exact_mod_cast this e
  have hp : (0 : ℝ) < 10 ^ d := by positivity
  have hdiv : |(X : ℝ) / 10 ^ d - Real.pi * 10 ^ d| ≤ 1 / 4 := by
    have e : (X : ℝ) / 10 ^ d - Real.pi * 10 ^ d = ((X : ℝ) - Real.pi * 10 ^ (2 * d)) / 10 ^ d := by
      rw [two_mul, pow_add]; field_simp
    rw [e, abs_div, abs_of_pos hp, div_le_iff₀ hp]; linarith
  have hfl : X / ((10 ^ d : ℕ) : ℤ) = ⌊(X : ℝ) / 10 ^ d⌋ := by
    have := Int.floor_div_natCast (X : ℝ) (10 ^ d)
    rw [Int.floor_intCast] at this
    rw [← this]; push_cast; rfl
  have l1 := Int.floor_le ((X : ℝ) / 10 ^ d)
  have l2 := Int.lt_floor_add_one ((X : ℝ) / 10 ^ d)
  have hpi := Real.pi_gt_three
  have hd1 : (1 : ℝ) ≤ 10 ^ d := one_le_pow₀ (by norm_num)
  rw [abs_le] at hdiv
  have hnn : 0 ≤ ⌊(X : ℝ) / 10 ^ d⌋ := Int.floor_nonneg.mpr (by nlinarith)
  have hc : (Sine.piTo d : ℝ) = (⌊(X : ℝ) / 10 ^ d⌋ : ℝ) := by
    have : (Sine.piTo d : ℤ) = ⌊(X : ℝ) / 10 ^ d⌋ := by
      rw [Sine.piTo, ← hX, hfl, Int.toNat_of_nonneg hnn]
    exact_mod_cast this
  rw [hc, abs_le]
  constructor <;> linarith [hdiv.1, hdiv.2]

/-! ### The enclosure: the Taylor polynomial -/

/-- The value of the Horner form as a real number. -/
noncomputable def Sine.hornerVal (x2 d2 n j : Nat) : ℝ :=
  ((Sine.horner x2 d2 n j).1 : ℝ) / (Sine.horner x2 d2 n j).2

/-- For `x² ≤ 6` no subtraction of the Horner form is cut off at 0: it is the alternating sum, between 0
and 1, over a positive denominator. -/
theorem Sine.horner_spec (x2 d2 : Nat) (hd : 0 < d2) (hx : x2 ≤ 6 * d2) (n j : Nat) (hj : 0 < j) :
    0 < (Sine.horner x2 d2 n j).2 ∧ (Sine.horner x2 d2 n j).1 ≤ (Sine.horner x2 d2 n j).2 ∧
    Sine.hornerVal x2 d2 n j =
      ∑ i ∈ Finset.range (n + 1),
        (-1) ^ i * ((x2 : ℝ) / d2) ^ i * ((2 * j - 1).factorial / (2 * (j + i) - 1).factorial) := by
  induction n generalizing j with
  | zero =>
    have : ((2 * j - 1).factorial : ℝ) ≠ 0 := by exact_mod_cast (Nat.factorial_ne_zero _)
    simp [Sine.horner, Sine.hornerVal, this]
  | succ n ih =>
    obtain ⟨hp, hle, hv⟩ := ih (j + 1) (by omega)
    set h := Sine.horner x2 d2 n (j + 1) with hh
    have hE : Sine.horner x2 d2 (n + 1) j =
        ((2 * j) * (2 * j + 1) * d2 * h.2 - x2 * h.1, (2 * j) * (2 * j + 1) * d2 * h.2) := rfl
    have hq : x2 * h.1 ≤ (2 * j) * (2 * j + 1) * d2 * h.2 := by
      refine Nat.mul_le_mul ?_ hle
      refine hx.trans (Nat.mul_le_mul_right _ ?_)
      nlinarith
    have hpos : 0 < (2 * j) * (2 * j + 1) * d2 * h.2 := by positivity
    refine ⟨by rw [hE]; exact hpos, by rw [hE]; exact Nat.sub_le _ _, ?_⟩
    have hval : Sine.hornerVal x2 d2 (n + 1) j =
        1 - (x2 : ℝ) / d2 / ((2 * j) * (2 * j + 1)) * Sine.hornerVal x2 d2 n (j + 1) := by
      have hj' : (j : ℝ) ≠ 0 := by exact_mod_cast hj.ne'
      have hd' : (d2 : ℝ) ≠ 0 := by exact_mod_cast hd.ne'
      have hp' : (h.2 : ℝ) ≠ 0 := by exact_mod_cast hp.ne'
      have h21 : (2 * (j : ℝ) + 1) ≠ 0 := by positivity
      rw [Sine.hornerVal, Sine.hornerVal, ← hh, hE]
      simp only
      rw [Nat.cast_sub hq]
      push_cast
      field_simp
    rw [hval, hv, Finset.sum_range_succ' _ (n + 1), Finset.mul_sum]
    have f0 : ((2 * j - 1).factorial : ℝ) ≠ 0 := by exact_mod_cast (Nat.factorial_ne_zero _)
    have hfac : ((2 * (j + 1) - 1).factorial : ℝ) = (2 * j) * (2 * j + 1) * (2 * j - 1).factorial := by
      rw [show 2 * (j + 1) - 1 = (2 * j - 1) + 1 + 1 by omega, Nat.factorial_succ, Nat.factorial_succ]
      push_cast [show 1 ≤ 2 * j by omega]
      ring
    rw [sub_eq_add_neg, add_comm (1 : ℝ), ← Finset.sum_neg_distrib]
    congr 1
    · refine Finset.sum_congr rfl fun i _ => ?_
      rw [hfac, show j + (i + 1) = j + 1 + i by ring, pow_succ, pow_succ]
      have hj' : (j : ℝ) ≠ 0 := by exact_mod_cast hj.ne'
      have h21 : (2 * (j : ℝ) + 1) ≠ 0 := by positivity
      have hd' : (d2 : ℝ) ≠ 0 := by exact_mod_cast hd.ne'
      field_simp
    · simp [f0]

/-- The imaginary part of the exponential's partial sum is the sine's. -/
theorem Sine.im_partial_sum (x : ℝ) (n : Nat) :
    (∑ m ∈ Finset.range (2 * n + 2), ((x : ℂ) * Complex.I) ^ m / m.factorial).im =
      ∑ i ∈ Finset.range (n + 1), (-1) ^ i * x ^ (2 * i + 1) / (2 * i + 1).factorial := by
  have step : ∀ k : Nat, (((x : ℂ) * Complex.I) ^ (2 * k) / (2 * k).factorial).im = 0 ∧
      (((x : ℂ) * Complex.I) ^ (2 * k + 1) / (2 * k + 1).factorial).im =
        (-1) ^ k * x ^ (2 * k + 1) / (2 * k + 1).factorial := by
    intro k
    have e1 : ((x : ℂ) * Complex.I) ^ (2 * k) / (2 * k).factorial =
        (((-1) ^ k * x ^ (2 * k) / (2 * k).factorial : ℝ) : ℂ) := by
      rw [mul_pow, pow_mul Complex.I, Complex.I_sq]; push_cast; ring
    have e2 : ((x : ℂ) * Complex.I) ^ (2 * k + 1) / (2 * k + 1).factorial =
        (((-1) ^ k * x ^ (2 * k + 1) / (2 * k + 1).factorial : ℝ) : ℂ) * Complex.I := by
      rw [mul_pow, pow_succ Complex.I, pow_mul Complex.I, Complex.I_sq]; push_cast; ring
    rw [e1, e2]
    exact ⟨Complex.ofReal_im _, by rw [Complex.im_ofReal_mul, Complex.I_im, mul_one]⟩
  induction n with
  | zero =>
    have h0 := step 0
    simp only [mul_zero, zero_add] at h0
    rw [show 2 * 0 + 2 = 0 + 1 + 1 from rfl, Finset.sum_range_succ, Finset.sum_range_succ]
    simp
  | succ n ih =>
    rw [show 2 * (n + 1) + 2 = 2 * n + 2 + 1 + 1 by ring, Finset.sum_range_succ, Finset.sum_range_succ,
      Complex.add_im, Complex.add_im, ih, Finset.sum_range_succ _ (n + 1)]
    have := step (n + 1)
    rw [show 2 * (n + 1) = 2 * n + 2 by ring] at this ⊢
    rw [this.1, this.2, add_zero]

/-- The Taylor polynomial of degree `2 n + 1` against the sine. -/
theorem Sine.partial_sum_near (x : ℝ) (hx0 : 0 ≤ x) (hx : x ≤ 3) (n : Nat) (hn : 2 ≤ n) :
    |(∑ i ∈ Finset.range (n + 1), (-1) ^ i * x ^ (2 * i + 1) / (2 * i + 1).factorial) - Real.sin x| ≤
      x ^ (2 * n + 2) / (2 * n + 2).factorial * 2 := by
  have hnorm : ‖(x : ℂ) * Complex.I‖ = x := by
    rw [norm_mul, Complex.norm_I, mul_one, Complex.norm_real, Real.norm_of_nonneg hx0]
  have h := Complex.exp_bound' (x := (x : ℂ) * Complex.I) (n := 2 * n + 2) (by
    rw [hnorm, div_le_iff₀ (by positivity)]
    have : (2 : ℝ) ≤ n := by exact_mod_cast hn
    push_cast; linarith)
  rw [hnorm] at h
  rw [← Sine.im_partial_sum, ← Complex.exp_ofReal_mul_I_im, ← Complex.sub_im, ← abs_neg, ← Complex.neg_im, neg_sub]
  exact (Complex.abs_im_le_norm _).trans h

/-- `taylor n x d` is the sine at `x / d` to within `2 (x/d)^(2n+2) / (2n+2)!`, and not negative. -/
theorem Sine.taylor_near (n x d : Nat) (hd : 0 < d) (hn : 2 ≤ n) (hx : 5 * x ≤ 8 * d) :
    0 < (Sine.taylor n x d).2 ∧
    |((Sine.taylor n x d).1 : ℝ) / (Sine.taylor n x d).2 - Real.sin ((x : ℝ) / d)| ≤
      ((x : ℝ) / d) ^ (2 * n + 2) / (2 * n + 2).factorial * 2 := by
  have hd' : (0 : ℝ) < d := by exact_mod_cast hd
  have hx' : (x : ℝ) / d ≤ 8 / 5 := by
    rw [div_le_iff₀ hd']
    have : (5 * x : ℝ) ≤ 8 * d := by exact_mod_cast hx
    linarith
  obtain ⟨hp, -, hv⟩ := Sine.horner_spec (x * x) (d * d) (Nat.mul_pos hd hd) (by nlinarith) n 1 one_pos
  refine ⟨Nat.mul_pos hd hp, ?_⟩
  have e : ((Sine.taylor n x d).1 : ℝ) / (Sine.taylor n x d).2 =
      ∑ i ∈ Finset.range (n + 1), (-1) ^ i * ((x : ℝ) / d) ^ (2 * i + 1) / (2 * i + 1).factorial := by
    have : ((Sine.taylor n x d).1 : ℝ) / (Sine.taylor n x d).2 =
        (x : ℝ) / d * Sine.hornerVal (x * x) (d * d) n 1 := by
      rw [Sine.taylor, Sine.hornerVal]; push_cast; rw [mul_div_mul_comm]
    rw [this, hv, Finset.mul_sum]
    refine Finset.sum_congr rfl fun i _ => ?_
    have e1 : ((x * x : ℕ) : ℝ) / (d * d : ℕ) = ((x : ℝ) / d) ^ 2 := by push_cast; rw [sq, div_mul_div_comm]
    rw [e1, ← pow_mul, show 2 * (1 + i) - 1 = 2 * i + 1 by omega]
    simp only [mul_one, show 2 - 1 = 1 from rfl, Nat.factorial_one, Nat.cast_one]
    ring
  rw [e]
  exact Sine.partial_sum_near _ (by positivity) (by linarith) n hn

/-! ### The rounded sine -/

/-- `20 c` digits and `13 c` factors keep the truncation of the Taylor polynomial below an eighth of the last digit. -/
theorem Sine.truncation_small (y : ℝ) (hy0 : 0 ≤ y) (hy : y ≤ 8 / 5) (c : Nat) (hc : 0 < c) :
    y ^ (2 * (13 * c) + 2) / (2 * (13 * c) + 2).factorial * 2 ≤ 1 / (8 * 10 ^ (20 * c)) := by
  have hpos : (0 : ℝ) < ((2 * (13 * c) + 2).factorial : ℝ) := by exact_mod_cast Nat.factorial_pos _
  have hf : ∀ e : ℕ, (Nat.factorial 26) ^ e ≤ (26 * e).factorial := by
    intro e
    induction e with
    | zero => simp
    | succ e ih =>
      rw [pow_succ, Nat.mul_succ]
      exact (Nat.mul_le_mul_right _ ih).trans
        (Nat.le_of_dvd (Nat.factorial_pos _) (Nat.factorial_mul_factorial_dvd_factorial_add _ _))
  have hfac : 756 * (Nat.factorial 26) ^ c ≤ (2 * (13 * c) + 2).factorial := by
    rw [show 2 * (13 * c) + 2 = 26 * c + 1 + 1 by ring, Nat.factorial_succ (26 * c + 1),
      Nat.factorial_succ (26 * c), ← mul_assoc]
    exact Nat.mul_le_mul (by nlinarith) (hf c)
  have hfac' : (756 : ℝ) * (Nat.factorial 26 : ℝ) ^ c ≤ ((2 * (13 * c) + 2).factorial : ℝ) := by
    exact_mod_cast hfac
  have h26 : ((8 / 5 : ℝ) ^ 26 * 10 ^ 20) ≤ (Nat.factorial 26 : ℝ) := by
    norm_num [Nat.factorial]
  have hpow : y ^ (2 * (13 * c) + 2) ≤ (8 / 5) ^ 2 * ((8 / 5 : ℝ) ^ 26) ^ c := by
    rw [← pow_mul, ← pow_add]
    refine (pow_le_pow_left₀ hy0 hy _).trans (le_of_eq ?_)
    congr 1; ring
  have hmul : ((8 / 5 : ℝ) ^ 26) ^ c * 10 ^ (20 * c) ≤ (Nat.factorial 26 : ℝ) ^ c := by
    rw [pow_mul, ← mul_pow]; exact pow_le_pow_left₀ (by positivity) h26 c
  rw [div_mul_eq_mul_div, div_le_div_iff₀ hpos (by positivity)]
  have h10 : (0 : ℝ) < 10 ^ (20 * c) := by positivity
  calc y ^ (2 * (13 * c) + 2) * 2 * (8 * 10 ^ (20 * c))
      ≤ (8 / 5) ^ 2 * ((8 / 5 : ℝ) ^ 26) ^ c * 2 * (8 * 10 ^ (20 * c)) := by gcongr
    _ = (8 / 5) ^ 2 * 16 * (((8 / 5 : ℝ) ^ 26) ^ c * 10 ^ (20 * c)) := by ring
    _ ≤ (8 / 5) ^ 2 * 16 * (Nat.factorial 26 : ℝ) ^ c := by gcongr
    _ ≤ 756 * (Nat.factorial 26 : ℝ) ^ c := by gcongr; norm_num
    _ ≤ 1 * ((2 * (13 * c) + 2).factorial : ℝ) := by rw [one_mul]; exact hfac'

/-- The real value `A * sin(π k / r) + 1/2`, whose integer part is the rounded sine. -/
noncomputable def Sine.target (r a k : Nat) : ℝ := a * Real.sin (Real.pi * k / r) + 1 / 2

theorem Sine.target_nonneg (r a k : Nat) (hk : 2 * k ≤ r) : 0 ≤ Sine.target r a k := by
  have h : 0 ≤ Real.sin (Real.pi * k / r) := by
    refine Real.sin_nonneg_of_nonneg_of_le_pi (by positivity) ?_
    rw [mul_div_assoc]
    refine mul_le_of_le_one_right Real.pi_pos.le (div_le_one_of_le₀ ?_ (by positivity))
    exact_mod_cast (by omega : k ≤ r)
  unfold Sine.target; positivity

/-- The middle of the enclosure is the target to within `(3/4) a / 10^d`. -/
theorem Sine.middle_near (r a k c : Nat) (hr : 0 < r) (hk : 2 * k ≤ r) (hc : 0 < c) :
    let t := Sine.taylor (13 * c) (k * Sine.piTo (20 * c)) (10 ^ (20 * c) * r)
    0 < t.2 ∧ |(a * ((t.1 : ℝ) / t.2) + 1 / 2) - Sine.target r a k| ≤ 3 / 4 * (a / 10 ^ (20 * c)) := by
  have hr' : (0 : ℝ) < r := by exact_mod_cast hr
  have h10 : (0 : ℝ) < 10 ^ (20 * c) := by positivity
  have h1020 : (10 : ℝ) ^ 20 ≤ 10 ^ (20 * c) := pow_le_pow_right₀ (by norm_num) (by omega)
  have hpi := Sine.piTo_near (20 * c) (by omega)
  have hk' : (2 * k : ℝ) ≤ r := by exact_mod_cast hk
  have hpil : (Sine.piTo (20 * c) : ℝ) ≤ 16 / 5 * 10 ^ (20 * c) := by
    rw [abs_le] at hpi
    have := Real.pi_lt_d2
    nlinarith [hpi.2]
  have hx : 5 * (k * Sine.piTo (20 * c)) ≤ 8 * (10 ^ (20 * c) * r) := by
    have : (5 * (k * Sine.piTo (20 * c)) : ℝ) ≤ 8 * (10 ^ (20 * c) * r) := by
      have hk0 : (0 : ℝ) ≤ k := by positivity
      calc (5 * (k * Sine.piTo (20 * c)) : ℝ) ≤ 5 * (k * (16 / 5 * 10 ^ (20 * c))) := by gcongr
        _ = 8 * (10 ^ (20 * c) * (2 * k)) := by ring
        _ ≤ _ := by gcongr
    exact_mod_cast this
  obtain ⟨hp, ht⟩ := Sine.taylor_near (13 * c) (k * Sine.piTo (20 * c)) (10 ^ (20 * c) * r)
    (by positivity) (by omega) hx
  refine ⟨hp, ?_⟩
  have e : ((k * Sine.piTo (20 * c) : ℕ) : ℝ) / ((10 ^ (20 * c) * r : ℕ) : ℝ) =
      (Sine.piTo (20 * c) : ℝ) / 10 ^ (20 * c) * (k / r) := by push_cast; field_simp
  rw [e] at ht
  have hy : (Sine.piTo (20 * c) : ℝ) / 10 ^ (20 * c) * (k / r) ≤ 8 / 5 := by
    have h1 : (Sine.piTo (20 * c) : ℝ) / 10 ^ (20 * c) ≤ 16 / 5 := by rwa [div_le_iff₀ h10]
    have h2 : (k : ℝ) / r ≤ 1 / 2 := by rw [div_le_iff₀ hr']; linarith
    calc _ ≤ (16 / 5 : ℝ) * (1 / 2) := by gcongr
      _ = _ := by norm_num
  have htr := Sine.truncation_small _ (by positivity) hy c hc
  have hlip : |Real.sin ((Sine.piTo (20 * c) : ℝ) / 10 ^ (20 * c) * (k / r)) - Real.sin (Real.pi * k / r)| ≤
      5 / 8 / 10 ^ (20 * c) := by
    refine (Real.abs_sin_sub_sin_le _ _).trans ?_
    have : (Sine.piTo (20 * c) : ℝ) / 10 ^ (20 * c) * (k / r) - Real.pi * k / r =
        (Sine.piTo (20 * c) - Real.pi * 10 ^ (20 * c)) / 10 ^ (20 * c) * (k / r) := by field_simp
    rw [this, abs_mul, abs_div, abs_of_pos h10, abs_of_nonneg (by positivity : (0 : ℝ) ≤ k / r)]
    have h2 : (k : ℝ) / r ≤ 1 / 2 := by rw [div_le_iff₀ hr']; linarith
    calc _ ≤ (5 / 4 : ℝ) / 10 ^ (20 * c) * (1 / 2) := by gcongr
      _ = _ := by ring
  set t := Sine.taylor (13 * c) (k * Sine.piTo (20 * c)) (10 ^ (20 * c) * r)
  set y := (Sine.piTo (20 * c) : ℝ) / 10 ^ (20 * c) * (k / r)
  have e2 : (a * ((t.1 : ℝ) / t.2) + 1 / 2) - Sine.target r a k =
      a * (((t.1 : ℝ) / t.2 - Real.sin y) + (Real.sin y - Real.sin (Real.pi * k / r))) := by
    unfold Sine.target; ring
  rw [e2, abs_mul, abs_of_nonneg (Nat.cast_nonneg a)]
  calc (a : ℝ) * |((t.1 : ℝ) / t.2 - Real.sin y) + (Real.sin y - Real.sin (Real.pi * k / r))|
      ≤ a * (1 / (8 * 10 ^ (20 * c)) + 5 / 8 / 10 ^ (20 * c)) := by
        gcongr
        exact (abs_add_le _ _).trans (add_le_add (ht.trans htr) hlip)
    _ = 3 / 4 * (a / 10 ^ (20 * c)) := by field_simp; ring

/-- The two ends are the integer parts of two reals that enclose the target, `2 a / 10^d` apart. -/
theorem Sine.ends_spec (r a k c : Nat) (hr : 0 < r) (hk : 2 * k ≤ r) (hc : 0 < c) (ha : 2 * a ≤ 10 ^ (20 * c)) :
    ∃ lo hi : ℝ, 0 ≤ lo ∧ lo ≤ Sine.target r a k ∧ Sine.target r a k ≤ hi ∧
      hi - lo ≤ 2 * (a / 10 ^ (20 * c)) ∧
      Sine.ends r a k (20 * c) (13 * c) = (⌊lo⌋₊, ⌊hi⌋₊) := by
  obtain ⟨hp, hm⟩ := Sine.middle_near r a k c hr hk hc
  set t := Sine.taylor (13 * c) (k * Sine.piTo (20 * c)) (10 ^ (20 * c) * r) with ht
  have hp' : (0 : ℝ) < t.2 := by exact_mod_cast hp
  have h10 : (0 : ℝ) < 10 ^ (20 * c) := by positivity
  have ha' : (2 * a : ℝ) ≤ 10 ^ (20 * c) := by exact_mod_cast ha
  have hw : (a : ℝ) / 10 ^ (20 * c) ≤ 1 / 2 := by rw [div_le_iff₀ h10]; linarith
  have hw0 : 0 ≤ (a : ℝ) / 10 ^ (20 * c) := by positivity
  have hq0 : 0 ≤ (a : ℝ) * ((t.1 : ℝ) / t.2) := by positivity
  refine ⟨a * ((t.1 : ℝ) / t.2) + 1 / 2 - a / 10 ^ (20 * c), a * ((t.1 : ℝ) / t.2) + 1 / 2 + a / 10 ^ (20 * c),
    by linarith, ?_, ?_, by linarith, ?_⟩
  · rw [abs_le] at hm; linarith [hm.1, hm.2]
  · rw [abs_le] at hm; linarith [hm.1, hm.2]
  · have hsub : 2 * a * t.2 ≤ 2 * a * t.1 * 10 ^ (20 * c) + t.2 * 10 ^ (20 * c) := by
      calc 2 * a * t.2 ≤ 10 ^ (20 * c) * t.2 := Nat.mul_le_mul_right _ ha
        _ = t.2 * 10 ^ (20 * c) := Nat.mul_comm _ _
        _ ≤ _ := Nat.le_add_left _ _
    have e : Sine.ends r a k (20 * c) (13 * c) =
        ((2 * a * t.1 * 10 ^ (20 * c) + t.2 * 10 ^ (20 * c) - 2 * a * t.2) / (2 * t.2 * 10 ^ (20 * c)),
         (2 * a * t.1 * 10 ^ (20 * c) + t.2 * 10 ^ (20 * c) + 2 * a * t.2) / (2 * t.2 * 10 ^ (20 * c))) := rfl
    rw [e, ← Nat.floor_div_eq_div (K := ℝ), ← Nat.floor_div_eq_div (K := ℝ), Nat.cast_sub hsub]
    push_cast
    congr 2 <;> (field_simp)

/-- Where the two ends agree they are the rounded sine. -/
theorem Sine.ends_agree (r a k c : Nat) (hr : 0 < r) (hk : 2 * k ≤ r) (hc : 0 < c) (ha : 2 * a ≤ 10 ^ (20 * c))
    (h : (Sine.ends r a k (20 * c) (13 * c)).1 = (Sine.ends r a k (20 * c) (13 * c)).2) :
    (Sine.ends r a k (20 * c) (13 * c)).1 = ⌊Sine.target r a k⌋₊ := by
  obtain ⟨lo, hi, -, hl, hh, -, he⟩ := Sine.ends_spec r a k c hr hk hc ha
  rw [he] at h ⊢
  exact le_antisymm (Nat.floor_mono hl) ((Nat.floor_mono hh).trans_eq h.symm)

/-- With more than `40 r + 10` digits the two ends agree, but at the exact tie. -/
theorem Sine.ends_agree_of_digits (r a k c : Nat) (hr : 0 < r) (hk : 2 * k ≤ r) (h6 : 6 * k ≠ r) (hc : 0 < c)
    (ha : a < 2 ^ 31) (hd : 40 * r + 10 < 20 * c) :
    (Sine.ends r a k (20 * c) (13 * c)).1 = (Sine.ends r a k (20 * c) (13 * c)).2 := by
  have h2a : 2 * a ≤ 10 ^ (20 * c) :=
    (by omega : 2 * a ≤ 10 ^ 10).trans (Nat.pow_le_pow_right (by norm_num) (by omega))
  obtain ⟨lo, hi, hlo0, hl, hh, hw, he⟩ := Sine.ends_spec r a k c hr hk hc h2a
  rw [he]
  by_contra hne
  have h10 : (0 : ℝ) < 10 ^ (20 * c) := by positivity
  have hlt : ⌊lo⌋₊ < ⌊hi⌋₊ := lt_of_le_of_ne (Nat.floor_mono (hl.trans hh)) hne
  set m := ⌊hi⌋₊ with hm
  have hmhi : (m : ℝ) ≤ hi := Nat.floor_le (hlo0.trans (hl.trans hh))
  have hlom : lo < m := (Nat.floor_lt hlo0).mp hlt
  have hs1 := Real.sin_le_one (Real.pi * k / r)
  have ha31 : (2 * a : ℝ) ≤ 10 ^ (20 * c) := by exact_mod_cast h2a
  have hwid : 2 * ((a : ℝ) / 10 ^ (20 * c)) ≤ 1 := by
    rw [← mul_div_assoc, div_le_one h10]; exact ha31
  have htar : Sine.target r a k ≤ a + 1 / 2 := by
    unfold Sine.target
    have : (a : ℝ) * Real.sin (Real.pi * k / r) ≤ a := mul_le_of_le_one_right (Nat.cast_nonneg a) hs1
    linarith
  have hm0 : 1 ≤ m := by omega
  have hm0' : (1 : ℝ) ≤ m := by exact_mod_cast hm0
  have hma : m ≤ a + 1 := by
    have : (m : ℝ) < a + 2 := by linarith
    have : m < a + 2 := by exact_mod_cast this
    omega
  have hma' : (m : ℝ) ≤ a + 1 := by exact_mod_cast hma
  have hne0 := Sine.no_tie r a k (2 * m - 1) hr hk h6 ⟨m - 1, by ring⟩
  have hbound : |(((2 * m - 1 : ℤ)) : ℝ)| ≤ 2 * a + 1 := by
    push_cast; rw [abs_le]; constructor <;> linarith
  have hsep := Sine.separation r a k (2 * m - 1) hr hk hbound hne0
  have hclose : |2 * a * Real.sin (Real.pi * k / r) - ((2 * m - 1 : ℤ) : ℝ)| ≤ 4 * (a / 10 ^ (20 * c)) := by
    have : 2 * a * Real.sin (Real.pi * k / r) - ((2 * m - 1 : ℤ) : ℝ) = 2 * (Sine.target r a k - m) := by
      unfold Sine.target; push_cast; ring
    rw [this, abs_le]; constructor <;> linarith
  have hbase : (4 * a + 1 : ℝ) ≤ 10 ^ 10 := by
    have : 4 * a + 1 ≤ 10 ^ 10 := by omega
    exact_mod_cast this
  have h1 : (1 : ℝ) ≤ 4 * (a / 10 ^ (20 * c)) * (10 ^ 10) ^ (4 * r) :=
    hsep.trans (mul_le_mul hclose (pow_le_pow_left₀ (by positivity) hbase _) (by positivity) (by positivity))
  have h2 : (10 : ℝ) ^ (20 * c) ≤ 10 ^ (40 * r + 10) := by
    have e : 4 * ((a : ℝ) / 10 ^ (20 * c)) * (10 ^ 10) ^ (4 * r) = 4 * a * 10 ^ (40 * r) / 10 ^ (20 * c) := by
      rw [← pow_mul, show 10 * (4 * r) = 40 * r by ring]; ring
    rw [e, le_div_iff₀ h10, one_mul] at h1
    refine h1.trans ?_
    rw [pow_add, mul_comm ((10 : ℝ) ^ (40 * r))]
    gcongr; linarith
  have h3 : 20 * c ≤ 40 * r + 10 := (pow_le_pow_iff_right₀ (by norm_num : (1 : ℝ) < 10)).mp h2
  omega

/-- The doublings of `nearest` end at the rounded sine. -/
theorem Sine.nearest_eq_floor (r a k : Nat) (hr : 0 < r) (hk : 2 * k ≤ r) (h6 : 6 * k ≠ r)
    (ha : a < 2 ^ 31) (levels c : Nat) (hc : 0 < c) (hd : 40 * r + 10 < 20 * (c * 2 ^ levels)) :
    Sine.nearest r a k levels (20 * c) (13 * c) = ⌊Sine.target r a k⌋₊ := by
  have h2a : ∀ c : Nat, 0 < c → 2 * a ≤ 10 ^ (20 * c) := fun c hc =>
    (by omega : 2 * a ≤ 10 ^ 10).trans (Nat.pow_le_pow_right (by norm_num) (by omega))
  induction levels generalizing c with
  | zero =>
    rw [pow_zero, mul_one] at hd
    exact Sine.ends_agree r a k c hr hk hc (h2a c hc) (Sine.ends_agree_of_digits r a k c hr hk h6 hc ha hd)
  | succ levels ih =>
    simp only [Sine.nearest]
    split_ifs with h
    · exact Sine.ends_agree r a k c hr hk hc (h2a c hc) h
    · rw [show 2 * (20 * c) = 20 * (2 * c) by ring, show 2 * (13 * c) = 13 * (2 * c) by ring]
      exact ih (2 * c) (by omega) (by rw [pow_succ] at hd; linarith)

/-- `quarter` is the real sine times full scale, rounded to the nearest integer, a tie upwards, for every
32-bit rate and every full scale of at most 32 bits. -/
theorem Sine.quarter_eq_floor (r a k : Nat) (hr : 0 < r) (hr32 : r < 2 ^ 32) (hk : 2 * k ≤ r) (ha : a < 2 ^ 31) :
    Sine.quarter r a k = ⌊Sine.target r a k⌋₊ := by
  unfold Sine.quarter
  split_ifs with h6
  · have hr' : (r : ℝ) = 6 * k := by exact_mod_cast h6.symm
    have hk' : (k : ℝ) ≠ 0 := by
      have : k ≠ 0 := by omega
      exact_mod_cast this
    have : Sine.target r a k = ((a + 1 : ℕ) : ℝ) / (2 : ℕ) := by
      unfold Sine.target
      rw [hr', show Real.pi * k / (6 * k) = Real.pi / 6 by field_simp, Real.sin_pi_div_six]
      push_cast; ring
    rw [this, Nat.floor_div_eq_div]
  · exact Sine.nearest_eq_floor r a k hr hk h6 ha 40 1 one_pos (by omega)

/-- `phase` reduces `n / r` turns to the first quarter-wave and a sign. -/
theorem Sine.phase_spec (r n : Nat) (hr : 0 < r) :
    2 * (Sine.phase r n).2 ≤ r ∧
    Real.sin (2 * Real.pi * n / r) =
      (if (Sine.phase r n).1 then -1 else 1) * Real.sin (Real.pi * (Sine.phase r n).2 / r) := by
  have hr' : (r : ℝ) ≠ 0 := by exact_mod_cast hr.ne'
  have hp : n % r < r := Nat.mod_lt n hr
  have hper : Real.sin (2 * Real.pi * n / r) = Real.sin (2 * Real.pi * (n % r : ℕ) / r) := by
    have e : (n : ℝ) = (n % r : ℕ) + r * (n / r : ℕ) := by exact_mod_cast (Nat.mod_add_div n r).symm
    rw [e, show 2 * Real.pi * ((n % r : ℕ) + r * (n / r : ℕ)) / r =
      2 * Real.pi * (n % r : ℕ) / r + (n / r : ℕ) * (2 * Real.pi) by field_simp,
      Real.sin_add_nat_mul_two_pi]
  have hquarter : ∀ m : Nat, 2 * m ≤ r →
      2 * (if 4 * m ≤ r then 2 * m else r - 2 * m) ≤ r ∧
      Real.sin (2 * Real.pi * m / r) =
        Real.sin (Real.pi * (if 4 * m ≤ r then 2 * m else r - 2 * m : ℕ) / r) := by
    intro m hm
    split_ifs with h4
    · exact ⟨by omega, by congr 1; push_cast; ring⟩
    · refine ⟨by omega, ?_⟩
      rw [← Real.sin_pi_sub]
      congr 1
      push_cast [hm]; field_simp
  rw [hper]
  simp only [Sine.phase]
  by_cases h2 : 2 * (n % r) ≤ r
  · have : ¬ r < 2 * (n % r) := by omega
    simp only [h2, if_true, this, decide_false, Bool.false_eq_true, if_false, one_mul]
    exact hquarter _ h2
  · have h3 : r < 2 * (n % r) := by omega
    simp only [h2, if_false, h3, decide_true, if_true]
    obtain ⟨q1, q2⟩ := hquarter (r - n % r) (by omega)
    refine ⟨q1, ?_⟩
    rw [← q2, Nat.cast_sub hp.le, show 2 * Real.pi * ((r : ℝ) - (n % r : ℕ)) / r =
      2 * Real.pi - 2 * Real.pi * (n % r : ℕ) / r by field_simp, Real.sin_two_pi_sub]
    ring

/-- `SINQ` is the sign of the half-wave and the rounded quarter-wave, never above full scale. -/
theorem Sine.sinq_eq (r a f i : Nat) (hr : 0 < r) (hr32 : r < 2 ^ 32) (ha : a < 2 ^ 31) :
    Sine.sinq r a f i =
      (if (Sine.phase r (f * i)).1 then -1 else 1) * (⌊Sine.target r a (Sine.phase r (f * i)).2⌋₊ : Int) := by
  have hk := (Sine.phase_spec r (f * i) hr).1
  set k := (Sine.phase r (f * i)).2 with hkd
  have hle : ⌊Sine.target r a k⌋₊ ≤ a := by
    have : Sine.target r a k < a + 1 := by
      unfold Sine.target
      have : (a : ℝ) * Real.sin (Real.pi * k / r) ≤ a :=
        mul_le_of_le_one_right (Nat.cast_nonneg a) (Real.sin_le_one _)
      linarith
    have := (Nat.floor_lt (Sine.target_nonneg r a k hk)).mpr (by push_cast; exact this : Sine.target r a k < ((a + 1 : ℕ) : ℝ))
    omega
  simp only [Sine.sinq, ← hkd, Sine.quarter_eq_floor r a k hr hr32 hk ha, min_eq_right hle]
  split_ifs <;> simp

/-! ### The sine as supplied -/

@[simp] theorem Sine.tableEntry_nil (cfg : CfgRegs) (b : Bool) (i : Nat) :
    Sine.tableEntry [] cfg b i = none := rfl

/-- With no table supplied `SINQ` is the exact rounded sine. -/
theorem Sine.supplied_nil (cfg : CfgRegs) (b : Bool) (i : Nat) :
    Sine.supplied [] cfg b i =
      Sine.sinq cfg.rate.toNat (maxAmplitude cfg.bits) (if b then Config.f1 else Config.f0) i := rfl

@[simp] theorem Sine.constrain_zero (a : Nat) (v : Int) : Sine.constrain a 0 v = 0 := rfl

/-- A supplied entry is used within full scale (93_implementation_defined P6). -/
theorem Sine.constrain_bounds (a i : Nat) (v : Int) :
    -(a : Int) ≤ Sine.constrain a i v ∧ Sine.constrain a i v ≤ a := by
  unfold Sine.constrain
  split <;> omega

end Sys2Proof.Machine
end

