-- ==== Sys2Proof/Laws/Step.lean ====
section
/-! SUPPORT. What a step can do, said once (20_memory R76), that every meaning answers a next state, and
sequences of instructions. -/

namespace Sys2Proof.Machine

/-! ### Meanings -/

/-- Every instruction in every state leads to a next state (93_implementation_defined section 4). -/
theorem exec_next (i : Instr) (s : State) : ∃ t, exec i s = .next t := by
  cases i <;> exact ⟨_, rfl⟩

theorem exec_sample_running (v : Word) (s : State) (h : s.dec.dstate = .run) :
    exec (.sample v) s = .next (acceptSample s v) := by
  simp [exec, execSample, State.decRun, h]

theorem exec_dend_running (s : State) (h : s.dec.dstate = .run) :
    exec .dend s = .next (endDecode s) := by
  simp [exec, execDend, State.decRun, h]

theorem exec_pbyte_running (u : Byte) (s : State) (h : s.mod.mstate = .run) :
    exec (.pbyte u) s = .next (payloadByte s u) := by
  simp [exec, execPbyte, State.modRun, h]

theorem exec_pend_running (s : State) (h : s.mod.mstate = .run) :
    exec .pend s = .next (payloadEnd s) := by
  simp [exec, execPend, State.modRun, h]

@[simp] theorem exec_pulseZero (s : State) : exec .pulseZero s = .next (pulseZero s) := rfl
@[simp] theorem exec_pulseOne (s : State) : exec .pulseOne s = .next (pulseOne s) := rfl
@[simp] theorem exec_pulseStart (s : State) : exec .pulseStart s = .next (pulseStart s) := rfl
@[simp] theorem exec_pulseGap (s : State) : exec .pulseGap s = .next (gend s) := rfl

/-! ### Sequences -/

theorem execSeq_nil (s : State) : execSeq [] s = .next s := rfl

theorem execSeq_cons (i : Instr) (is : List Instr) {s t : State} (h : exec i s = .next t) :
    execSeq (i :: is) s = execSeq is t := by
  simp [execSeq, h]

theorem execSeq_append (is js : List Instr) (s : State) :
    ∀ {t : State}, execSeq is s = .next t → execSeq (is ++ js) s = execSeq js t := by
  induction is generalizing s with
  | nil =>
    intro t h
    cases h
    rfl
  | cons i is ih =>
    intro t h
    obtain ⟨u, hu⟩ := exec_next i s
    rw [execSeq_cons _ _ hu] at h
    rw [List.cons_append, execSeq_cons _ _ hu]
    exact ih u h

theorem execSeq_next (is : List Instr) (s : State) : ∃ t, execSeq is s = .next t := by
  induction is generalizing s with
  | nil => exact ⟨s, rfl⟩
  | cons i is ih =>
    obtain ⟨u, hu⟩ := exec_next i s
    obtain ⟨t, ht⟩ := ih u
    exact ⟨t, (execSeq_cons _ _ hu).trans ht⟩

/-! ### Steps -/

theorem step_idle (s : State) (h : s.inputs = []) : step s = .next s := by
  simp [step, State.fetch, h]

theorem step_rst (s : State) (rest : List PortInput) (h : s.inputs = .rst :: rest) :
    step s = .next { s with inputs := rest }.assertReset := by
  simp [step, State.fetch, h]

/-- Everything a step can do: wait, reset, run an instruction, or refuse a word. -/
theorem step_cases {s t : State} (h : step s = .next t) :
    (s.inputs = [] ∧ t = s) ∨
    (∃ rest, s.inputs = .rst :: rest ∧ t = { s with inputs := rest }.assertReset) ∨
    (∃ w rest i, s.inputs = .code w :: rest ∧ decode w = .instr i ∧
      exec i { s with inputs := rest } = .next t) ∨
    (∃ w rest op, s.inputs = .code w :: rest ∧
      ((decode w = .reservedOpcode op ∧ t = { s with inputs := rest }.refuse .reservedOpcode op) ∨
        (decode w = .badArgument op ∧ t = { s with inputs := rest }.refuse .badArgument op))) := by
  unfold step State.fetch at h
  match hi : s.inputs with
  | [] =>
    simp only [hi] at h
    cases h
    exact .inl ⟨rfl, rfl⟩
  | .rst :: rest =>
    simp only [hi] at h
    cases h
    exact .inr (.inl ⟨rest, rfl, rfl⟩)
  | .code w :: rest =>
    simp only [hi] at h
    match hd : decode w with
    | .instr i =>
      rw [hd] at h
      exact .inr (.inr (.inl ⟨w, rest, i, rfl, hd, h⟩))
    | .reservedOpcode op =>
      rw [hd] at h
      cases h
      exact .inr (.inr (.inr ⟨w, rest, op, rfl, .inl ⟨hd, rfl⟩⟩))
    | .badArgument op =>
      rw [hd] at h
      cases h
      exact .inr (.inr (.inr ⟨w, rest, op, rfl, .inr ⟨hd, rfl⟩⟩))

end Sys2Proof.Machine
end

