-- ==== Sys2Proof/Tests/Slice0.lean ====
section
/-! SUPPORT. The model's own tests, with expected values from spec/, and for each obligation with
hypotheses a concrete input that meets them. -/

namespace Sys2Proof.Tests

open Sys2Proof.Machine

/-! ### Helpers -/

/-- The next state of an outcome, if it is one. -/
def after : Result → Option State
  | .next t => some t
  | .fault _ => none
  | .refused _ => none

/-- One instruction, one projection of the state after it. -/
def see {α : Type} (f : State → α) (i : Instr) (s : State) : Option α := (after (exec i s)).map f

/-- Several instructions, one projection of the state after them. -/
def seeSeq {α : Type} (f : State → α) (is : List Instr) (s : State) : Option α :=
  (after (execSeq is s)).map f

/-- The reset state with other decoder registers. -/
def withDec (d : DecRegs) : State := { State.reset with dec := d }

/-- The reset configuration in a decode call that has just started. -/
def running : State := withDec { DecRegs.reset with dstate := .run }

/-- A decode call whose classifier has halted. -/
def classifierHalted : State :=
  withDec { DecRegs.reset with dstate := .run, errCls := some ⟨.invalidPulseLength, 33, 83⟩ }

/-- A decode call whose assembler has halted. -/
def assemblerHalted : State :=
  withDec { DecRegs.reset with dstate := .run, errAsm := some ⟨.startSequenceNotFound, 0, 0⟩ }

/-- A decode call at the index limit. -/
def atLimit : State := withDec { DecRegs.reset with dstate := .run, idx := 0xFFFFFFFF }

/-- Locked, with `k` leftover bits. -/
def locked (k : BitVec 3) (bsr : Byte) : State :=
  withDec { DecRegs.reset with dstate := .run, locked := true, sr := 0x7F, bitcnt := k, bsr := bsr }

/-- The same machine built with narrower registers than decided. -/
def narrow (s : State) : State :=
  { s with build := { BuildParams.decided with rateW := 16, chanW := 8, bitsMax := 24, idxW := 4 } }

/-- A table of `SINQ` for 1340 Hz and 16 bits, with an entry that is too large. -/
def suppliedTable : SineTable := ⟨1340, 16, [5], [7, 40000]⟩

/-- A crossing at index 1, a negative sample at 2, and the next sample at `i`. -/
def afterCrossing (i : Word) : State :=
  withDec { DecRegs.reset with
    dstate := .run, idx := i, lastSign := .neg, prevValid := true, prevIdx := 1 }

/-- The first crossing of a call is about to happen. -/
def beforeFirstCrossing : State :=
  withDec { DecRegs.reset with dstate := .run, idx := 1, lastSign := .neg }

/-- An encode call that has just started. -/
def encoding : State := { State.reset with mod := { ModRegs.reset with mstate := .run } }

/-- A text-mode section end: the header of 44_validator R220 with checksum byte sum `sum`. -/
def headerEnd (mode : BitVec 2) (n : Word) (ok : Bool) (sum : Byte) : State :=
  { State.reset with
    cfg := { CfgRegs.reset with mode := mode }
    dec := { DecRegs.reset with
      dstate := .run, locked := true, sr := 0x7F, bytecnt := n, rsum := sum, b0Ok := ok
      b0Act := if ok then 0x9C else 0xD0
      name := #v[0x54, 0x45, 0x53, 0x54, 0x20, 0x20] } }

/-- A text-mode section end: the data record of 44_validator R221. -/
def recordEnd (n : Word) (ok : Bool) (sum : Byte) (paylen : BitVec 9) : State :=
  { State.reset with
    cfg := { CfgRegs.reset with mode := 0b01 }
    dec := { DecRegs.reset with
      dstate := .run, locked := true, sr := 0x7F, secidx := 1, bytecnt := n, rsum := sum, b0Ok := ok
      b0Act := if ok then 0x8D else 0x8C, paylen := paylen } }

/-- The presented words, from the reset state. -/
def presented (ws : List CodeWord) : State := { State.reset with inputs := ws.map .code }

/-- The `OS` token and validator error of a section end. -/
def sectionReport (s : State) : List DoToken × Option ErrorRecord := (s.doStream, s.dec.errVal)

/-! ### Ill-formed instructions are refused -/

theorem test_illFormed_setrate : Instr.wellFormed (.setrate 0) = false := by decide
theorem test_illFormed_setchan : Instr.wellFormed (.setchan 0) = false := by decide
theorem test_illFormed_setbits_zero : Instr.wellFormed (.setbits 0) = false := by decide
theorem test_illFormed_setbits_33 : Instr.wellFormed (.setbits 33) = false := by decide
theorem test_wellFormed_setbits_32 : Instr.wellFormed (.setbits 32) = true := by decide

/-! ### Decoding words written out from 30_encoding R87, R88, R95 -/

/-- OP 0000, 32 ignored bits. -/
theorem test_decode_nop :
    decode (.command 0b0000_11011110101011011011111011101111#36) = .instr .nop := by decide
/-- OP 0001, 48000 = 0xBB80. -/
theorem test_decode_setrate :
    decode (.command 0b0001_00000000000000001011101110000000#36) = .instr (.setrate 48000) := by decide
/-- OP 0010, u in bits 15:0. -/
theorem test_decode_setchan :
    decode (.command 0b0010_00000000000000001000000000000001#36) = .instr (.setchan 0x8001) := by decide
/-- OP 0010, bit 16 is must-be-zero. -/
theorem test_decode_setchan_mbz :
    decode (.command 0b0010_00000000000000010000000000000001#36) = .badArgument 0x2 := by decide
/-- OP 0011, u in bits 5:0. -/
theorem test_decode_setbits :
    decode (.command 0b0011_00000000000000000000000000100000#36) = .instr (.setbits 32) := by decide
/-- OP 0011, bit 6 is must-be-zero. -/
theorem test_decode_setbits_mbz :
    decode (.command 0b0011_00000000000000000000000001000000#36) = .badArgument 0x3 := by decide
/-- OP 0100, u in bits 1:0. -/
theorem test_decode_setmode :
    decode (.command 0b0100_00000000000000000000000000000010#36) = .instr (.setmode 0b10) := by decide
/-- OP 0101, no argument. -/
theorem test_decode_dstart :
    decode (.command 0b0101_00000000000000000000000000000000#36) = .instr .dstart := by decide
/-- OP 0110, the argument as it stands. -/
theorem test_decode_sample :
    decode (.command 0b0110_10000000000000000000000000000001#36) =
      .instr (.sample 0x80000001) := by decide
/-- OP 0111, no argument. -/
theorem test_decode_dend :
    decode (.command 0b0111_00000000000000000000000000000000#36) = .instr .dend := by decide
/-- OP 0111, a set argument bit. -/
theorem test_decode_dend_mbz :
    decode (.command 0b0111_10000000000000000000000000000000#36) = .badArgument 0x7 := by decide
/-- OP 1000, no argument. -/
theorem test_decode_mstart :
    decode (.command 0b1000_00000000000000000000000000000000#36) = .instr .mstart := by decide
/-- OP 1001, u in bits 7:0. -/
theorem test_decode_pbyte :
    decode (.command 0b1001_00000000000000000000000011000001#36) = .instr (.pbyte 0xC1) := by decide
/-- OP 1001, bit 8 is must-be-zero. -/
theorem test_decode_pbyte_mbz :
    decode (.command 0b1001_00000000000000000000000100000000#36) = .badArgument 0x9 := by decide
/-- OP 1010, no argument. -/
theorem test_decode_pend :
    decode (.command 0b1010_00000000000000000000000000000000#36) = .instr .pend := by decide
/-- OP 1011, no argument. -/
theorem test_decode_mend :
    decode (.command 0b1011_00000000000000000000000000000000#36) = .instr .mend := by decide
/-- OP 1100, reserved. -/
theorem test_decode_reserved :
    decode (.command 0b1100_00000000000000000000000000000000#36) = .reservedOpcode 0xC := by decide
/-- The pulse codes. -/
theorem test_decode_pulses :
    [0b00#2, 0b01#2, 0b10#2, 0b11#2].map (fun pk => decode (.pulse pk)) =
      [.instr .pulseZero, .instr .pulseOne, .instr .pulseStart, .instr .pulseGap] := by decide
/-- A table row's bits, 36 and 2 of them. -/
theorem test_decodeTableWord :
    decodeTableWord 40 0x6FFFFF060 = some (.sample 0xFFFFF060) ∧
      decodeTableWord 8 0x2 = some .pulseStart ∧ decodeTableWord 8 0x4 = none := by decide

/-! ### One step per instruction -/

/-- 95_test_vectors 2.1: a reserved opcode, then a bad argument that is not recorded. -/
theorem test_refuse_reserved :
    (after (step (presented [.command 0xC00000000]))).map State.faultReg = some 0xC3 := by decide
/-- `FOP = 9`, `REASON = 2`. -/
theorem test_refuse_pbyte_mbz :
    (after (step (presented [.command 0x900000100]))).map State.faultReg = some 0x95 := by decide
/-- `SAMPLE` before `DSTART`: `FOP = 6`, `REASON = 3`. -/
theorem test_refuse_sample : see State.faultReg (.sample 1) State.reset = some 0x67 := by decide
/-- A bad value is refused before the state is tested. -/
theorem test_refuse_order : see State.faultReg (.setrate 0) running = some 0x15 := by decide
theorem test_nop : see State.dec .nop running = some running.dec := by decide
theorem test_setrate : see (·.cfg.rate) (.setrate 8000) State.reset = some 8000 := by decide
theorem test_setchan : see (·.cfg.chan) (.setchan 2) State.reset = some 2 := by decide
theorem test_setbits : see (·.cfg.bits) (.setbits 32) State.reset = some 32 := by decide
/-- 00_scope R11, 30_encoding R91: an operand that the built register cannot hold is illegal. -/
theorem test_setrate_narrow : see (fun s => (s.cfg.rate, s.faultReg)) (.setrate 65536) (narrow State.reset) =
    some (44100, 0x15) := by decide
theorem test_setbits_narrow : see (fun s => (s.cfg.bits, s.faultReg)) (.setbits 25) (narrow State.reset) =
    some (16, 0x35) := by decide
theorem test_setchan_narrow : see (·.cfg.chan) (.setchan 255) (narrow State.reset) = some 255 := by decide
theorem test_setmode : see (·.cfg.mode) (.setmode 3) State.reset = some 0b11 := by decide
theorem test_setmode_frozen : see (fun s => (s.cfg.mode, s.faultReg)) (.setmode 3) encoding =
    some (0b00, 0x47) := by decide
/-- `DSTART` clears the error of the call before. -/
theorem test_dstart : see State.dec .dstart
    (withDec { DecRegs.reset with dstate := .done, errVal := some ⟨.invalidChecksum, 0, 1⟩, idx := 7 }) =
      some { DecRegs.reset with dstate := .run } := by decide
/-- 41_demodulator R140, the example. -/
theorem test_sample : see (fun s => (s.dec.lastSign, s.dec.idx)) (.sample 0xFFFFF060) running =
    some (.neg, 1) := by decide
/-- 41_demodulator R141 with `IDX_W = 4`: the limit is 15. -/
theorem test_sample_narrow_limit : see (fun s => (s.dec.idx, s.dec.errCls)) (.sample 1)
    (narrow (withDec { DecRegs.reset with dstate := .run, idx := 15 })) =
      some (15, some ⟨.indexOverflow, 0, 0⟩) := by decide
/-- 41_demodulator R154: a One of 17 samples. -/
theorem test_sample_one : see (fun s => (s.dec.sr, s.dec.grpOpen, s.dec.prevIdx)) (.sample 4000)
    (afterCrossing 18) = some (0xFF, true, 18) := by decide
/-- 40_control R127: `DEND` after `DSTART` alone, raw mode. -/
theorem test_dend_raw : see State.doStream .dend running = some [.od none 0 0] := by decide
/-- 40_control R127: the same in text mode. -/
theorem test_dend_text : see State.doStream .dend
    { running with cfg := { CfgRegs.reset with mode := 0b01 } } =
      some [.od (some .invalidBufferLength) 0 0] := by decide
theorem test_mstart : see (fun s => (s.mod, s.moStream)) .mstart
    { State.reset with mod := ⟨.idle, true, true⟩ } = some (⟨.run, false, false⟩, []) := by decide
theorem test_mend : see State.mod .mend { State.reset with mod := ⟨.run, true, true⟩ } =
    some ⟨.idle, true, true⟩ := by decide
/-- 43_modulator R182, R184: at 1340 Hz every bit is the one sample `SINQ(f, 0) = 0`. -/
theorem test_pbyte : see (fun s => (s.mod, s.moStream)) (.pbyte 0x48)
    { State.reset with cfg := { CfgRegs.reset with rate := 1340 }, mod := ⟨.run, true, false⟩ } =
      some (⟨.run, true, false⟩, [0, 0, 0, 0, 0, 0, 0, 0]) := by decide +kernel
/-- The end of an open payload emits nothing. -/
theorem test_pend : see (fun s => (s.mod, s.moStream)) .pend
    { State.reset with mod := ⟨.run, true, false⟩ } = some (⟨.run, false, true⟩, []) := by decide
/-- 42_assembler_framer R161, the example. -/
theorem test_pulseZero : see (·.dec.sr) .pulseZero running = some 0xFE := by decide
/-- 42_assembler_framer R162, the example. -/
theorem test_pulseOne : see (fun s => (s.dec.sr, s.dec.locked)) .pulseOne
    (withDec { DecRegs.reset with sr := 0x3F }) = some (0x7F, true) := by decide
/-- The eighth bit of 0x49 (42_assembler_framer R173). -/
theorem test_pulseOne_byte : see State.doStream .pulseOne (locked 7 0x24) = some [.ob 0x49] := by
  decide
/-- 42_assembler_framer R163, the example. -/
theorem test_pulseStart : see (·.dec.errAsm) .pulseStart (locked 3 0) =
    some (some ⟨.invalidStartPulse, 0, 3⟩) := by decide
/-- 42_assembler_framer R168: a group that never locked. -/
theorem test_pulseGap_seeking : see (·.dec.errAsm) .pulseGap running =
    some (some ⟨.startSequenceNotFound, 0, 0⟩) := by decide
/-- 44_validator R220: the header is accepted with length 4. -/
theorem test_header_accepted : see sectionReport .pulseGap (headerEnd 0b01 38 true 0x00) =
    some ([.os 0 38 0 true 4], none) := by decide
/-- 44_validator R208: a machine-code and a BASIC file are no text file, expected 0x9C. -/
theorem test_header_type :
    [Config.typeCompiled, Config.typeBasic].map (fun b => see (·.dec.errVal) .pulseGap
      { headerEnd 0b01 38 false 0 with dec := { (headerEnd 0b01 38 false 0).dec with b0Act := b } }) =
      [some (some ⟨.invalidFileType, 0x9C, 0xD0⟩), some (some ⟨.invalidFileType, 0x9C, 0xD3⟩)] := by decide
/-- 44_validator R220: the flipped checksum byte, enforced and ignored. -/
theorem test_header_checksum : see sectionReport .pulseGap (headerEnd 0b01 38 true 0x01) =
    some ([.os 0 38 0 false 0], some ⟨.invalidChecksum, 0, 0x01⟩) := by decide
theorem test_header_ignore : see sectionReport .pulseGap (headerEnd 0b11 38 true 0x01) =
    some ([.os 0 38 0 true 4], none) := by decide
/-- 44_validator R221: the data record of `HELLO`. -/
theorem test_record_accepted : see sectionReport .pulseGap (recordEnd 278 true 0 5) =
    some ([.os 1 278 0 true 5], none) := by decide
/-- 44_validator R221: 277 bytes, whatever byte 0 and the sum are. -/
theorem test_record_length : see sectionReport .pulseGap (recordEnd 277 false 9 5) =
    some ([.os 1 277 0 false 0], some ⟨.invalidBufferLength, 1, 277⟩) := by decide
/-- 10_state R49: the status words after reset. -/
theorem test_status_reset :
    State.reset.statusRead 0 = 44100 ∧ State.reset.statusRead 12 = 0xFF := by decide
/-- 60_exceptions R232: the classifier outranks the validator. -/
theorem test_finalResult :
    DecRegs.finalResult { DecRegs.reset with
      errVal := some ⟨.invalidChecksum, 1, 2⟩, errCls := some ⟨.invalidPulseLength, 33, 83⟩ } =
        (some .invalidPulseLength, 33, 83) := by decide
/-- 43_modulator R185: the exact tie at rate 15840. -/
theorem test_sinq_tie : Sine.sinq 15840 32767 1320 1 = 16384 := by decide
/-- 43_modulator R186, entry 13 of the first table, the one nearest to a tie. -/
theorem test_sinq_nearest_tie : Sine.sinq 44100 32767 1320 13 = 21026 := by decide +kernel

/-- 93_implementation_defined P6: a supplied entry is used, but `SINQ(f, 0) = 0` and `|SINQ| ≤ A` hold. -/
theorem test_sinq_supplied :
    [0, 1].map (Sine.supplied [suppliedTable] { CfgRegs.reset with rate := 1340 } true) = [0, 32767] := by
  decide
/-- No entry for the rate: the exact sine (43_modulator R186, 22050 Hz and 8 bits). -/
theorem test_sinq_not_supplied :
    Sine.supplied [suppliedTable] { CfgRegs.reset with rate := 22050, bits := 8 } true 1 = 88 := by
  decide +kernel

/-! ### Inputs that meet the hypotheses of the obligations

Each theorem is named after its obligation. Where clauses meet at a boundary, both sides are shown. -/

/-- A state of a decode call in the middle of a run meets the invariant. -/
theorem inv_afterCrossing : State.Inv (afterCrossing 3) := by
  constructor <;> first
    | decide
    | (constructor <;> decide)
    | (intro st e h; cases st <;> simp [afterCrossing, withDec, DecRegs.err, DecRegs.reset] at h)

/-- Two channels, at the second sample of a frame. -/
def stereo : State :=
  { State.reset with
    cfg := { CfgRegs.reset with chan := 2 }
    dec := { DecRegs.reset with dstate := .run, idx := 5, chph := 1 } }

theorem inv_stereo : State.Inv stereo := by
  constructor <;> first
    | decide
    | (constructor <;> decide)
    | (intro st e h; cases st <;> simp [stereo, DecRegs.err, DecRegs.reset] at h)

/-- A text-mode call with a validator error. -/
def validatorHalted : State :=
  { State.reset with
    cfg := { CfgRegs.reset with mode := 0b01 }
    dec := { DecRegs.reset with dstate := .run, errVal := some ⟨.invalidChecksum, 1, 2⟩ } }

theorem inv_validatorHalted : State.Inv validatorHalted := by
  constructor <;> first
    | decide
    | (constructor <;> decide)
    | (intro st e h
       cases st <;> simp [validatorHalted, DecRegs.err, DecRegs.reset] at h
       subst h
       rfl)

theorem inspecting_afterCrossing (i : Word) (h : i.toNat < 2 ^ 32 - 1) : Inspecting (afterCrossing i) :=
  ⟨rfl, h, rfl, rfl⟩

/-- A reset presented in the middle of a call that has emitted a token. -/
def resetInput : State := { running with inputs := [.rst, .code (.command 0)], doStream := [.ob 1] }

theorem witness_DecoderFollowsOpcodeTable :
    decode (.command 0x20000FFFF) = .instr (.setchan 0xFFFF) ∧ decode (.pulse 3) = .instr .pulseGap ∧
    decode (.command 0x000000007) = .instr .nop := by decide

theorem witness_StepRunsTheDecodedInstruction :
    (presented [.command 0x500000000]).inputs = .code (.command 0x500000000) :: [] ∧
    decode (.command 0x500000000) = .instr .dstart ∧ running.inputs = [] := by decide

theorem witness_ResetEdge : resetInput.inputs = .rst :: [.code (.command 0)] := rfl

theorem witness_ResetRecallsNoToken : resetInput.inputs = .rst :: [.code (.command 0)] := rfl

theorem witness_StepKeepsTheInvariant :
    ((afterCrossing 3).Inv ∧ step (afterCrossing 3) = .next (afterCrossing 3)) ∧
    2 ^ (narrow running).build.rateW.val ≤ (65536 : BitVec 32).toNat ∧
    2 ^ (narrow running).build.chanW.val ≤ (256 : BitVec 16).toNat :=
  ⟨⟨inv_afterCrossing, rfl⟩, by decide, by decide⟩

theorem witness_CommandsAreRefusedInOrder :
    decode (.command 0xC00000000) = .reservedOpcode 0xC ∧
    decode (.command 0x400000004) = .badArgument 0x4 ∧
    (decode (.command 0x300000021) = .instr (.setbits 33) ∧
      legalOperand State.reset.build (.setbits 33) = false) ∧
    (decode (.command 0x300000020) = .instr (.setbits 32) ∧
      legalOperand State.reset.build (.setbits 32) = true ∧
      allowed (.setbits 32) running = false ∧ allowed (.setbits 32) State.reset = true) := by decide

theorem witness_FaultRegisterIsSticky :
    (∃ t, step (presented [.command 0xC00000000]) = .next t ∧
      t.faultReg ≠ (presented [.command 0xC00000000]).faultReg) ∧
    (∃ t, step { running with faultReg := 0x17, inputs := [.code (.command 0x500000000)] } = .next t) ∧
    cmdErr 0x17 = true ∧ ¬ resetNext (presented [.command 0xC00000000]) ∧ resetNext resetInput :=
  ⟨⟨_, rfl, by decide⟩, ⟨_, rfl⟩, by decide, by simp [resetNext, presented], rfl⟩

theorem witness_SetrateRule :
    running.dec.dstate = .run ∧ encoding.mod.mstate = .run ∧ (1 : BitVec 32) ≠ 0 ∧
    (State.reset.dec.dstate ≠ .run ∧ State.reset.mod.mstate ≠ .run) ∧
    (65535 : BitVec 32).toNat < 2 ^ (narrow running).build.rateW.val := by decide

theorem witness_SetchanRule :
    2 ^ 16 ≤ (0x10000 : BitVec 32).toNat ∧ (0xFFFF : BitVec 32).toNat < 2 ^ 16 ∧
    (0xFFFF : BitVec 16) ≠ 0 ∧ running.dec.dstate = .run ∧ encoding.mod.mstate = .run ∧
    (State.reset.dec.dstate ≠ .run ∧ State.reset.mod.mstate ≠ .run) ∧
    (255 : BitVec 16).toNat < 2 ^ (narrow running).build.chanW.val := by decide

theorem witness_SetchanRule_channels :
    (stereo.Inv ∧ stereo.dec.dstate = .run ∧ stereo.cfg.chan = 2) ∧
    ((afterCrossing 3).Inv ∧ (afterCrossing 3).dec.dstate = .run ∧ (afterCrossing 3).cfg.chan = 1) :=
  ⟨⟨inv_stereo, rfl, rfl⟩, ⟨inv_afterCrossing, rfl, rfl⟩⟩

theorem witness_SetbitsRule :
    2 ^ 6 ≤ (64 : BitVec 32).toNat ∧ (63 : BitVec 32).toNat < 2 ^ 6 ∧
    (State.reset.build.bitsMax.val < (33 : BitVec 6).toNat) ∧
    ((32 : BitVec 6) ≠ 0 ∧ (32 : BitVec 6).toNat ≤ State.reset.build.bitsMax.val) ∧
    ((narrow running).build.bitsMax.val < (25 : BitVec 6).toNat ∧
      (24 : BitVec 6).toNat ≤ (narrow running).build.bitsMax.val) ∧
    running.dec.dstate = .run ∧ State.reset.dec.dstate ≠ .run ∧ State.reset.mod.mstate ≠ .run ∧
    (1 : Word) ≠ 0 ∧ { CfgRegs.reset with bits := 1 }.bits = 1 := by decide

theorem witness_SetmodeRule :
    2 ^ 2 ≤ (4 : BitVec 32).toNat ∧ (3 : BitVec 32).toNat < 2 ^ 2 ∧
    running.dec.dstate = .run ∧ State.reset.dec.dstate ≠ .run ∧ State.reset.mod.mstate ≠ .run ∧
    (Instr.isConfig .dend = false ∧
      ∃ t, exec .dend { running with cfg := { CfgRegs.reset with mode := 0b10 } } = .next t) :=
  ⟨by decide, by decide, rfl, by decide, by decide, rfl, _, rfl⟩

theorem witness_DstartRule :
    (1 : BitVec 32) ≠ 0 ∧ running.dec.dstate = .run ∧ State.reset.dec.dstate ≠ .run := by decide

theorem witness_DendRule :
    (1 : BitVec 32) ≠ 0 ∧ State.reset.dec.dstate ≠ .run ∧ running.dec.dstate = .run := by decide

theorem witness_MstartRule :
    (1 : BitVec 32) ≠ 0 ∧ encoding.mod.mstate = .run ∧ State.reset.mod.mstate ≠ .run := by decide

theorem witness_MendRule :
    (1 : BitVec 32) ≠ 0 ∧ State.reset.mod.mstate ≠ .run ∧
    ({ encoding with mod := ⟨.run, true, false⟩ }.mod.mstate = .run ∧
      { encoding with mod := ⟨.run, true, false⟩ }.mod.inPay = true) := by decide

theorem witness_ConfigurationIsFrozenDuringACall :
    (running.dec.dstate = .run ∧ encoding.mod.mstate = .run ∧
      ∃ t, exec (.setrate 8000) running = .next t) ∧
    (Instr.dend ∉ [Instr.setrate 1, .sample 7] ∧
      ∃ t, execSeq [.setrate 1, .sample 7] running = .next t) ∧
    (Instr.mend ∉ [Instr.setbits 8] ∧ ∃ t, execSeq [.setbits 8] encoding = .next t) ∧
    (∃ t, exec (.setrate 8000) State.reset = .next t ∧ t.cfg.rate ≠ State.reset.cfg.rate) ∧
    (∃ t, exec (.setchan 2) State.reset = .next t ∧ t.cfg.chan ≠ State.reset.cfg.chan) ∧
    (∃ t, exec (.setbits 32) State.reset = .next t ∧ t.cfg.bits ≠ State.reset.cfg.bits) ∧
    (∃ t, exec (.setmode 3) State.reset = .next t ∧ t.cfg.mode ≠ State.reset.cfg.mode) :=
  ⟨⟨rfl, rfl, _, rfl⟩, ⟨by decide, _, rfl⟩, ⟨by decide, _, rfl⟩, ⟨_, rfl, by decide⟩,
    ⟨_, rfl, by decide⟩, ⟨_, rfl, by decide⟩, ⟨_, rfl, by decide⟩⟩

theorem witness_FullScaleAndThreshold :
    (1 ≤ (1 : BitVec 6).toNat ∧ (1 : BitVec 6).toNat ≤ 32) ∧
    (1 ≤ (32 : BitVec 6).toNat ∧ (32 : BitVec 6).toNat ≤ 32) ∧
    (maxAmplitude 29 % 10 = 5 ∧ maxAmplitude 30 % 10 ≠ 5) := by decide

/-- The next input is the word of one command. -/
def offer (s : State) (cw : CmdWord) : State := { s with inputs := [.code (.command cw)] }

theorem witness_SequencingTransitions :
    (resetNext resetInput ∧ ∃ t, step resetInput = .next t) ∧
    (nextInstr? (offer State.reset 0x500000000) = some .dstart ∧ State.reset.dec.dstate = .idle) ∧
    (nextInstr? (offer running 0x700000000) = some .dend ∧ running.dec.dstate = .run) ∧
    (nextInstr? (offer State.reset 0x800000000) = some .mstart ∧ State.reset.mod.mstate = .idle) ∧
    (nextInstr? (offer encoding 0xB00000000) = some .mend ∧ encoding.mod.mstate = .run) ∧
    (nextInstr? (offer running 0x500000000) = some .dstart ∧
      ¬ (running.dec.dstate ≠ .run) ∧ ∃ t, step (offer running 0x500000000) = .next t) :=
  ⟨⟨rfl, _, rfl⟩, by decide, by decide, by decide, by decide, by decide, by decide, _, rfl⟩

theorem witness_IdxCountsSamples :
    (nextInstr? (offer State.reset 0x500000000) = some .dstart ∧ State.reset.dec.dstate ≠ .run) ∧
    (nextInstr? (offer running 0x600000005) = some (.sample 5) ∧ running.dec.dstate = .run ∧
      running.dec.idx.toNat < 2 ^ running.build.idxW.val - 1) ∧
    (nextInstr? (offer atLimit 0x600000005) = some (.sample 5) ∧ atLimit.dec.dstate = .run ∧
      atLimit.dec.idx.toNat = 2 ^ atLimit.build.idxW.val - 1 ∧ atLimit.dec.errCls = none) ∧
    nextInstr? (offer running 0x700000000) = some .dend := by decide

theorem witness_CrossingsAreTwoFramesApart :
    (afterCrossing 3).Inv ∧ Inspecting (afterCrossing 3) ∧
    threshold (afterCrossing 3).cfg.bits < (4000 : Word).toInt.natAbs ∧ 0 < (4000 : Word).toInt ∧
    (afterCrossing 3).dec.lastSign = .neg ∧ (afterCrossing 3).dec.prevValid = true :=
  ⟨inv_afterCrossing, inspecting_afterCrossing 3 (by decide), by decide, by decide, rfl, rfl⟩

theorem witness_PathsAreIndependent :
    (∀ i ∈ [Instr.dstart, .mstart, .sample 5, .nop, .pbyte 1, .dend],
      i = .nop ∨ i.isDecode = true ∨ i.isEncode = true) ∧
    (Instr.isDecode .dstart = true ∧ allowed .dstart State.reset = true ∧
      ∃ t, exec .dstart State.reset = .next t) ∧
    (Instr.isPulse .pulseOne = true ∧ allowed .pulseOne running = true) ∧
    (Instr.isEncode .pend = true ∧ allowed .pend encoding = true ∧
      ∃ t, exec .pend encoding = .next t) :=
  ⟨by decide, ⟨rfl, rfl, _, rfl⟩, ⟨rfl, rfl⟩, ⟨rfl, rfl, _, rfl⟩⟩

theorem witness_IndexOverflowRule :
    atLimit.dec.dstate = .run ∧ atLimit.dec.idx.toNat = 2 ^ atLimit.build.idxW.val - 1 ∧
    atLimit.dec.errCls = none ∧
    { atLimit.dec with errCls := some ⟨.indexOverflow, 0, 0⟩ }.errCls.isSome = true := by decide

theorem witness_ThresholdTest :
    Inspecting running ∧ (3277 : Word).toInt.natAbs ≤ threshold running.cfg.bits ∧
    ¬ (3278 : Word).toInt.natAbs ≤ threshold running.cfg.bits :=
  ⟨⟨rfl, by decide, rfl, rfl⟩, by decide, by decide⟩

theorem witness_CrossingTest :
    (Inspecting running ∧ threshold running.cfg.bits < (BitVec.ofInt 32 (-4000)).toInt.natAbs ∧
      ¬ (0 < (BitVec.ofInt 32 (-4000)).toInt ∧ running.dec.lastSign = .neg)) ∧
    (Inspecting beforeFirstCrossing ∧ 0 < (4000 : Word).toInt ∧
      beforeFirstCrossing.dec.lastSign = .neg ∧ beforeFirstCrossing.dec.prevValid = false) ∧
    (Inspecting (afterCrossing 35) ∧ (afterCrossing 35).dec.prevValid = true ∧
      classify (afterCrossing 35).cfg.rate.toNat
        ((afterCrossing 35).dec.idx - (afterCrossing 35).dec.prevIdx).toNat = none) :=
  ⟨⟨⟨rfl, by decide, rfl, rfl⟩, by decide, by decide⟩,
    ⟨⟨rfl, by decide, rfl, rfl⟩, by decide, rfl, rfl⟩,
    ⟨inspecting_afterCrossing 35 (by decide), rfl, by decide⟩⟩

/-- The least length of each window at 44100 Hz. -/
theorem witness_CrossingSendsItsPulse :
    ([16, 36, 42, 20002].map (fun i => classify (afterCrossing i).cfg.rate.toNat
      ((afterCrossing i).dec.idx - (afterCrossing i).dec.prevIdx).toNat) =
        [some .one, some .zero, some .start, some .gap]) ∧
    Inspecting (afterCrossing 16) ∧ threshold (afterCrossing 16).cfg.bits < (4000 : Word).toInt.natAbs ∧
    0 < (4000 : Word).toInt ∧ (afterCrossing 16).dec.lastSign = .neg ∧
    (afterCrossing 16).dec.prevValid = true :=
  ⟨by decide, inspecting_afterCrossing 16 (by decide), by decide, by decide, rfl, rfl⟩

theorem witness_ClassificationWindows : 0 < 2 ∧ classify 88200 30 = some .one := by decide

theorem witness_UninspectedSamplesOnlyCount :
    State.reset.dec.dstate ≠ .run ∧
    (stereo.dec.dstate = .run ∧ stereo.dec.idx.toNat < indexLimit stereo.build ∧ stereo.dec.chph ≠ 0) ∧
    (classifierHalted.dec.dstate = .run ∧
      classifierHalted.dec.errCls = some ⟨.invalidPulseLength, 33, 83⟩ ∧
      classifierHalted.dec.idx.toNat < indexLimit classifierHalted.build) ∧
    atLimit.dec.idx.toNat = indexLimit atLimit.build := by decide

theorem witness_SeekingPulsesShiftAndLock :
    (running.dec.errAsm = none ∧ running.dec.locked = false) ∧
    (Instr.pulseOne, true) ∈
      [(Instr.pulseZero, false), (Instr.pulseOne, true), (Instr.pulseStart, false)] := by decide

theorem witness_LockedPulsesPushBits :
    ((locked 6 0).dec.errAsm = none ∧ (locked 6 0).dec.locked = true ∧ (locked 6 0).dec.bitcnt ≠ 7) ∧
    ((locked 7 0).dec.errAsm = none ∧ (locked 7 0).dec.locked = true ∧ (locked 7 0).dec.bitcnt = 7) ∧
    (Instr.pulseOne, true) ∈ [(Instr.pulseZero, false), (Instr.pulseOne, true)] := by decide

theorem witness_StartPulseRule :
    (running.dec.errAsm = none ∧ running.dec.locked = false) ∧
    ((locked 1 0).dec.locked = true ∧ (locked 1 0).dec.bitcnt ≠ 0) ∧
    ((locked 0 0).dec.locked = true ∧ (locked 0 0).dec.bitcnt = 0) := by decide

/-- The same machine built with `PadZero`. -/
def padding (s : State) : State :=
  { s with build := { BuildParams.decided with tailPolicy := .padZero } }

theorem witness_GroupEndRule :
    (running.dec.errAsm = none ∧ running.dec.locked = false) ∧
    ((locked 3 5).dec.locked = true ∧
      ¬ ((locked 3 5).cfg.mode.getLsbD 0 = true ∧ (locked 3 5).dec.errVal = none) ∧
      (locked 3 5).build.tailPolicy = .discard) ∧
    ((padding (locked 3 5)).build.tailPolicy = .padZero ∧ (padding (locked 3 5)).dec.bitcnt ≠ 0) := by
  decide

theorem witness_TextSectionEndRule :
    ((headerEnd 0b01 38 true 1).dec.errAsm = none ∧ (headerEnd 0b01 38 true 1).dec.locked = true ∧
      (headerEnd 0b01 38 true 1).cfg.mode.getLsbD 0 = true ∧
      (headerEnd 0b01 38 true 1).dec.errVal = none ∧
      (headerEnd 0b01 38 true 1).build.tailPolicy = .discard) ∧
    ((headerEnd 0b01 37 true 0).dec.bytecnt.toNat ≠ 38 ∧
      (headerEnd 0b01 38 false 0).dec.b0Ok = false ∧ (headerEnd 0b01 38 false 0).dec.secidx = 0 ∧
      (headerEnd 0b01 38 true 1).dec.rsum ≠ (headerEnd 0b01 38 true 1).build.ckTarget) ∧
    ((recordEnd 278 false 0 5).dec.bytecnt.toNat = 278 ∧ (recordEnd 278 false 0 5).dec.secidx ≠ 0 ∧
      (recordEnd 278 false 0 5).dec.b0Ok = false) := by decide

theorem witness_PadZeroCompletesTheByte :
    (padding (locked 7 5)).dec.errAsm = none ∧ (padding (locked 7 5)).dec.locked = true ∧
    (padding (locked 7 5)).build.tailPolicy = .padZero ∧ (padding (locked 7 5)).dec.bitcnt ≠ 0 := by
  decide

theorem witness_OneLockPerSection :
    (locked 7 5).dec.locked = true ∧ (∃ t, exec .pulseOne (locked 7 5) = .next t) ∧
    ¬ (Instr.pulseOne = .dstart ∧ (locked 7 5).dec.dstate ≠ .run) := ⟨rfl, ⟨_, rfl⟩, by decide⟩

theorem witness_HaltedAssemblerIgnoresTokens :
    assemblerHalted.dec.errAsm.isSome = true ∧ assemblerHalted.dec.dstate = .run ∧
    (∃ t, exec (.sample 4000) assemblerHalted = .next t) ∧
    (∃ t, exec .dend assemblerHalted = .next t) ∧
    { assemblerHalted.dec with errCls := some ⟨.indexOverflow, 0, 0⟩ }.errCls =
      some ⟨.indexOverflow, 0, 0⟩ := ⟨rfl, rfl, ⟨_, rfl⟩, ⟨_, rfl⟩, rfl⟩

theorem sectionStart_running : SectionStart running.dec := ⟨rfl, rfl, rfl, rfl, rfl, rfl⟩

/-- Seven ones after a one: no marker. -/
theorem witness_NoMarkerNoBuffer :
    SectionStart running.dec ∧ PulseKind.gap ∉ [PulseKind.one, .start, .one] ∧
    (∀ a b : List Bool, [PulseKind.one, .start, .one].map Reference.bitOf ≠
      a ++ Reference.markerBits ++ b) := by
  refine ⟨sectionStart_running, by decide, fun a b h => ?_⟩
  have hl := congrArg List.length h
  simp [Reference.markerBits] at hl
  omega

theorem witness_SectionAsClosedStatement :
    SectionStart running.dec ∧ running.cvActive = false ∧
    PulseKind.gap ∉ [PulseKind.zero, .one, .one, .one, .one, .one, .one, .one, .start, .one] :=
  ⟨sectionStart_running, rfl, by decide⟩

theorem witness_InactiveValidatorSeesNothing :
    running.cvActive = false ∧ validatorHalted.cvActive = false ∧ Instr.pulseGap ≠ .dstart ∧
    ∃ t, exec .pulseGap (locked 0 0) = .next t := ⟨rfl, rfl, by decide, _, rfl⟩

theorem witness_RecordVerdictIsReference :
    (List.replicate 38 (0x9C : Byte)).length < 2 ^ 32 ∧
    Reference.checkRecord BuildParams.decided true 0 (List.replicate 38 0x9C) = none := by decide

theorem witness_OneChangedByteFlipsTheChecksum :
    1 ≤ 17 ∧ 17 ≤ (if running.dec.secidx = 0 then 17 else 257) ∧
    17 < (List.replicate 38 (0 : Byte)).length ∧ (List.replicate 38 (0 : Byte))[17]? ≠ some 1 ∧
    checksumOk 0 (feedSection running.dec (List.replicate 38 0)).rsum = true ∧
    (Reference.relevant running.dec.secidx.toNat [0x9C, 1, 2]).Perm
      (Reference.relevant running.dec.secidx.toNat [0x9C, 2, 1]) := by decide

theorem witness_HostFileIsNameAndPayload :
    ∃ secs, Reference.parse BuildParams.decided true 0 [⟨List.replicate 38 0x9C, 0⟩] = .ok secs :=
  ⟨_, rfl⟩

theorem witness_FirstErrorIsKept :
    (∃ t, step (offer classifierHalted 0x600000FA0) = .next t) ∧
    ¬ resetNext (offer classifierHalted 0x600000FA0) ∧
    ¬ (nextInstr? (offer classifierHalted 0x600000FA0) = some .dstart ∧
      (offer classifierHalted 0x600000FA0).dec.dstate ≠ .run) ∧
    (offer classifierHalted 0x600000FA0).dec.err .classifier = some ⟨.invalidPulseLength, 33, 83⟩ :=
  ⟨⟨_, rfl⟩, by simp [resetNext, offer], by decide, rfl⟩

theorem witness_FinalResultByStage :
    classifierHalted.dec.errCls = some ⟨.invalidPulseLength, 33, 83⟩ ∧
    (assemblerHalted.dec.errCls = none ∧
      assemblerHalted.dec.errAsm = some ⟨.startSequenceNotFound, 0, 0⟩) ∧
    (validatorHalted.dec.errCls = none ∧ validatorHalted.dec.errAsm = none ∧
      validatorHalted.dec.errVal = some ⟨.invalidChecksum, 1, 2⟩) ∧
    (running.dec.errCls = none ∧ running.dec.errAsm = none ∧ running.dec.errVal = none) := by decide

theorem witness_FinalResultByStage_text :
    validatorHalted.Inv ∧ validatorHalted.dec.dstate = .run ∧
    validatorHalted.dec.errVal.isSome = true := ⟨inv_validatorHalted, rfl, rfl⟩

theorem witness_DecodeCallIsTheDocumentsPipeline :
    State.reset.dec.dstate ≠ .run ∧ State.reset.cfg.chan ≠ 0 ∧
    [(4000 : Word), BitVec.ofInt 32 (-4000), 4000].length ≤ indexLimit State.reset.build := by decide

theorem witness_EncodeCallIsModulate : State.reset.mod.mstate = .idle := rfl

theorem witness_PbyteRule :
    2 ^ 8 ≤ (256 : BitVec 32).toNat ∧ (255 : BitVec 32).toNat < 2 ^ 8 ∧
    State.reset.mod.mstate ≠ .run ∧ encoding.mod.mstate = .run ∧
    (encoding.cfg = State.reset.cfg ∧ encoding.build.sine = [] ∧
      encoding.mod = ⟨.run, false, false⟩) := by decide

theorem witness_PendRule :
    (1 : BitVec 32) ≠ 0 ∧ State.reset.mod.mstate ≠ .run ∧ encoding.mod.mstate = .run ∧
    (running.cfg = State.reset.cfg ∧ running.mod.mstate = .idle) := by decide

theorem witness_SampleCounts :
    (1 : BitVec 32) ≠ 0 ∧ samplesSilence 1 ≤ 1 ∧ samplesZero 659 = 0 ∧ samplesZero 660 = 1 ∧
    samplesOne 1339 = 0 ∧ samplesOne 1340 = 1 := by decide

theorem witness_BurstLengths : State.reset.mod.mstate = .idle ∧ [([] : List Byte)] ≠ [] := by decide

theorem witness_OutputSamplesInRange :
    encoding.cfg.bits.toNat ≤ 32 ∧ (∃ t, exec (.pbyte 1) encoding = .next t) ∧
    bitTone [] { CfgRegs.reset with rate := 1340 } true ≠ [] := ⟨by decide, ⟨_, rfl⟩, by decide⟩

/-- The tie of 43_modulator R185 among them: rate 15840, `SINQ(1320, 1)`. -/
theorem witness_SineIsNearestInteger :
    ({ CfgRegs.reset with rate := 15840 }.rate ≠ 0 ∧ CfgRegs.reset.bits.toNat ≤ 32) ∧
    Sine.supplied [] { CfgRegs.reset with rate := 15840 } false 1 = 16384 := by decide

theorem witness_QuietSignalHasNoSections :
    State.reset.dec.dstate ≠ .run ∧ [(3277 : Word), BitVec.ofInt 32 (-3277)].length ≤ indexLimit State.reset.build ∧
    ∀ v ∈ [(3277 : Word), BitVec.ofInt 32 (-3277)],
      v.toInt.natAbs ≤ threshold State.reset.cfg.bits := by
  refine ⟨by decide, by decide, fun v hv => ?_⟩
  simp only [List.mem_cons, List.not_mem_nil, or_false] at hv
  rcases hv with rfl | rfl <;> decide

theorem witness_ModulatorZeroOutsideEveryWindow :
    13860 < (13861 : BitVec 32).toNat ∧ 12540 ≤ (12540 : BitVec 32).toNat ∧
    (12600 : BitVec 32).toNat ≤ 12600 := by decide

end Sys2Proof.Tests
end

section

namespace Sys2Proof.Machine

/-- The companion of `step_idle` and `step_rst` for a word the decoder accepts. -/
theorem step_instr {s : State} {w : CodeWord} {rest : List PortInput} {i : Instr}
    (hin : s.inputs = .code w :: rest) (hdec : decode w = .instr i) :
    step s = exec i { s with inputs := rest } := by
  simp [step, State.fetch, hin, hdec]

/-- Settles O4: the head of the inputs is either a decodable word (`step_instr`) or missing
(`step_idle`). -/
theorem stepRunsTheDecodedInstruction : Obligations.StepRunsTheDecodedInstruction := by
  intro s
  exact ⟨fun _ _ _ hin hdec => step_instr hin hdec, step_idle s⟩

end Sys2Proof.Machine

end

section

namespace Sys2Proof.Machine

/-! ### What the decode path keeps

A pulse reaches BA, BF and CV (20_memory R66): of the decoder registers it writes `GRP_OPEN`, the error
registers and those of the assembler, framer and validator, but not those of `FrontRegs`. A sample writes
those of ZCD too, and still leaves the sequencing. -/

/-- The decoder registers of the sequencing, of ZCD and of the results (10_state R29 to R32, R34, R45). -/
structure FrontRegs where
  dstate : DState
  idx : BitVec 32
  chph : BitVec 16
  lastSign : LastSign
  prevValid : Bool
  prevIdx : BitVec 32
  dCode : ResultCode
  dInfo : BitVec 32
  dInfo2 : BitVec 32

/-- The front registers, as one value that a frame can keep. -/
def DecRegs.front (d : DecRegs) : FrontRegs :=
  ⟨d.dstate, d.idx, d.chph, d.lastSign, d.prevValid, d.prevIdx, d.dCode, d.dInfo, d.dInfo2⟩

/-- `DSTATE` and the result registers, which only `DSTART` and `DEND` write (10_state R34, R45). -/
def FrontRegs.sequencing (f : FrontRegs) : DState × ResultCode × BitVec 32 × BitVec 32 :=
  (f.dstate, f.dCode, f.dInfo, f.dInfo2)

/-- The part of the front registers that a sample keeps. -/
def DecRegs.sequencing (d : DecRegs) : DState × ResultCode × BitVec 32 × BitVec 32 := d.front.sequencing

/-- From `s` to `t` only decoder registers outside the projection `kept` changed and only `DO` tokens were
added; in raw mode the validator was not called (20_memory R77, 44_validator R200). -/
structure DecFrame {α : Type} (kept : DecRegs → α) (s t : State) : Prop extends OnlyDecoder s t where
  kept : kept t.dec = kept s.dec
  rawErrVal : s.cfg.text = false → t.dec.errVal = s.dec.errVal

/-- The frame of BA, BF and CV (42_assembler_framer R160 to R169). -/
abbrev PulseFrame := DecFrame DecRegs.front

/-- The frame of a sample (41_demodulator R140). -/
abbrev SampleFrame := DecFrame DecRegs.sequencing

namespace DecFrame

variable {α : Type} {kept : DecRegs → α} {s t u : State} {d : DecRegs}

theorem refl (s : State) : DecFrame kept s s := ⟨.refl s, rfl, fun _ => rfl⟩

theorem trans (h : DecFrame kept s t) (k : DecFrame kept t u) : DecFrame kept s u :=
  ⟨h.toOnlyDecoder.trans k.toOnlyDecoder, k.kept.trans h.kept,
    fun hraw => (k.rawErrVal (h.cfg ▸ hraw)).trans (h.rawErrVal hraw)⟩

theorem ite {p : Prop} [Decidable p] (h : p → DecFrame kept s t) (k : DecFrame kept s u) :
    DecFrame kept s (if p then t else u) := by
  split
  · exact h ‹_›
  · exact k

theorem emitDo (s : State) (o : DoToken) : DecFrame kept s (s.emitDo o) :=
  ⟨.emitDo s o, rfl, fun _ => rfl⟩

theorem setDec (hkept : kept d = kept s.dec) (hval : d.errVal = s.dec.errVal) :
    DecFrame kept s (s.setDec d) := ⟨.setDec s d, hkept, fun _ => hval⟩

theorem thenSetDec (h : DecFrame kept s t) (hkept : kept d = kept t.dec)
    (hval : d.errVal = t.dec.errVal) : DecFrame kept s (t.setDec d) := h.trans (.setDec hkept hval)

theorem afterSetDec (h : DecFrame kept (s.setDec d) t) (hkept : kept d = kept s.dec)
    (hval : d.errVal = s.dec.errVal) : DecFrame kept s t := trans (.setDec hkept hval) h

end DecFrame

theorem PulseFrame.sample {s t : State} (h : PulseFrame s t) : SampleFrame s t :=
  ⟨h.toOnlyDecoder, congrArg FrontRegs.sequencing h.kept, h.rawErrVal⟩

/-! ### Frames of the pulse path -/

@[simp] theorem DecRegs.raise_front (d : DecRegs) (st : Stage) (e : ErrorKind) (a b : Word) :
    (d.raise st e a b).front = d.front := by simp [DecRegs.front]

/-- An error of one stage leaves the registers of the others. -/
theorem DecRegs.raise_err_of_ne (d : DecRegs) {st st' : Stage} (e : ErrorKind) (a b : Word)
    (h : st' ≠ st) : (d.raise st e a b).err st' = d.err st' := by
  unfold DecRegs.raise
  split
  · rfl
  · exact DecRegs.setErr_err_of_ne d st st' _ h

theorem raise_frame (s : State) {st : Stage} (e : ErrorKind) (a b : Word) (h : .validator ≠ st) :
    PulseFrame s (s.setDec (s.dec.raise st e a b)) :=
  .setDec (DecRegs.raise_front _ _ _ _ _) (DecRegs.raise_err_of_ne _ e a b h)

@[simp] theorem cvByte_front (d : DecRegs) (v : Byte) (p : Nat) : (cvByte d v p).front = d.front := by
  simp [DecRegs.front]

/-- CV is active in text mode only (44_validator R200). -/
theorem text_of_cvActive {s : State} (h : s.cvActive = true) : s.cfg.text = true :=
  (Bool.and_eq_true_iff.mp h).1

theorem emitByte_frame (s : State) (v : Byte) : PulseFrame s (emitByte s v) :=
  ((DecFrame.emitDo s (.ob v)).trans
    (.ite (fun _ => .setDec (cvByte_front _ _ _) (cvByte_errVal _ _ _)) (.refl _))).thenSetDec rfl rfl

theorem push_frame (s : State) (b : Bool) : PulseFrame s (push s b) :=
  .ite (fun _ => (emitByte_frame _ _).afterSetDec rfl rfl) (.setDec rfl rfl)

/-- `seek` shifts the bit into `SR`, and locks when `SR` then holds the marker (42_assembler_framer R165). -/
theorem seek_eq (d : DecRegs) (b : Bool) :
    seek d b = if shiftIn d.sr b = Config.marker then
      { d with sr := shiftIn d.sr b, locked := true, bitcnt := 0, bsr := 0, bytecnt := 0 }
      else { d with sr := shiftIn d.sr b } := rfl

theorem seek_frame (s : State) (b : Bool) : PulseFrame s (s.setDec (seek s.dec b)) := by
  rw [seek_eq]
  split <;> exact .setDec rfl rfl

theorem acceptBit_frame (s : State) (b : Bool) : PulseFrame s (acceptBit s b) :=
  .ite (fun _ => push_frame s b) (seek_frame s b)

theorem unlessAsmHalted_frame {s t : State} (h : PulseFrame s t) : PulseFrame s (unlessAsmHalted s t) :=
  .ite (fun _ => .refl s) h

theorem pulseZero_frame (s : State) : PulseFrame s (pulseZero s) :=
  unlessAsmHalted_frame (acceptBit_frame s false)

theorem pulseOne_frame (s : State) : PulseFrame s (pulseOne s) :=
  unlessAsmHalted_frame (acceptBit_frame s true)

theorem pulseStart_frame (s : State) : PulseFrame s (pulseStart s) :=
  unlessAsmHalted_frame (.ite (fun _ => acceptBit_frame s false)
    (.ite (fun _ => raise_frame s _ _ _ (by decide)) (.refl s)))

theorem flushTail_frame (s : State) : PulseFrame s (flushTail s) :=
  .ite (fun _ => (emitByte_frame _ _).afterSetDec rfl rfl) (.refl s)

/-- The call of CV at a section end, if CV is active (42_assembler_framer R169). -/
def cvAtSectionEnd (s : State) (n : Word) : DecRegs × Bool × BitVec 9 :=
  if s.cvActive then cvSectionEnd s.cfg s.build s.dec n else (s.dec, false, 0)

/-- The registers a section end leaves (42_assembler_framer R169). -/
theorem sectionEnd_dec (s : State) :
    (sectionEnd s).dec =
      (cvAtSectionEnd (flushTail s) (flushTail s).dec.bytecnt).1.nextSection := rfl

/-- A section end takes at most an error of the validator's own. -/
theorem cvSectionEnd_regs (cfg : CfgRegs) (build : BuildParams) (d : DecRegs) (n : Word) :
    (cvSectionEnd cfg build d n).1 = d ∨
    ∃ e, cvVerdict cfg build d n = some e ∧
      (cvSectionEnd cfg build d n).1 = d.raise .validator e.kind e.info e.info2 := by
  unfold cvSectionEnd
  split
  · exact .inr ⟨_, ‹_›, rfl⟩
  · exact .inl rfl

theorem cvAtSectionEnd_frame (s : State) (n : Word) : PulseFrame s (s.setDec (cvAtSectionEnd s n).1) := by
  unfold cvAtSectionEnd
  split
  next hactive =>
    refine ⟨.setDec s _, ?_, fun hraw => ?_⟩
    · obtain h | ⟨e, -, h⟩ := cvSectionEnd_regs s.cfg s.build s.dec n <;> simp [h]
    · simp [text_of_cvActive hactive] at hraw
  next => exact .refl s

theorem sectionEnd_frame (s : State) : PulseFrame s (sectionEnd s) :=
  (((flushTail_frame s).trans (cvAtSectionEnd_frame _ _)).trans (.emitDo _ _)).thenSetDec rfl rfl

theorem gend_frame (s : State) : PulseFrame s (gend s) :=
  unlessAsmHalted_frame (.ite (fun _ => sectionEnd_frame s) (raise_frame s _ _ _ (by decide)))

theorem pulse_frame (s : State) (k : PulseKind) : PulseFrame s (pulse s k) := by
  cases k
  · exact (pulseZero_frame _).afterSetDec rfl rfl
  · exact (pulseOne_frame _).afterSetDec rfl rfl
  · exact (pulseStart_frame _).afterSetDec rfl rfl
  · exact (gend_frame s).thenSetDec rfl rfl

theorem measure_frame (s : State) (d c : Word) : PulseFrame s (measure s d c) := by
  unfold measure
  split
  · exact raise_frame s _ _ _ (by decide)
  · exact pulse_frame s _

theorem flushGroup_frame (s : State) : PulseFrame s (flushGroup s) :=
  .ite (fun _ => (gend_frame s).thenSetDec rfl rfl) (.refl s)

theorem requireHeader_frame (s : State) : PulseFrame s (requireHeader s) :=
  .ite (fun h => ⟨.setDec s _, by simp, fun hraw => by simp [hraw] at h⟩) (.refl s)

/-! ### What ZCD does with a sample -/

/-- A crossing at index `c` (41_demodulator R145). -/
def FrontRegs.cross (f : FrontRegs) (c : Word) : FrontRegs := { f with prevValid := true, prevIdx := c }

/-- The update of `PREV_IDX` and `LAST_SIGN` by a sample above the threshold (41_demodulator R143). -/
def FrontRegs.update (f : FrontRegs) (v i : Word) : FrontRegs :=
  { if isCrossing f.lastSign v then f.cross i else f with lastSign := signOf v }

theorem measureIfPrev_frame (s : State) (c : Word) :
    PulseFrame s (if s.dec.prevValid then measure s (c - s.dec.prevIdx) c else s) :=
  .ite (fun _ => measure_frame s _ c) (.refl s)

theorem cross_front (s : State) (c : Word) : (cross s c).dec.front = s.dec.front.cross c :=
  congrArg (FrontRegs.cross · c) (measureIfPrev_frame s c).kept

theorem update_front (s : State) (v i : Word) : (update s v i).dec.front = s.dec.front.update v i := by
  have hsign : (update s v i).dec.front =
      { (if isCrossing s.dec.lastSign v then cross s i else s).dec.front with lastSign := signOf v } := rfl
  rw [hsign, apply_ite State.dec, apply_ite DecRegs.front, cross_front]
  rfl

theorem inspect_front (s : State) (v i : Word) :
    (inspect s v i).dec.front =
      if aboveThreshold s.cfg.bits v then s.dec.front.update v i else s.dec.front := by
  rw [← update_front, inspect, apply_ite State.dec, apply_ite DecRegs.front]

theorem cross_frame (s : State) (c : Word) : SampleFrame s (cross s c) :=
  (measureIfPrev_frame s c).sample.thenSetDec rfl rfl

theorem update_frame (s : State) (v i : Word) : SampleFrame s (update s v i) :=
  (DecFrame.ite (fun _ => cross_frame s i) (.refl s)).thenSetDec rfl rfl

theorem inspect_frame (s : State) (v i : Word) : SampleFrame s (inspect s v i) :=
  .ite (fun _ => update_frame s v i) (.refl s)

/-- The sample inspected, if it is one that ZCD looks at (41_demodulator R140). -/
def inspectIfDue (s : State) (v : Word) : State := if inspected s.dec then inspect s v s.dec.idx else s

theorem inspectIfDue_frame (s : State) (v : Word) : SampleFrame s (inspectIfDue s v) :=
  .ite (fun _ => inspect_frame s v _) (.refl s)

theorem acceptSample_atLimit {s : State} (v : Word) (h : indexLimit s.build ≤ s.dec.idx.toNat) :
    acceptSample s v = s.setDec (s.dec.raise .classifier .indexOverflow 0 0) :=
  if_pos (decide_eq_true h)

theorem acceptSample_belowLimit {s : State} (v : Word) (h : s.dec.idx.toNat < indexLimit s.build) :
    acceptSample s v = advance (inspectIfDue s v) :=
  if_neg (by simpa [atIndexLimit] using h)

theorem acceptSample_frame (s : State) (v : Word) : SampleFrame s (acceptSample s v) := by
  obtain h | h := Nat.lt_or_ge s.dec.idx.toNat (indexLimit s.build)
  · rw [acceptSample_belowLimit v h]
    exact (inspectIfDue_frame s v).thenSetDec rfl rfl
  · rw [acceptSample_atLimit v h]
    exact (raise_frame s _ _ _ (by decide)).sample

end Sys2Proof.Machine

end

section

namespace Sys2Proof.Machine

/-! ### The back end's part of the invariant -/

/-- The part of `State.Inv` about BA, BF, CV and the error registers. -/
structure BackInv (d : DecRegs) : Prop where
  lockedMarker : d.locked = true ↔ d.sr = Config.marker
  seeking : d.locked = false → d.bitcnt = 0 ∧ d.bsr = 0 ∧ d.bytecnt = 0
  paylen : d.paylen.toNat ≤ Config.payWin
  errStage : ∀ st e, d.err st = some e → e.kind.stage = st

namespace BackInv

variable {d : DecRegs}

theorem raise (h : BackInv d) (e : ErrorKind) (a b : Word) : BackInv (d.raise e.stage e a b) := by
  refine ⟨by simpa using h.lockedMarker, by simpa using h.seeking, by simpa using h.paylen, ?_⟩
  intro st r hr
  by_cases hst : st = e.stage
  · subst hst
    cases herr : d.err e.stage with
    | none =>
      rw [DecRegs.raise_of_running _ _ _ _ _ herr, DecRegs.setErr_err_self] at hr
      cases hr
      rfl
    | some r' =>
      rw [DecRegs.raise_keeps_error _ _ _ _ _ _ r' herr] at hr
      exact h.errStage _ r (herr.trans hr)
  · rw [DecRegs.raise_err_of_ne _ _ _ _ hst] at hr
    exact h.errStage st r hr

/-- While Locked the counters and the bit register are free. -/
theorem counters (h : BackInv d) (hlocked : d.locked = true) (bitcnt : BitVec 3) (bsr : BitVec 8)
    (bytecnt : BitVec 32) : BackInv { d with bitcnt := bitcnt, bsr := bsr, bytecnt := bytecnt } :=
  ⟨h.lockedMarker, fun hseek => by simp [hlocked] at hseek, h.paylen, h.errStage⟩

theorem grpOpen (h : BackInv d) (g : Bool) : BackInv { d with grpOpen := g } :=
  ⟨h.lockedMarker, h.seeking, h.paylen, h.errStage⟩

theorem nextSection (h : BackInv d) : BackInv d.nextSection :=
  ⟨by simp [DecRegs.nextSection], fun _ => ⟨rfl, rfl, rfl⟩, h.paylen, h.errStage⟩

theorem seek (h : BackInv d) (hseek : d.locked = false) (b : Bool) : BackInv (seek d b) := by
  rw [seek_eq]
  split
  next hmarker => exact ⟨iff_of_true rfl hmarker, fun _ => ⟨rfl, rfl, rfl⟩, h.paylen, h.errStage⟩
  next hmarker => exact ⟨iff_of_false (by simp [hseek]) hmarker, h.seeking, h.paylen, h.errStage⟩

end BackInv

theorem cvByte_paylen_le {d : DecRegs} (h : d.paylen.toNat ≤ Config.payWin) (v : Byte) (p : Nat) :
    (cvByte d v p).paylen.toNat ≤ Config.payWin := by
  unfold cvByte
  split
  · exact Nat.zero_le _
  · split
    · exact h
    · unfold cvByteData
      dsimp only
      split
      next hp => exact (BitVec.toNat_ofNat ..).trans_le ((Nat.mod_le _ _).trans hp.1)
      next => exact h

theorem cvByte_err (d : DecRegs) (v : Byte) (p : Nat) (st : Stage) :
    (cvByte d v p).err st = d.err st := by cases st <;> simp [DecRegs.err]

theorem BackInv.cvByte {d : DecRegs} (h : BackInv d) (v : Byte) (p : Nat) : BackInv (cvByte d v p) :=
  ⟨by simpa using h.lockedMarker, by simpa using h.seeking, cvByte_paylen_le h.paylen v p,
    fun st e he => h.errStage st e (cvByte_err d v p st ▸ he)⟩

theorem emitByte_back {s : State} (h : BackInv s.dec) (hlocked : s.dec.locked = true) (v : Byte) :
    BackInv (emitByte s v).dec := by
  unfold emitByte
  dsimp only
  split
  · exact (h.cvByte v _).counters ((cvByte_locked ..).trans hlocked) _ _ _
  · exact h.counters hlocked _ _ _

theorem push_back {s : State} (h : BackInv s.dec) (hlocked : s.dec.locked = true) (b : Bool) :
    BackInv (push s b).dec := by
  unfold push
  dsimp only
  split
  · refine emitByte_back ?_ ?_ _
    · exact h.counters hlocked _ _ _
    · exact hlocked
  · exact h.counters hlocked _ _ _

theorem acceptBit_back {s : State} (h : BackInv s.dec) (b : Bool) : BackInv (acceptBit s b).dec := by
  unfold acceptBit
  split
  next hlocked => exact push_back h hlocked b
  next hlocked => exact h.seek (Bool.eq_false_of_not_eq_true hlocked) b

theorem unlessAsmHalted_back {s t : State} (h : BackInv s.dec) (k : BackInv t.dec) :
    BackInv (unlessAsmHalted s t).dec := by
  unfold unlessAsmHalted
  split
  · exact h
  · exact k

theorem pulseZero_back {s : State} (h : BackInv s.dec) : BackInv (pulseZero s).dec :=
  unlessAsmHalted_back h (acceptBit_back h false)

theorem pulseOne_back {s : State} (h : BackInv s.dec) : BackInv (pulseOne s).dec :=
  unlessAsmHalted_back h (acceptBit_back h true)

theorem pulseStart_back {s : State} (h : BackInv s.dec) : BackInv (pulseStart s).dec := by
  refine unlessAsmHalted_back h ?_
  unfold startPulse
  split
  · exact acceptBit_back h false
  · split
    · exact h.raise .invalidStartPulse _ _
    · exact h

theorem flushTail_back {s : State} (h : BackInv s.dec) (hlocked : s.dec.locked = true) :
    BackInv (flushTail s).dec := by
  unfold flushTail
  split
  · refine emitByte_back ?_ ?_ _
    · exact h.counters hlocked _ _ _
    · exact hlocked
  · exact h

theorem cvVerdict_stage {cfg : CfgRegs} {build : BuildParams} {d : DecRegs} {n : Word} {e : ErrorRecord}
    (h : cvVerdict cfg build d n = some e) : e.kind.stage = .validator := by
  simp only [cvVerdict] at h
  repeat' split at h
  all_goals cases h
  all_goals rfl

theorem cvAtSectionEnd_back {s : State} (h : BackInv s.dec) (n : Word) :
    BackInv (cvAtSectionEnd s n).1 := by
  unfold cvAtSectionEnd
  split
  · obtain hkeep | ⟨e, he, hraise⟩ := cvSectionEnd_regs s.cfg s.build s.dec n
    · rwa [hkeep]
    · rw [hraise, ← cvVerdict_stage he]
      exact h.raise e.kind _ _
  · exact h

theorem sectionEnd_back {s : State} (h : BackInv s.dec) (hlocked : s.dec.locked = true) :
    BackInv (sectionEnd s).dec := by
  rw [sectionEnd_dec]
  exact (cvAtSectionEnd_back (flushTail_back h hlocked) _).nextSection

theorem gend_back {s : State} (h : BackInv s.dec) : BackInv (gend s).dec := by
  refine unlessAsmHalted_back h ?_
  unfold groupEnd
  split
  next hlocked => exact sectionEnd_back h hlocked
  next => exact h.raise .startSequenceNotFound _ _

theorem pulse_back {s : State} (h : BackInv s.dec) (k : PulseKind) : BackInv (pulse s k).dec := by
  cases k
  · exact pulseZero_back (h.grpOpen true)
  · exact pulseOne_back (h.grpOpen true)
  · exact pulseStart_back (h.grpOpen true)
  · exact (gend_back h).grpOpen false

theorem measure_back {s : State} (h : BackInv s.dec) (d c : Word) : BackInv (measure s d c).dec := by
  unfold measure
  split
  · exact h.raise .invalidPulseLength _ _
  · exact pulse_back h _

theorem flushGroup_back {s : State} (h : BackInv s.dec) : BackInv (flushGroup s).dec := by
  unfold flushGroup
  split
  · exact (gend_back h).grpOpen false
  · exact h

theorem requireHeader_back {s : State} (h : BackInv s.dec) : BackInv (requireHeader s).dec := by
  unfold requireHeader
  split
  · exact h.raise .invalidBufferLength _ _
  · exact h

theorem cross_back {s : State} (h : BackInv s.dec) (c : Word) : BackInv (cross s c).dec := by
  have hmeasure : BackInv (if s.dec.prevValid then measure s (c - s.dec.prevIdx) c else s).dec := by
    split
    · exact measure_back h _ c
    · exact h
  exact ⟨hmeasure.lockedMarker, hmeasure.seeking, hmeasure.paylen, hmeasure.errStage⟩

theorem inspect_back {s : State} (h : BackInv s.dec) (v i : Word) : BackInv (inspect s v i).dec := by
  have hcross : BackInv (if isCrossing s.dec.lastSign v then cross s i else s).dec := by
    split
    · exact cross_back h i
    · exact h
  unfold inspect
  split
  · exact ⟨hcross.lockedMarker, hcross.seeking, hcross.paylen, hcross.errStage⟩
  · exact h

theorem acceptSample_back {s : State} (h : BackInv s.dec) (v : Word) : BackInv (acceptSample s v).dec := by
  obtain hlimit | hlimit := Nat.lt_or_ge s.dec.idx.toNat (indexLimit s.build)
  · have hinspect : BackInv (inspectIfDue s v).dec := by
      unfold inspectIfDue
      split
      · exact inspect_back h v _
      · exact h
    rw [acceptSample_belowLimit v hlimit]
    exact ⟨hinspect.lockedMarker, hinspect.seeking, hinspect.paylen, hinspect.errStage⟩
  · rw [acceptSample_atLimit v hlimit]
    exact h.raise .indexOverflow 0 0

end Sys2Proof.Machine

end

section

namespace Sys2Proof.Machine

/-! ### What an instruction can do -/

/-- The write of a configuration command (40_control R122 to R125). -/
def writeCfg (i : Instr) (c : CfgRegs) : CfgRegs :=
  match i with
  | .setrate u => { c with rate := u }
  | .setchan u => { c with chan := u }
  | .setbits u => { c with bits := u }
  | .setmode u => { c with mode := u }
  | .nop | .dstart | .sample _ | .dend | .mstart | .pbyte _ | .pend | .mend
  | .pulseZero | .pulseOne | .pulseStart | .pulseGap => c

/-- A token received by BA (42_assembler_framer R161 to R163, R168). -/
def deliver (k : PulseKind) (s : State) : State :=
  match k with
  | .zero => pulseZero s
  | .one => pulseOne s
  | .start => pulseStart s
  | .gap => gend s

/-- Everything an instruction can do to the state, with what each answer needs (40_control R121, R130). -/
inductive Effect : Instr → State → State → Prop
  | nop (s : State) : Effect .nop s s
  | refused {i : Instr} {s : State} {op : BitVec 4} (reason : Reason) (hop : i.opcode? = some op)
      (hbad : legalOperand s.build i = false ∨ allowed i s = false) : Effect i s (s.refuse reason op)
  | configured {i : Instr} {s : State} (hconfig : i.isConfig = true)
      (hlegal : legalOperand s.build i = true) (hdec : s.dec.dstate ≠ .run)
      (hmod : s.mod.mstate ≠ .run) : Effect i s (s.setCfg (writeCfg i s.cfg))
  | dstart {s : State} (hrun : s.dec.dstate ≠ .run) : Effect .dstart s (s.setDec DecRegs.restart)
  | sample {s : State} (v : Word) (hrun : s.dec.dstate = .run) :
      Effect (.sample v) s (acceptSample s v)
  | dend {s : State} (hrun : s.dec.dstate = .run) : Effect .dend s (endDecode s)
  | mstart {s : State} (hrun : s.mod.mstate ≠ .run) :
      Effect .mstart s (s.setMod { mstate := .run, inPay := false, havePrev := false })
  | pbyte {s : State} (u : Byte) (hrun : s.mod.mstate = .run) : Effect (.pbyte u) s (payloadByte s u)
  | pend {s : State} (hrun : s.mod.mstate = .run) : Effect .pend s (payloadEnd s)
  | mend {s : State} (hrun : s.mod.mstate = .run) :
      Effect .mend s (s.setMod { s.mod with mstate := .idle })
  | token (k : PulseKind) (s : State) : Effect (pulseInstr k) s (deliver k s)

theorem allowed_of_isConfig {i : Instr} (s : State) (hi : i.isConfig = true) :
    allowed i s = (decide (s.dec.dstate ≠ .run) && decide (s.mod.mstate ≠ .run)) := by
  cases i with
  | setrate | setchan | setbits | setmode => rfl
  | _ => cases hi

theorem configure_effect {i : Instr} {s : State} {op : BitVec 4} (hi : i.isConfig = true)
    (hop : i.opcode? = some op) :
    Effect i s (configure s op (legalOperand s.build i) (writeCfg i s.cfg)) := by
  unfold configure
  split
  next hlegal => exact .refused _ hop (.inl (by simpa using hlegal))
  next hlegal =>
    split
    next hfrozen =>
      refine .refused _ hop (.inr ?_)
      simpa [allowed_of_isConfig s hi, State.cfgFrozen, State.decRun, State.modRun, or_iff_not_imp_left]
        using hfrozen
    next hfrozen =>
      have hfree : s.dec.dstate ≠ .run ∧ s.mod.mstate ≠ .run := by
        simpa [State.cfgFrozen, State.decRun, State.modRun] using hfrozen
      exact .configured hi (by simpa using hlegal) hfree.1 hfree.2

/-- A command carried out in the states `p`, and refused for its state elsewhere (40_control R121). -/
theorem effect_ite {i : Instr} {s t : State} {op : BitVec 4} {p : Bool} (hop : i.opcode? = some op)
    (hallowed : allowed i s = p) (h : p = true → Effect i s t) :
    Effect i s (if p then t else s.refuse .wrongState op) := by
  split
  next hp => exact h hp
  next hp => exact .refused _ hop (.inr (hallowed.trans (Bool.eq_false_of_not_eq_true hp)))

/-- The same for the commands that start a call, whose test asks for the refusal. -/
theorem effect_ite_not {i : Instr} {s t : State} {op : BitVec 4} {p : Bool} (hop : i.opcode? = some op)
    (hallowed : allowed i s = !p) (h : p = false → Effect i s t) :
    Effect i s (if p then s.refuse .wrongState op else t) := by
  split
  next hp => exact .refused _ hop (.inr (hallowed.trans (by simp [hp])))
  next hp => exact h (Bool.eq_false_of_not_eq_true hp)

theorem allowed_dstart (s : State) : allowed .dstart s = !s.decRun := by
  cases h : s.dec.dstate <;> simp [allowed, State.decRun, h]

theorem allowed_mstart (s : State) : allowed .mstart s = !s.modRun := by
  cases h : s.mod.mstate <;> simp [allowed, State.modRun, h]

theorem exec_has_effect (i : Instr) (s : State) : ∃ t, exec i s = .next t ∧ Effect i s t :=
  match i with
  | .nop => ⟨_, rfl, .nop s⟩
  | .setrate u => ⟨_, rfl, configure_effect (i := .setrate u) rfl rfl⟩
  | .setchan u => ⟨_, rfl, configure_effect (i := .setchan u) rfl rfl⟩
  | .setbits u => ⟨_, rfl, configure_effect (i := .setbits u) rfl rfl⟩
  | .setmode u => ⟨_, rfl, configure_effect (i := .setmode u) rfl rfl⟩
  | .dstart => ⟨_, rfl, effect_ite_not rfl (allowed_dstart s) fun h => .dstart (of_decide_eq_false h)⟩
  | .sample v => ⟨_, rfl, effect_ite rfl rfl fun h => .sample v (of_decide_eq_true h)⟩
  | .dend => ⟨_, rfl, effect_ite rfl rfl fun h => .dend (of_decide_eq_true h)⟩
  | .mstart => ⟨_, rfl, effect_ite_not rfl (allowed_mstart s) fun h => .mstart (of_decide_eq_false h)⟩
  | .pbyte u => ⟨_, rfl, effect_ite rfl rfl fun h => .pbyte u (of_decide_eq_true h)⟩
  | .pend => ⟨_, rfl, effect_ite rfl rfl fun h => .pend (of_decide_eq_true h)⟩
  | .mend => ⟨_, rfl, effect_ite rfl rfl fun h => .mend (of_decide_eq_true h)⟩
  | .pulseZero => ⟨_, rfl, .token .zero s⟩
  | .pulseOne => ⟨_, rfl, .token .one s⟩
  | .pulseStart => ⟨_, rfl, .token .start s⟩
  | .pulseGap => ⟨_, rfl, .token .gap s⟩

/-- The inversion of `exec`: an instruction has one of the effects above, and no other. -/
theorem effect_of_exec {i : Instr} {s t : State} (h : exec i s = .next t) : Effect i s t := by
  obtain ⟨t', ht', heffect⟩ := exec_has_effect i s
  cases ht'.symm.trans h
  exact heffect

/-- Everything a step can do, in the terms of `resetNext` and `nextInstr?` (20_memory R76). -/
inductive StepEffect (s t : State) : Prop
  | waits (hreset : ¬ resetNext s) (hnext : nextInstr? s = none) (ht : t = s)
  | resets (rest : List PortInput) (hreset : resetNext s) (hnext : nextInstr? s = none)
      (ht : t = { s with inputs := rest }.assertReset)
  | rejects (rest : List PortInput) (reason : Reason) (op : BitVec 4) (hreset : ¬ resetNext s)
      (hnext : nextInstr? s = none) (ht : t = { s with inputs := rest }.refuse reason op)
  | runs (rest : List PortInput) (i : Instr) (hreset : ¬ resetNext s) (hnext : nextInstr? s = some i)
      (hexec : exec i { s with inputs := rest } = .next t)

theorem stepEffect_of_step {s t : State} (h : step s = .next t) : StepEffect s t := by
  obtain ⟨hin, ht⟩ | ⟨rest, hin, ht⟩ | ⟨w, rest, i, hin, hdec, hexec⟩ |
    ⟨w, rest, op, hin, ⟨hdec, ht⟩ | ⟨hdec, ht⟩⟩ := step_cases h
  · exact .waits (by simp [resetNext, hin]) (by simp [nextInstr?, hin]) ht
  · exact .resets rest (by simp [resetNext, hin]) (by simp [nextInstr?, hin]) ht
  · exact .runs rest i (by simp [resetNext, hin]) (by simp [nextInstr?, hin, hdec]) hexec
  · exact .rejects rest _ op (by simp [resetNext, hin]) (by simp [nextInstr?, hin, hdec]) ht
  · exact .rejects rest _ op (by simp [resetNext, hin]) (by simp [nextInstr?, hin, hdec]) ht

theorem deliver_frame (k : PulseKind) (s : State) : PulseFrame s (deliver k s) :=
  match k with
  | .zero => pulseZero_frame s
  | .one => pulseOne_frame s
  | .start => pulseStart_frame s
  | .gap => gend_frame s

theorem deliver_back {s : State} (h : BackInv s.dec) (k : PulseKind) : BackInv (deliver k s).dec :=
  match k with
  | .zero => pulseZero_back h
  | .one => pulseOne_back h
  | .start => pulseStart_back h
  | .gap => gend_back h

/-! ### The invariant in parts -/

/-- The configuration is legal for the build. -/
structure ConfigInv (build : BuildParams) (c : CfgRegs) : Prop where
  holdsReset : BuildHoldsReset build
  rate : c.rate ≠ 0 ∧ c.rate.toNat < 2 ^ build.rateW.val
  chan : c.chan ≠ 0 ∧ c.chan.toNat < 2 ^ build.chanW.val
  bits : 1 ≤ c.bits.toNat ∧ c.bits.toNat ≤ build.bitsMax.val

/-- `FAULT` is 0 or a refusal's word. -/
structure FaultInv (f : BitVec 8) : Prop where
  bit3 : f.getLsbD 3 = false
  clear : cmdErr f = false → f = 0
  cause : cmdErr f = true → faultReason f ≠ 0

/-- The latest crossing, seen from the index `n` of the next sample (10_state R31, R32). -/
structure CrossingInv (chan n : Nat) (f : FrontRegs) : Prop where
  before : f.prevValid = true → f.prevIdx.toNat < n
  none : f.prevValid = false → f.prevIdx = 0
  inspected : f.dstate = .run → f.prevIdx.toNat % chan = 0
  negative : f.dstate = .run → f.prevValid = true → f.lastSign = .neg → f.prevIdx.toNat + chan < n

/-- The registers of ZCD. -/
structure FrontInv (build : BuildParams) (c : CfgRegs) (f : FrontRegs) : Prop where
  index : f.idx.toNat ≤ indexLimit build
  phase : f.dstate = .run → f.chph.toNat = f.idx.toNat % c.chan.toNat
  crossing : CrossingInv c.chan.toNat f.idx.toNat f

/-- What a call holds for its outcome: no validator error in raw mode, no result before its end. -/
structure OutcomeInv (c : CfgRegs) (d : DecRegs) : Prop where
  rawNoError : d.dstate = .run → c.text = false → d.errVal = none
  noResult : d.dstate ≠ .done → d.dCode = none ∧ d.dInfo = 0 ∧ d.dInfo2 = 0

theorem State.inv_iff (s : State) :
    s.Inv ↔ ConfigInv s.build s.cfg ∧ FaultInv s.faultReg ∧ FrontInv s.build s.cfg s.dec.front ∧
      BackInv s.dec ∧ OutcomeInv s.cfg s.dec := by
  constructor
  · intro h
    exact ⟨⟨h.build, h.rate, h.chan, h.bits⟩, ⟨h.faultBit3, h.faultClear, h.faultCause⟩,
      ⟨h.index, h.phase, ⟨h.prevBefore, h.prevNone, h.prevInspected, h.negAfterPrev⟩⟩,
      ⟨h.lockedMarker, h.seeking, h.paylen, h.errStage⟩, ⟨h.rawNoError, h.noResult⟩⟩
  · rintro ⟨hconfig, hfault, hfront, hback, houtcome⟩
    exact ⟨hconfig.holdsReset, hconfig.rate, hconfig.chan, hconfig.bits, hfront.index, hfault.bit3,
      hfault.clear, hfault.cause, hfront.phase, hfront.crossing.before, hfront.crossing.none,
      hfront.crossing.inspected, hfront.crossing.negative, hback.lockedMarker, hback.seeking,
      hback.paylen, hback.errStage, houtcome.rawNoError, houtcome.noResult⟩

/-! ### The word of a refusal -/

theorem cmdErr_faultWord (reason : Reason) (op : BitVec 4) : cmdErr (faultWord reason op) = true := by
  revert op
  cases reason <;> decide

theorem faultReason_faultWord (reason : Reason) (op : BitVec 4) :
    faultReason (faultWord reason op) = reason.code := by
  revert op
  cases reason <;> decide

theorem faultOp_faultWord (reason : Reason) (op : BitVec 4) : faultOp (faultWord reason op) = op := by
  revert op
  cases reason <;> decide

theorem faultWord_bit3 (reason : Reason) (op : BitVec 4) :
    (faultWord reason op).getLsbD 3 = false := by
  revert op
  cases reason <;> decide

theorem cmdErr_refuse (s : State) (reason : Reason) (op : BitVec 4) :
    cmdErr (s.refuse reason op).faultReg = true := by
  rw [State.refuse_faultReg]
  split
  · assumption
  · exact cmdErr_faultWord reason op

/-! ### The parts of the invariant under the operations -/

theorem FaultInv.refuse {s : State} (h : FaultInv s.faultReg) (reason : Reason) (op : BitVec 4) :
    FaultInv (s.refuse reason op).faultReg := by
  rw [State.refuse_faultReg]
  split
  · exact h
  · refine ⟨faultWord_bit3 reason op, fun hclear => ?_, fun _ => ?_⟩
    · simp [cmdErr_faultWord] at hclear
    · rw [faultReason_faultWord]
      cases reason <;> decide

theorem legalOperand_setrate (build : BuildParams) (u : BitVec 32) :
    legalOperand build (.setrate u) = true ↔ u ≠ 0 ∧ u.toNat < 2 ^ build.rateW.val := by
  simp [legalOperand, Instr.wellFormed]

theorem legalOperand_setchan (build : BuildParams) (u : BitVec 16) :
    legalOperand build (.setchan u) = true ↔ u ≠ 0 ∧ u.toNat < 2 ^ build.chanW.val := by
  simp [legalOperand, Instr.wellFormed]

theorem legalOperand_setbits (build : BuildParams) (u : BitVec 6) :
    legalOperand build (.setbits u) = true ↔ 1 ≤ u.toNat ∧ u.toNat ≤ build.bitsMax.val := by
  have hmax : build.bitsMax.val < 33 := build.bitsMax.isLt
  have hzero : u = 0#6 ↔ u.toNat = 0 := BitVec.toNat_inj.symm
  have hlegal : legalOperand build (.setbits u) = true ↔
      (u.toNat ≠ 0 ∧ u.toNat ≤ 32) ∧ u.toNat ≤ build.bitsMax.val := by
    simp [legalOperand, Instr.wellFormed, hzero]
  rw [hlegal]
  omega

theorem ConfigInv.writeCfg {build : BuildParams} {c : CfgRegs} {i : Instr} (h : ConfigInv build c)
    (hlegal : legalOperand build i = true) : ConfigInv build (writeCfg i c) := by
  cases i with
  | setrate u => exact ⟨h.holdsReset, (legalOperand_setrate build u).mp hlegal, h.chan, h.bits⟩
  | setchan u => exact ⟨h.holdsReset, h.rate, (legalOperand_setchan build u).mp hlegal, h.bits⟩
  | setbits u => exact ⟨h.holdsReset, h.rate, h.chan, (legalOperand_setbits build u).mp hlegal⟩
  | setmode u => exact ⟨h.holdsReset, h.rate, h.chan, h.bits⟩
  | _ => exact h

theorem CrossingInv.mono {chan n : Nat} {f : FrontRegs} (h : CrossingInv chan n f) :
    CrossingInv chan (n + 1) f :=
  ⟨fun hv => Nat.lt_succ_of_lt (h.before hv), h.none, h.inspected,
    fun hrun hv hneg => Nat.lt_succ_of_lt (h.negative hrun hv hneg)⟩

/-- A sample at a frame start: a negative one after a crossing comes a frame later at least (20_memory R65). -/
theorem CrossingInv.update {chan : Nat} {f : FrontRegs} {i : Word} (h : CrossingInv chan i.toNat f)
    (hi : i.toNat % chan = 0) (v : Word) : CrossingInv chan (i.toNat + 1) (f.update v i) := by
  unfold FrontRegs.update
  split
  next hcross =>
    have hpos : signOf v = .pos := (of_decide_eq_true hcross).1
    refine ⟨fun _ => Nat.lt_succ_self _, fun hv => ?_, fun _ => hi, fun _ _ hneg => ?_⟩
    · cases hv
    · cases hpos.symm.trans hneg
  next =>
    exact ⟨h.mono.before, h.none, h.inspected, fun hrun hv _ =>
      Nat.lt_succ_of_le (Nat.ModEq.add_le_of_lt ((h.inspected hrun).trans hi.symm) (h.before hv))⟩

end Sys2Proof.Machine

end

section

namespace Sys2Proof.Machine

/-! ### One sample -/

theorem indexLimit_lt (build : BuildParams) : indexLimit build < 2 ^ 32 :=
  Nat.sub_one_lt_of_le (Nat.two_pow_pos _)
    (Nat.pow_le_pow_right (by decide) (Nat.le_of_lt_succ build.idxW.isLt))

/-- Below its limit `IDX` counts without wrapping (10_state R29). -/
theorem toNat_idx_succ {build : BuildParams} {i : Word} (h : i.toNat < indexLimit build) :
    (i + 1).toNat = i.toNat + 1 := by
  have hone : (1 : Word).toNat = 1 := rfl
  have hlimit := indexLimit_lt build
  exact BitVec.toNat_add_of_lt (by omega)

/-- `CHPH` and `IDX` after one more sample (41_demodulator R140). -/
def FrontRegs.advance (f : FrontRegs) (chan : BitVec 16) : FrontRegs :=
  { f with chph := BitVec.ofNat 16 ((f.chph.toNat + 1) % chan.toNat), idx := f.idx + 1 }

theorem advance_front (s : State) : (advance s).dec.front = s.dec.front.advance s.cfg.chan := rfl

/-- What an inspection does to the front registers: an update, or nothing. -/
theorem inspectIfDue_front (s : State) (v : Word) :
    ((inspectIfDue s v).dec.front = s.dec.front.update v s.dec.idx ∧ s.dec.chph = 0) ∨
    (inspectIfDue s v).dec.front = s.dec.front := by
  unfold inspectIfDue
  split
  next hdue =>
    rw [inspect_front]
    split
    · exact .inl ⟨rfl, of_decide_eq_true (Bool.and_eq_true_iff.mp hdue).1⟩
    · exact .inr rfl
  next => exact .inr rfl

theorem FrontInv.advance {build : BuildParams} {c : CfgRegs} {f : FrontRegs} (hchan : c.chan ≠ 0)
    (hroom : f.idx.toNat < indexLimit build)
    (hphase : f.dstate = .run → f.chph.toNat = f.idx.toNat % c.chan.toNat)
    (hcross : CrossingInv c.chan.toNat (f.idx.toNat + 1) f) : FrontInv build c (f.advance c.chan) := by
  have hidx : (f.advance c.chan).idx.toNat = f.idx.toNat + 1 := toNat_idx_succ hroom
  refine ⟨hidx.trans_le hroom, fun hrun => ?_, ?_⟩
  · have hlt : (f.chph.toNat + 1) % c.chan.toNat < c.chan.toNat :=
      Nat.mod_lt _ (Nat.pos_of_ne_zero fun h => hchan (BitVec.eq_of_toNat_eq h))
    calc (f.advance c.chan).chph.toNat = (f.chph.toNat + 1) % c.chan.toNat % 2 ^ 16 := BitVec.toNat_ofNat ..
      _ = (f.chph.toNat + 1) % c.chan.toNat := Nat.mod_eq_of_lt (hlt.trans c.chan.isLt)
      _ = (f.advance c.chan).idx.toNat % c.chan.toNat := by rw [hidx, hphase hrun, Nat.mod_add_mod]
  · rw [hidx]
    exact ⟨hcross.before, hcross.none, hcross.inspected, hcross.negative⟩

/-- An inspection writes `PREV_VALID`, `PREV_IDX` and `LAST_SIGN` alone of the front registers. -/
theorem inspectIfDue_keeps (s : State) (v : Word) :
    (inspectIfDue s v).dec.front.idx = s.dec.front.idx ∧
      (inspectIfDue s v).dec.front.chph = s.dec.front.chph := by
  obtain ⟨hfront, -⟩ | hfront := inspectIfDue_front s v
  · rw [hfront]
    unfold FrontRegs.update
    split <;> exact ⟨rfl, rfl⟩
  · rw [hfront]
    exact ⟨rfl, rfl⟩

theorem crossingInv_inspectIfDue {s : State} (h : FrontInv s.build s.cfg s.dec.front)
    (hrun : s.dec.dstate = .run) (v : Word) :
    CrossingInv s.cfg.chan.toNat (s.dec.front.idx.toNat + 1) (inspectIfDue s v).dec.front := by
  obtain ⟨hfront, hchph⟩ | hfront := inspectIfDue_front s v
  · rw [hfront]
    exact h.crossing.update ((h.phase hrun).symm.trans (congrArg BitVec.toNat hchph)) v
  · rw [hfront]
    exact h.crossing.mono

theorem frontInv_acceptSample {s : State} (hchan : s.cfg.chan ≠ 0)
    (h : FrontInv s.build s.cfg s.dec.front) (hrun : s.dec.dstate = .run) (v : Word) :
    FrontInv s.build s.cfg (acceptSample s v).dec.front := by
  obtain hroom | hlimit := Nat.lt_or_ge s.dec.idx.toNat (indexLimit s.build)
  · obtain ⟨hidx, hchph⟩ := inspectIfDue_keeps s v
    have hcross := crossingInv_inspectIfDue h hrun v
    rw [acceptSample_belowLimit v hroom, advance_front, (inspectIfDue_frame s v).cfg]
    rw [← hidx] at hcross
    exact .advance hchan (hidx ▸ hroom) (fun _ => by rw [hchph, hidx, h.phase hrun]) hcross
  · rw [acceptSample_atLimit v hlimit, State.setDec_dec, DecRegs.raise_front]
    exact h

/-! ### The invariant under each effect -/

theorem SampleFrame.dstate {s t : State} (k : SampleFrame s t) : t.dec.dstate = s.dec.dstate :=
  congrArg (·.1) k.kept

theorem OutcomeInv.of_frame {s t : State} (h : OutcomeInv s.cfg s.dec) (k : SampleFrame s t) :
    OutcomeInv t.cfg t.dec := by
  rw [k.cfg]
  refine ⟨fun hrun hraw => (k.rawErrVal hraw).trans (h.rawNoError (k.dstate ▸ hrun) hraw), fun hdone => ?_⟩
  obtain ⟨hcode, hinfo, hinfo2⟩ := h.noResult (k.dstate ▸ hdone)
  exact ⟨(congrArg (·.2.1) k.kept).trans hcode, (congrArg (·.2.2.1) k.kept).trans hinfo,
    (congrArg (·.2.2.2) k.kept).trans hinfo2⟩

/-- Decoder registers at their reset values meet their part of the invariant, in a call that begins and
out of one (40_control R126, 70_reset R260). -/
theorem resetRegs_inv (build : BuildParams) (c : CfgRegs) (q : DState) :
    FrontInv build c { DecRegs.reset with dstate := q }.front ∧ BackInv { DecRegs.reset with dstate := q } ∧
      OutcomeInv c { DecRegs.reset with dstate := q } := by
  refine ⟨⟨Nat.zero_le _, fun _ => (Nat.zero_mod _).symm, ⟨nofun, fun _ => rfl, fun _ => Nat.zero_mod _,
    nofun⟩⟩, ⟨by simp [DecRegs.reset], fun _ => ⟨rfl, rfl, rfl⟩, Nat.zero_le _, fun st e he => ?_⟩,
    fun _ _ => rfl, fun _ => ⟨rfl, rfl, rfl⟩⟩
  cases st <;> cases he

theorem ConfigInv.reset {build : BuildParams} (h : BuildHoldsReset build) : ConfigInv build CfgRegs.reset :=
  ⟨h, ⟨by decide, h.rate⟩, ⟨by decide, h.chan⟩, ⟨by decide, h.bits⟩⟩

theorem FaultInv.reset : FaultInv 0x00 := ⟨rfl, fun _ => rfl, nofun⟩

theorem inv_assertReset {s : State} (h : BuildHoldsReset s.build) : s.assertReset.Inv :=
  (State.inv_iff _).mpr ⟨.reset h, .reset, resetRegs_inv s.build CfgRegs.reset .idle⟩

namespace State.Inv

variable {s t : State}

theorem of_pulseFrame (h : s.Inv) (k : PulseFrame s t) (hback : BackInv s.dec → BackInv t.dec) :
    t.Inv := by
  obtain ⟨hconfig, hfault, hfront, hb, houtcome⟩ := s.inv_iff.mp h
  rw [State.inv_iff, k.build, k.faultReg, k.kept]
  exact ⟨k.cfg ▸ hconfig, hfault, k.cfg ▸ hfront, hback hb, houtcome.of_frame k.sample⟩

theorem acceptSample (h : s.Inv) (hrun : s.dec.dstate = .run) (v : Word) :
    (acceptSample s v).Inv := by
  obtain ⟨hconfig, hfault, hfront, hback, houtcome⟩ := s.inv_iff.mp h
  have k := acceptSample_frame s v
  rw [State.inv_iff, k.build, k.faultReg]
  exact ⟨k.cfg ▸ hconfig, hfault, k.cfg ▸ frontInv_acceptSample h.chan.1 hfront hrun v,
    acceptSample_back hback v, houtcome.of_frame k⟩

/-- The report ends the call, and what is left of the invariant is what holds out of a call too. -/
theorem report (h : s.Inv) : (report s).Inv := by
  obtain ⟨hconfig, hfault, hfront, hback, -⟩ := s.inv_iff.mp h
  refine (State.inv_iff _).mpr ⟨hconfig, hfault, ⟨hfront.index, nofun,
    ⟨hfront.crossing.before, hfront.crossing.none, nofun, nofun⟩⟩,
    ⟨hback.lockedMarker, hback.seeking, hback.paylen, hback.errStage⟩, nofun, fun h => absurd rfl h⟩

theorem endDecode (h : s.Inv) : (endDecode s).Inv :=
  ((h.of_pulseFrame (flushGroup_frame s) flushGroup_back).of_pulseFrame (requireHeader_frame _)
    requireHeader_back).report

theorem of_onlyModulator (h : s.Inv) (k : OnlyModulator s t) : t.Inv := by
  rw [State.inv_iff, k.build, k.cfg, k.faultReg, k.dec]
  exact s.inv_iff.mp h

theorem refuse (h : s.Inv) (reason : Reason) (op : BitVec 4) : (s.refuse reason op).Inv := by
  obtain ⟨hconfig, hfault, hrest⟩ := s.inv_iff.mp h
  rw [State.inv_iff]
  simp only [State.refuse_build, State.refuse_cfg, State.refuse_dec]
  exact ⟨hconfig, hfault.refuse reason op, hrest⟩

theorem setCfg {c : CfgRegs} (h : s.Inv) (hc : ConfigInv s.build c) (hrun : s.dec.dstate ≠ .run) :
    (s.setCfg c).Inv := by
  obtain ⟨-, hfault, hfront, hback, houtcome⟩ := s.inv_iff.mp h
  exact (State.inv_iff _).mpr ⟨hc, hfault, ⟨hfront.index, fun hr => absurd hr hrun,
    ⟨hfront.crossing.before, hfront.crossing.none, fun hr => absurd hr hrun,
      fun hr => absurd hr hrun⟩⟩, hback, fun hr => absurd hr hrun, houtcome.noResult⟩

theorem restart (h : s.Inv) : (s.setDec DecRegs.restart).Inv := by
  obtain ⟨hconfig, hfault, -⟩ := s.inv_iff.mp h
  exact (State.inv_iff _).mpr ⟨hconfig, hfault, resetRegs_inv s.build s.cfg .run⟩

/-- The inputs are no part of the register file. -/
theorem taken (h : s.Inv) (rest : List PortInput) : State.Inv { s with inputs := rest } :=
  (State.inv_iff _).mpr (s.inv_iff.mp h)

theorem of_effect {i : Instr} (h : s.Inv) (heffect : Effect i s t) : t.Inv := by
  cases heffect with
  | nop => exact h
  | refused reason => exact h.refuse reason _
  | configured hconfig hlegal hdec => exact h.setCfg ((s.inv_iff.mp h).1.writeCfg hlegal) hdec
  | dstart => exact h.restart
  | sample v hrun => exact h.acceptSample hrun v
  | dend => exact h.endDecode
  | mstart => exact h.of_onlyModulator (.setMod s _)
  | pbyte u => exact h.of_onlyModulator (payloadByte_only s u)
  | pend => exact h.of_onlyModulator (payloadEnd_only s)
  | mend => exact h.of_onlyModulator (.setMod s _)
  | token k => exact h.of_pulseFrame (deliver_frame k s) (deliver_back · k)

theorem of_step (h : s.Inv) (hstep : step s = .next t) : t.Inv := by
  cases stepEffect_of_step hstep with
  | waits _ _ ht => exact ht ▸ h
  | resets rest _ _ ht => exact ht ▸ inv_assertReset h.build
  | rejects rest reason op _ _ ht => exact ht ▸ (h.taken rest).refuse reason op
  | runs rest i _ _ hexec => exact (h.taken rest).of_effect (effect_of_exec hexec)

end State.Inv

/-- A configuration command with an illegal operand is refused for it, whatever the state (40_control R121). -/
theorem configure_of_illegal (s : State) (op : BitVec 4) (c : CfgRegs) {legal : Bool}
    (h : legal = false) : configure s op legal c = s.refuse .badArgument op := by
  simp [configure, h]

end Sys2Proof.Machine

end

section

namespace Sys2Proof.Machine

/-! ### What an effect leaves unchanged -/

section

variable {i : Instr} {s t : State}

/-- `FAULT` is written by a refusal alone (10_state R48). -/
theorem Effect.faultReg (h : Effect i s t) :
    t.faultReg = s.faultReg ∨ ∃ reason op,
      t.faultReg = if cmdErr s.faultReg then s.faultReg else faultWord reason op := by
  cases h with
  | refused reason => exact .inr ⟨reason, _, State.refuse_faultReg ..⟩
  | nop | configured | dstart | mstart | mend => exact .inl rfl
  | sample v => exact .inl (acceptSample_only s v).faultReg
  | dend => exact .inl (endDecode_only s).faultReg
  | pbyte u => exact .inl (payloadByte_only s u).faultReg
  | pend => exact .inl (payloadEnd_only s).faultReg
  | token k => exact .inl (deliver_frame k s).faultReg

/-- The configuration is written by a legal configuration command out of every call (10_state R26). -/
theorem Effect.cfg (h : Effect i s t) :
    t.cfg = s.cfg ∨ (t.cfg = writeCfg i s.cfg ∧ i.isConfig = true ∧ legalOperand s.build i = true ∧
      s.dec.dstate ≠ .run ∧ s.mod.mstate ≠ .run) := by
  cases h with
  | configured hconfig hlegal hdec hmod => exact .inr ⟨rfl, hconfig, hlegal, hdec, hmod⟩
  | nop | dstart | mstart | mend => exact .inl rfl
  | refused => exact .inl (State.refuse_cfg ..)
  | sample v => exact .inl (acceptSample_only s v).cfg
  | dend => exact .inl (endDecode_only s).cfg
  | pbyte u => exact .inl (payloadByte_only s u).cfg
  | pend => exact .inl (payloadEnd_only s).cfg
  | token k => exact .inl (deliver_frame k s).cfg

/-- `DSTATE` is written by an accepted `DSTART` or `DEND` alone (10_state R34). -/
theorem Effect.dstate (h : Effect i s t) (hstart : ¬ (i = .dstart ∧ s.dec.dstate ≠ .run))
    (hend : ¬ (i = .dend ∧ s.dec.dstate = .run)) : t.dec.dstate = s.dec.dstate := by
  cases h with
  | dstart hrun => exact absurd ⟨rfl, hrun⟩ hstart
  | dend hrun => exact absurd ⟨rfl, hrun⟩ hend
  | nop | configured | mstart | mend => rfl
  | refused => rw [State.refuse_dec]
  | sample v => exact (acceptSample_frame s v).dstate
  | pbyte u => rw [(payloadByte_only s u).dec]
  | pend => rw [(payloadEnd_only s).dec]
  | token k => exact (deliver_frame k s).sample.dstate

theorem DState.ne_run {q : DState} : q ≠ .run ↔ q = .idle ∨ q = .done := by cases q <;> simp

theorem MState.ne_run {q : MState} : q ≠ .run ↔ q = .idle := by cases q <;> simp

theorem ensureBurst_mstate (s : State) : (ensureBurst s).mod.mstate = s.mod.mstate := by
  unfold ensureBurst
  split
  · rfl
  · rw [openBurst_mod]

/-- `MSTATE` is written by an accepted `MSTART` or `MEND` alone (10_state R46). -/
theorem Effect.mstate (h : Effect i s t) (hstart : ¬ (i = .mstart ∧ s.mod.mstate = .idle))
    (hend : ¬ (i = .mend ∧ s.mod.mstate = .run)) : t.mod.mstate = s.mod.mstate := by
  cases h with
  | mstart hrun => exact absurd ⟨rfl, MState.ne_run.mp hrun⟩ hstart
  | mend hrun => exact absurd ⟨rfl, hrun⟩ hend
  | nop | configured | dstart => rfl
  | refused => rw [State.refuse_mod]
  | sample v => rw [(acceptSample_only s v).mod]
  | dend => rw [(endDecode_only s).mod]
  | pbyte | pend => exact ensureBurst_mstate s
  | token k => rw [(deliver_frame k s).mod]

theorem endDecode_idx (s : State) : (endDecode s).dec.idx = s.dec.idx :=
  congrArg FrontRegs.idx ((flushGroup_frame s).trans (requireHeader_frame _)).kept

/-- `IDX` is written by an accepted `DSTART` or `SAMPLE` alone (10_state R29). -/
theorem Effect.idx (h : Effect i s t) (hstart : ¬ (i = .dstart ∧ s.dec.dstate ≠ .run))
    (hsample : ∀ v, ¬ (i = .sample v ∧ s.dec.dstate = .run)) : t.dec.idx = s.dec.idx := by
  cases h with
  | dstart hrun => exact absurd ⟨rfl, hrun⟩ hstart
  | sample v hrun => exact absurd ⟨rfl, hrun⟩ (hsample v)
  | nop | configured | mstart | mend => rfl
  | refused => rw [State.refuse_dec]
  | dend => exact endDecode_idx s
  | pbyte u => rw [(payloadByte_only s u).dec]
  | pend => rw [(payloadEnd_only s).dec]
  | token k => exact congrArg FrontRegs.idx (deliver_frame k s).kept

/-! ### The commands that start or end a call -/

theorem exec_dstart_ready (s : State) (h : s.dec.dstate ≠ .run) :
    exec .dstart s = .next (s.setDec DecRegs.restart) := by
  simp [exec, execDstart, State.decRun, h]

theorem exec_mstart_ready (s : State) (h : s.mod.mstate = .idle) :
    exec .mstart s = .next (s.setMod { mstate := .run, inPay := false, havePrev := false }) := by
  simp [exec, execMstart, State.modRun, h]

theorem exec_mend_running (s : State) (h : s.mod.mstate = .run) :
    exec .mend s = .next (s.setMod { s.mod with mstate := .idle }) := by
  simp [exec, execMend, State.modRun, h]

theorem eq_of_exec {u : State} (h : exec i s = .next t) (k : exec i s = .next u) : t = u :=
  Host.Outcome.next.inj (h.symm.trans k)

/-! ### FAULT -/

/-- What a step that is no reset edge does to `FAULT`. -/
theorem step_faultReg (hstep : step s = .next t) (hreset : ¬ resetNext s) :
    t.faultReg = s.faultReg ∨ ∃ reason op,
      t.faultReg = if cmdErr s.faultReg then s.faultReg else faultWord reason op := by
  cases stepEffect_of_step hstep with
  | waits _ _ ht => exact .inl (ht ▸ rfl)
  | resets _ hrst => exact absurd hrst hreset
  | rejects rest reason op _ _ ht => exact .inr ⟨reason, op, ht ▸ State.refuse_faultReg ..⟩
  | runs rest i _ _ hexec => exact (effect_of_exec hexec).faultReg

theorem refuse_of_clear (reason : Reason) (op : BitVec 4) (h : cmdErr s.faultReg = false) :
    s.refuse reason op = { s with faultReg := faultWord reason op } := by
  simp [State.refuse, h]

theorem refuse_of_cmdErr (reason : Reason) (op : BitVec 4) (h : cmdErr s.faultReg = true) :
    s.refuse reason op = s := if_pos h

/-! ### Configuration -/

theorem cfg_frozen (h : s.dec.dstate = .run ∨ s.mod.mstate = .run) (hexec : exec i s = .next t) :
    t.cfg = s.cfg := by
  obtain hkeep | ⟨-, -, -, hdec, hmod⟩ := (effect_of_exec hexec).cfg
  · exact hkeep
  · exact absurd h (not_or.mpr ⟨hdec, hmod⟩)

/-- During a call of either path a configuration command is refused (10_state R26). -/
theorem config_refused (hi : i.isConfig = true) (h : s.dec.dstate = .run ∨ s.mod.mstate = .run)
    (hexec : exec i s = .next t) : ∃ reason op, t = s.refuse reason op := by
  cases effect_of_exec hexec with
  | refused reason => exact ⟨reason, _, rfl⟩
  | configured _ _ hdec hmod => exact absurd h (not_or.mpr ⟨hdec, hmod⟩)
  | token k => cases k <;> cases hi
  | _ => cases hi

/-- A property that every instruction of the list keeps holds after the list. -/
theorem execSeq_keeps {P : State → Prop} {is : List Instr}
    (hkeep : ∀ i ∈ is, ∀ s t, P s → exec i s = .next t → P t) (hP : P s) (h : execSeq is s = .next t) :
    P t := by
  induction is generalizing s with
  | nil =>
    cases h
    exact hP
  | cons i is ih =>
    obtain ⟨u, hu⟩ := exec_next i s
    rw [execSeq_cons i is hu] at h
    obtain ⟨hhead, htail⟩ := List.forall_mem_cons.mp hkeep
    exact ih htail (hhead s u hP hu) h

theorem cfg_frozen_decode {is : List Instr} (hrun : s.dec.dstate = .run) (hend : Instr.dend ∉ is)
    (h : execSeq is s = .next t) : t.cfg = s.cfg := by
  refine (execSeq_keeps (P := fun u => u.dec.dstate = .run ∧ u.cfg = s.cfg) ?_ ⟨hrun, rfl⟩ h).2
  rintro i hi u w ⟨hu, hcfg⟩ hexec
  have hdstate := (effect_of_exec hexec).dstate (fun hs => hs.2 hu) fun he => hend (he.1 ▸ hi)
  exact ⟨hdstate.trans hu, (cfg_frozen (.inl hu) hexec).trans hcfg⟩

theorem cfg_frozen_encode {is : List Instr} (hrun : s.mod.mstate = .run) (hend : Instr.mend ∉ is)
    (h : execSeq is s = .next t) : t.cfg = s.cfg := by
  refine (execSeq_keeps (P := fun u => u.mod.mstate = .run ∧ u.cfg = s.cfg) ?_ ⟨hrun, rfl⟩ h).2
  rintro i hi u w ⟨hu, hcfg⟩ hexec
  have hmstate := (effect_of_exec hexec).mstate (fun hs => MState.ne_run.mpr hs.2 hu)
    fun he => hend (he.1 ▸ hi)
  exact ⟨hmstate.trans hu, (cfg_frozen (.inr hu) hexec).trans hcfg⟩

/-! ### IDX -/

theorem acceptSample_counts (v : Word) (h : s.dec.idx.toNat < indexLimit s.build) :
    (acceptSample s v).dec.idx.toNat = s.dec.idx.toNat + 1 := by
  have hidx : (acceptSample s v).dec.idx = s.dec.idx + 1 := by
    rw [acceptSample_belowLimit v h]
    exact congrArg (· + 1) (inspectIfDue_keeps s v).1
  rw [hidx, toNat_idx_succ h]

theorem acceptSample_overflows (v : Word) (h : indexLimit s.build ≤ s.dec.idx.toNat) :
    (acceptSample s v).dec.idx = s.dec.idx ∧
      (s.dec.errCls = none → (acceptSample s v).dec.errCls = some ⟨.indexOverflow, 0, 0⟩) := by
  rw [acceptSample_atLimit v h, State.setDec_dec]
  refine ⟨DecRegs.raise_idx .., fun hrunning => ?_⟩
  rw [DecRegs.raise_of_running _ .classifier _ _ _ hrunning]
  rfl

end

end Sys2Proof.Machine

end

section

namespace Sys2Proof.Machine

/-! ### The status read port (10_state R49) -/

/-- The fields of `S_DSTAT` at the width their own widths add up to. -/
def statusFields (d : DecRegs) :=
  d.chph ++ (0#3 ++ (d.bitcnt ++ (d.lastSign.code ++ (BitVec.ofBool d.prevValid ++
    (BitVec.ofBool d.grpOpen ++ (BitVec.ofBool d.locked ++ (BitVec.ofBool d.errVal.isSome ++
      (BitVec.ofBool d.errAsm.isSome ++ (BitVec.ofBool d.errCls.isSome ++ d.dstate.code)))))))))

theorem extractLsb'_statusWord (d : DecRegs) (start len : Nat) :
    d.statusWord.extractLsb' start len = (statusFields d).extractLsb' start len := rfl

theorem getLsbD_statusWord (d : DecRegs) (i : Nat) :
    d.statusWord.getLsbD i = (statusFields d).getLsbD i := rfl

/-- The bits of `S_DSTAT`. -/
theorem statusWord_bits (d : DecRegs) :
    d.statusWord.getLsbD 2 = d.errCls.isSome ∧ d.statusWord.getLsbD 3 = d.errAsm.isSome ∧
    d.statusWord.getLsbD 4 = d.errVal.isSome ∧ d.statusWord.getLsbD 5 = d.locked ∧
    d.statusWord.getLsbD 6 = d.grpOpen ∧ d.statusWord.getLsbD 7 = d.prevValid := by
  simp only [getLsbD_statusWord, statusFields, BitVec.getLsbD_append]
  simp

/-- The wider fields of `S_DSTAT`. -/
theorem statusWord_fields (d : DecRegs) :
    d.statusWord.extractLsb' 0 2 = d.dstate.code ∧ d.statusWord.extractLsb' 8 2 = d.lastSign.code ∧
    d.statusWord.extractLsb' 10 3 = d.bitcnt ∧ d.statusWord.extractLsb' 13 3 = 0 ∧
    d.statusWord.extractLsb' 16 16 = d.chph := by
  simp (disch := decide) only [extractLsb'_statusWord, statusFields,
    BitVec.extractLsb'_append_eq_of_le, BitVec.extractLsb'_append_eq_of_add_le]
  simp

/-- Four bytes in a word (`S_BF`, register 12). -/
theorem extractLsb'_fourBytes (b₃ b₂ b₁ b₀ : BitVec 8) :
    (b₃ ++ (b₂ ++ (b₁ ++ b₀))).extractLsb' 0 8 = b₀ ∧ (b₃ ++ (b₂ ++ (b₁ ++ b₀))).extractLsb' 8 8 = b₁ ∧
    (b₃ ++ (b₂ ++ (b₁ ++ b₀))).extractLsb' 16 8 = b₂ ∧ (b₃ ++ (b₂ ++ (b₁ ++ b₀))).extractLsb' 24 8 = b₃ := by
  simp (disch := decide) only [BitVec.extractLsb'_append_eq_of_le, BitVec.extractLsb'_append_eq_of_add_le]
  simp

/-- A field under one bit, read in a 32-bit word (register 13). -/
theorem extractLsb'_flagAndLength (b : Bool) (x : BitVec 9) :
    ((BitVec.ofBool b ++ x).setWidth 32).extractLsb' 0 9 = x ∧
    ((BitVec.ofBool b ++ x).setWidth 32).getLsbD 9 = b ∧
    ((BitVec.ofBool b ++ x).setWidth 32).extractLsb' 10 22 = 0 := by
  refine ⟨?_, ?_, ?_⟩
  · simp (disch := decide) only [BitVec.extractLsb'_setWidth_of_le, BitVec.extractLsb'_append_eq_of_add_le]
    simp
  · simp only [BitVec.getLsbD_setWidth, BitVec.getLsbD_append]
    simp
  · ext i hi
    simp

/-- Three bits, read in a 32-bit word (register 14). -/
theorem extractLsb'_threeBits (b₂ b₁ : Bool) (x : BitVec 1) :
    ((BitVec.ofBool b₂ ++ (BitVec.ofBool b₁ ++ x)).setWidth 32).extractLsb' 0 1 = x ∧
    ((BitVec.ofBool b₂ ++ (BitVec.ofBool b₁ ++ x)).setWidth 32).getLsbD 1 = b₁ ∧
    ((BitVec.ofBool b₂ ++ (BitVec.ofBool b₁ ++ x)).setWidth 32).getLsbD 2 = b₂ ∧
    ((BitVec.ofBool b₂ ++ (BitVec.ofBool b₁ ++ x)).setWidth 32).extractLsb' 3 29 = 0 := by
  revert b₂ b₁ x
  decide

/-! ### Full scale and threshold (10_state R27) -/

/-- `round(0.1 A)` as an integer division: `(2 A + 10) div 20` is `(A + 5) div 10` (00_scope R14). -/
theorem threshold_eq (b : BitVec 6) : threshold b = (maxAmplitude b + 5) / 10 := by
  simp only [threshold, roundDiv, Config.thrNum, Config.thrDen]
  omega

end Sys2Proof.Machine

end

section

namespace Sys2Proof.Machine

/-! ### The obligations of 10_state -/

/-- Settles O9: every effect of a step keeps each part of the invariant (`State.Inv.of_step`), and an operand
beyond the built width is not legal. -/
theorem stepKeepsTheInvariant : Obligations.StepKeepsTheInvariant := by
  refine ⟨fun s t h hstep => h.of_step hstep, fun s u hu => ?_, fun s u hu => ?_⟩
  · refine congrArg _ (configure_of_illegal s 0x1 _ (Bool.eq_false_iff.mpr fun hlegal => ?_))
    exact hu.not_gt ((legalOperand_setrate s.build u).mp hlegal).2
  · refine congrArg _ (configure_of_illegal s 0x2 _ (Bool.eq_false_iff.mpr fun hlegal => ?_))
    exact hu.not_gt ((legalOperand_setchan s.build u).mp hlegal).2

/-- Settles O11: a step keeps `FAULT` or refuses (`step_faultReg`), and a refusal writes a clear register
alone. -/
theorem faultRegisterIsSticky : Obligations.FaultRegisterIsSticky := by
  refine ⟨fun s t hstep hreset => ?_, fun s t hstep hreset => ?_,
    fun s reason op => ⟨refuse_of_clear reason op, refuse_of_cmdErr reason op⟩,
    fun reason op => ⟨cmdErr_faultWord reason op, faultReason_faultWord reason op,
      faultWord_bit3 reason op, faultOp_faultWord reason op⟩, rfl, rfl, rfl, rfl⟩
  · obtain hkeep | ⟨reason, op, hrefuse⟩ := step_faultReg hstep hreset
    · exact ⟨fun _ => hkeep, fun hne => absurd hkeep hne⟩
    · cases hset : cmdErr s.faultReg with
      | false =>
        rw [hset] at hrefuse
        exact ⟨nofun, fun _ => ⟨reason, op, hrefuse⟩⟩
      | true =>
        rw [hset] at hrefuse
        exact ⟨fun _ => hrefuse, fun hne => absurd hrefuse hne⟩
  · cases stepEffect_of_step hstep with
    | waits hno | rejects _ _ _ hno | runs _ _ hno => exact absurd hreset hno
    | resets rest _ _ ht => exact ht ▸ rfl

/-- Settles O21: a write of the configuration is a legal command's out of every call (`Effect.cfg`), and a call
runs until its own end command. -/
theorem configurationIsFrozenDuringACall : Obligations.ConfigurationIsFrozenDuringACall := by
  refine ⟨fun i s t hrun hexec => ⟨cfg_frozen hrun hexec, fun hi => ?_⟩,
    fun is s t => cfg_frozen_decode, fun is s t => cfg_frozen_encode, fun i s t hexec => ?_⟩
  · obtain ⟨reason, op, rfl⟩ := config_refused hi hrun hexec
    exact ⟨⟨reason, op, rfl⟩, cmdErr_refuse s reason op⟩
  · obtain hkeep | ⟨hwrite, hi, hlegal, -, -⟩ := (effect_of_exec hexec).cfg
    · simp [hkeep]
    · rw [hwrite]
      cases i with
      | setrate u =>
        have hu := (legalOperand_setrate _ u).mp hlegal
        exact ⟨fun _ => ⟨rfl, hu.1⟩, (absurd rfl ·), (absurd rfl ·), (absurd rfl ·)⟩
      | setchan u =>
        have hu := (legalOperand_setchan _ u).mp hlegal
        exact ⟨(absurd rfl ·), fun _ => ⟨rfl, hu.1⟩, (absurd rfl ·), (absurd rfl ·)⟩
      | setbits u =>
        have hu := (legalOperand_setbits _ u).mp hlegal
        exact ⟨(absurd rfl ·), (absurd rfl ·), fun _ => ⟨rfl, hu⟩, (absurd rfl ·)⟩
      | setmode u => exact ⟨(absurd rfl ·), (absurd rfl ·), (absurd rfl ·), fun _ => rfl⟩
      | _ => cases hi

/-- Settles O23: a reset edge, the four commands that start or end a call, and for the rest the frames
`Effect.dstate` and `Effect.mstate`. -/
theorem sequencingTransitions : Obligations.SequencingTransitions := by
  refine ⟨fun s t hstep => ?_, rfl, rfl, rfl, rfl, rfl⟩
  cases stepEffect_of_step hstep with
  | waits hreset hnext ht => simp [ht, hreset, hnext]
  | resets rest hreset hnext ht => simp [ht, hreset, hnext, DecRegs.reset, ModRegs.reset]
  | rejects rest reason op hreset hnext ht => simp [ht, hreset, hnext]
  | runs rest i hreset hnext hexec =>
    have heffect := effect_of_exec hexec
    simp only [hnext, Option.some.injEq, ← DState.ne_run]
    refine ⟨fun h => absurd h hreset, ?_, ?_, fun _ => heffect.dstate, ?_, ?_, fun _ => heffect.mstate⟩
    · rintro rfl hready
      rw [eq_of_exec hexec (exec_dstart_ready _ hready)]
      rfl
    · rintro rfl hrun
      rw [eq_of_exec hexec (exec_dend_running _ hrun)]
      rfl
    · rintro rfl hready
      rw [eq_of_exec hexec (exec_mstart_ready _ hready)]
      rfl
    · rintro rfl hrun
      rw [eq_of_exec hexec (exec_mend_running _ hrun)]
      rfl

/-- Settles O24: reset and `DSTART` clear `IDX`, a sample counts below the limit and overflows at it, and for
the rest the frame `Effect.idx`. -/
theorem idxCountsSamples : Obligations.IdxCountsSamples := by
  refine ⟨fun s t hstep => ?_, rfl⟩
  cases stepEffect_of_step hstep with
  | waits hreset hnext ht => simp [ht, hreset, hnext]
  | resets rest hreset hnext ht => simp [ht, hreset, hnext, DecRegs.reset]
  | rejects rest reason op hreset hnext ht => simp [ht, hreset, hnext]
  | runs rest i hreset hnext hexec =>
    simp only [hnext, Option.some.injEq]
    refine ⟨fun h => absurd h hreset, ?_, ?_, ?_, fun _ => (effect_of_exec hexec).idx⟩
    · rintro rfl hready
      rw [eq_of_exec hexec (exec_dstart_ready _ hready)]
      rfl
    · rintro v rfl hrun hroom
      rw [eq_of_exec hexec (exec_sample_running v _ hrun)]
      exact acceptSample_counts v hroom
    · rintro v rfl hrun hlimit
      rw [eq_of_exec hexec (exec_sample_running v _ hrun)]
      exact acceptSample_overflows v hlimit.ge

/-- Settles O25: by the invariant the latest crossing and the next sample are frame starts, and a negative
sample after that crossing came at least a frame after it. -/
theorem crossingsAreTwoFramesApart : Obligations.CrossingsAreTwoFramesApart := by
  intro s v h hinspect _ _ hneg hvalid
  have hrun := hinspect.run
  have hstart : s.dec.idx.toNat % s.cfg.chan.toNat = 0 :=
    (h.phase hrun).symm.trans (congrArg BitVec.toNat hinspect.channel)
  have hnext : s.dec.prevIdx.toNat + s.cfg.chan.toNat ≡ s.dec.idx.toNat [MOD s.cfg.chan.toNat] :=
    (Nat.add_mod_right ..).trans ((h.prevInspected hrun).trans hstart.symm)
  have hframe := hnext.add_le_of_lt (h.negAfterPrev hrun hvalid hneg)
  have hsub : (s.dec.idx - s.dec.prevIdx).toNat = s.dec.idx.toNat - s.dec.prevIdx.toNat :=
    BitVec.toNat_sub_of_le (BitVec.le_def.mpr (h.prevBefore hvalid).le)
  exact ⟨by omega, hsub⟩

theorem buildHoldsReset_decided : BuildHoldsReset BuildParams.decided := ⟨by decide, by decide, by decide⟩

/-- Settles O8: the reset state is what a reset edge leaves of itself. -/
theorem resetMeetsTheInvariant : Obligations.ResetMeetsTheInvariant :=
  inv_assertReset (s := State.reset) buildHoldsReset_decided

/-- Settles O22: `maxAmplitude` by definition, the threshold by `threshold_eq`, ties and values over the
6-bit depths. -/
theorem fullScaleAndThreshold : Obligations.FullScaleAndThreshold := by
  have hties : ∀ b : BitVec 6, 1 ≤ b.toNat → b.toNat ≤ 32 →
      (maxAmplitude b % 10 = 5 ↔ b ∈ ([5, 9, 13, 17, 21, 25, 29] : List (BitVec 6))) := by decide
  exact ⟨fun b hlo hhi => ⟨rfl, threshold_eq b, hties b hlo hhi⟩, by decide⟩

/-- Settles O26: a register read whole is the read's own case; the packed words are read field by field. -/
theorem statusPortMap : Obligations.StatusPortMap := by
  intro s
  obtain ⟨hcls, hasm, hval, hlocked, hgrp, hprev⟩ := statusWord_bits s.dec
  obtain ⟨hdstate, hsign, hbitcnt, hzero, hchph⟩ := statusWord_fields s.dec
  exact ⟨rfl, rfl, rfl, rfl,
    ⟨hdstate, hcls, hasm, hval, hlocked, hgrp, hprev, hsign, hbitcnt, hzero, hchph⟩,
    rfl, rfl, rfl, rfl, rfl, rfl, rfl, extractLsb'_fourBytes _ _ _ _, extractLsb'_flagAndLength _ _,
    extractLsb'_threeBits _ _ _, rfl⟩

end Sys2Proof.Machine

end

section

namespace Sys2Proof.Machine

/-! ### The halves of the machine (20_memory R77)

Each path reads the configuration, the build, its own registers and its own stream, and nothing else. -/

/-- What the decode path reads and writes. -/
structure DecodeHalf where
  cfg : CfgRegs
  build : BuildParams
  dec : DecRegs
  doStream : List DoToken

/-- What the encode path reads and writes. -/
structure EncodeHalf where
  cfg : CfgRegs
  build : BuildParams
  mod : ModRegs
  moStream : List Word

def State.decodeHalf (s : State) : DecodeHalf := ⟨s.cfg, s.build, s.dec, s.doStream⟩

def State.encodeHalf (s : State) : EncodeHalf := ⟨s.cfg, s.build, s.mod, s.moStream⟩

@[simp] theorem State.refuse_decodeHalf (s : State) (reason : Reason) (op : BitVec 4) :
    (s.refuse reason op).decodeHalf = s.decodeHalf := by simp [State.decodeHalf]

@[simp] theorem State.refuse_encodeHalf (s : State) (reason : Reason) (op : BitVec 4) :
    (s.refuse reason op).encodeHalf = s.encodeHalf := by simp [State.encodeHalf]

theorem OnlyModulator.decodeHalf {s t : State} (h : OnlyModulator s t) : t.decodeHalf = s.decodeHalf := by
  simp [State.decodeHalf, h.cfg, h.build, h.dec, h.doStream]

theorem OnlyDecoder.encodeHalf {s t : State} (h : OnlyDecoder s t) : t.encodeHalf = s.encodeHalf := by
  simp [State.encodeHalf, h.cfg, h.build, h.mod, h.moStream]

/-- One branch taken on both sides. -/
theorem ite_rel {R : State → State → Prop} {p : Prop} [Decidable p] {s t x y : State} (h : R x s)
    (k : R y t) : R (if p then x else y) (if p then s else t) := by
  split
  · exact h
  · exact k

/-! ### The decode path works on its half

The decode half of one state put into another: every operation of the path commutes with that. -/

/-- The decode half of `s` with everything else as in `o`. -/
def State.decodeIn (s o : State) : State :=
  { o with cfg := s.cfg, build := s.build, dec := s.dec, doStream := s.doStream }

theorem State.decodeIn_of_decodeHalf_eq {s o : State} (h : o.decodeHalf = s.decodeHalf) : s.decodeIn o = o := by
  obtain ⟨hcfg, hbuild, hdec, hstream⟩ := DecodeHalf.mk.inj h
  rw [State.decodeIn, ← hcfg, ← hbuild, ← hdec, ← hstream]

theorem ite_decodeHalf {s t x y : State} {p : Prop} [Decidable p] (h : x.decodeHalf = s.decodeHalf)
    (k : y.decodeHalf = t.decodeHalf) : (if p then x else y).decodeHalf = (if p then s else t).decodeHalf :=
  ite_rel (R := fun x s => x.decodeHalf = s.decodeHalf) h k

theorem decodeHalf_of_eq_decodeIn {s o x : State} (h : x = s.decodeIn o) : x.decodeHalf = s.decodeHalf :=
  h ▸ rfl

theorem ite_decodeIn {s t o x y : State} {p : Prop} [Decidable p] (h : x = s.decodeIn o)
    (k : y = t.decodeIn o) : (if p then x else y) = (if p then s else t).decodeIn o :=
  ite_rel (R := fun x s => x = s.decodeIn o) h k

section

variable (s o : State)

theorem emitByte_decodeIn (v : Byte) : emitByte (s.decodeIn o) v = (emitByte s v).decodeIn o :=
  congrArg (fun u : State => u.setDec { u.dec with bytecnt := u.dec.bytecnt + 1 })
    (ite_decodeIn (s := (s.emitDo (.ob v)).setDec (cvByte s.dec v s.dec.bytecnt.toNat))
      (t := s.emitDo (.ob v)) (p := s.cvActive = true) rfl rfl)

theorem push_decodeIn (b : Bool) : push (s.decodeIn o) b = (push s b).decodeIn o :=
  ite_decodeIn
    (emitByte_decodeIn (s.setDec { s.dec with bsr := shiftIn s.dec.bsr b, bitcnt := 0 }) o _) rfl

theorem acceptBit_decodeIn (b : Bool) : acceptBit (s.decodeIn o) b = (acceptBit s b).decodeIn o :=
  ite_decodeIn (push_decodeIn s o b) rfl

theorem pulseZero_decodeIn : pulseZero (s.decodeIn o) = (pulseZero s).decodeIn o :=
  ite_decodeIn rfl (acceptBit_decodeIn s o false)

theorem pulseOne_decodeIn : pulseOne (s.decodeIn o) = (pulseOne s).decodeIn o :=
  ite_decodeIn rfl (acceptBit_decodeIn s o true)

theorem pulseStart_decodeIn : pulseStart (s.decodeIn o) = (pulseStart s).decodeIn o :=
  ite_decodeIn rfl (ite_decodeIn (acceptBit_decodeIn s o false) (ite_decodeIn rfl rfl))

theorem flushTail_decodeIn : flushTail (s.decodeIn o) = (flushTail s).decodeIn o :=
  ite_decodeIn (emitByte_decodeIn (s.setDec { s.dec with bitcnt := 0 }) o _) rfl

theorem sectionEnd_decodeIn : sectionEnd (s.decodeIn o) = (sectionEnd s).decodeIn o := by
  unfold sectionEnd
  rw [flushTail_decodeIn]
  rfl

theorem gend_decodeIn : gend (s.decodeIn o) = (gend s).decodeIn o :=
  ite_decodeIn rfl (ite_decodeIn (sectionEnd_decodeIn s o) rfl)

theorem pulse_decodeIn (k : PulseKind) : pulse (s.decodeIn o) k = (pulse s k).decodeIn o :=
  match k with
  | .zero => pulseZero_decodeIn (s.setDec { s.dec with grpOpen := true }) o
  | .one => pulseOne_decodeIn (s.setDec { s.dec with grpOpen := true }) o
  | .start => pulseStart_decodeIn (s.setDec { s.dec with grpOpen := true }) o
  | .gap => congrArg (fun u : State => u.setDec { u.dec with grpOpen := false }) (gend_decodeIn s o)

theorem measure_decodeIn (d c : Word) : measure (s.decodeIn o) d c = (measure s d c).decodeIn o := by
  have hcfg : (s.decodeIn o).cfg = s.cfg := rfl
  unfold measure
  rw [hcfg]
  split
  · rfl
  · exact pulse_decodeIn s o _

theorem cross_decodeIn (c : Word) : cross (s.decodeIn o) c = (cross s c).decodeIn o :=
  congrArg (fun u : State => u.setDec { u.dec with prevValid := true, prevIdx := c })
    (ite_decodeIn (p := s.dec.prevValid = true) (measure_decodeIn s o _ c) rfl)

theorem update_decodeIn (v i : Word) : update (s.decodeIn o) v i = (update s v i).decodeIn o :=
  congrArg (fun u : State => u.setDec { u.dec with lastSign := signOf v })
    (ite_decodeIn (p := isCrossing s.dec.lastSign v = true) (cross_decodeIn s o i) rfl)

theorem inspect_decodeIn (v i : Word) : inspect (s.decodeIn o) v i = (inspect s v i).decodeIn o :=
  ite_decodeIn (update_decodeIn s o v i) rfl

theorem acceptSample_decodeIn (v : Word) :
    acceptSample (s.decodeIn o) v = (acceptSample s v).decodeIn o :=
  ite_decodeIn rfl
    (congrArg advance (ite_decodeIn (p := inspected s.dec = true) (inspect_decodeIn s o v _) rfl))

theorem flushGroup_decodeIn : flushGroup (s.decodeIn o) = (flushGroup s).decodeIn o :=
  ite_decodeIn
    (congrArg (fun u : State => u.setDec { u.dec with grpOpen := false }) (gend_decodeIn s o)) rfl

theorem requireHeader_decodeIn : requireHeader (s.decodeIn o) = (requireHeader s).decodeIn o :=
  ite_decodeIn rfl rfl

theorem report_decodeIn : report (s.decodeIn o) = (report s).decodeIn o := rfl

theorem endDecode_decodeIn : endDecode (s.decodeIn o) = (endDecode s).decodeIn o := by
  unfold endDecode
  rw [flushGroup_decodeIn, requireHeader_decodeIn, report_decodeIn]

end

end Sys2Proof.Machine

end

section

namespace Sys2Proof.Machine

/-! ### The encode path works on its half

The same for the encode half. -/

/-- The encode half of `s` with everything else as in `o`. -/
def State.encodeIn (s o : State) : State :=
  { o with cfg := s.cfg, build := s.build, mod := s.mod, moStream := s.moStream }

theorem State.encodeIn_of_encodeHalf_eq {s o : State} (h : o.encodeHalf = s.encodeHalf) : s.encodeIn o = o := by
  obtain ⟨hcfg, hbuild, hmod, hstream⟩ := EncodeHalf.mk.inj h
  rw [State.encodeIn, ← hcfg, ← hbuild, ← hmod, ← hstream]

theorem ite_encodeHalf {s t x y : State} {p : Prop} [Decidable p] (h : x.encodeHalf = s.encodeHalf)
    (k : y.encodeHalf = t.encodeHalf) : (if p then x else y).encodeHalf = (if p then s else t).encodeHalf :=
  ite_rel (R := fun x s => x.encodeHalf = s.encodeHalf) h k

theorem encodeHalf_of_eq_encodeIn {s o x : State} (h : x = s.encodeIn o) : x.encodeHalf = s.encodeHalf :=
  h ▸ rfl

theorem ite_encodeIn {s t o x y : State} {p : Prop} [Decidable p] (h : x = s.encodeIn o)
    (k : y = t.encodeIn o) : (if p then x else y) = (if p then s else t).encodeIn o :=
  ite_rel (R := fun x s => x = s.encodeIn o) h k

section

variable (s o : State)

theorem openBurst_encodeIn : openBurst (s.encodeIn o) = (openBurst s).encodeIn o :=
  congrArg (fun u : State => (u.emitMo (leader u.build.sine u.cfg)).setMod { u.mod with inPay := true })
    (ite_encodeIn (p := s.mod.havePrev = true) (s := s.emitMo (silence s.cfg)) (t := s) rfl rfl)

theorem ensureBurst_encodeIn : ensureBurst (s.encodeIn o) = (ensureBurst s).encodeIn o :=
  ite_encodeIn rfl (openBurst_encodeIn s o)

theorem payloadByte_encodeIn (u : Byte) :
    payloadByte (s.encodeIn o) u = (payloadByte s u).encodeIn o :=
  congrArg (fun t : State => t.emitMo (tones t.build.sine t.cfg u)) (ensureBurst_encodeIn s o)

theorem payloadEnd_encodeIn : payloadEnd (s.encodeIn o) = (payloadEnd s).encodeIn o :=
  congrArg (fun u : State => u.setMod { u.mod with inPay := false, havePrev := true })
    (ensureBurst_encodeIn s o)

end

end Sys2Proof.Machine

end

section

namespace Sys2Proof.Machine

/-! ### What a command of one path does -/

section

variable {i : Instr} {s t o u : State}

theorem not_isConfig_of_decodePath (hi : i.isDecode = true ∨ i.isPulse = true) : i.isConfig = false := by
  cases i with
  | setrate | setchan | setbits | setmode => simp [Instr.isDecode, Instr.isPulse] at hi
  | _ => rfl

theorem not_isConfig_of_isEncode (hi : i.isEncode = true) : i.isConfig = false := by
  cases i with
  | setrate | setchan | setbits | setmode => cases hi
  | _ => rfl

/-- Only a configuration command has an operand to refuse (30_encoding R91). -/
theorem legalOperand_of_not_isConfig (build : BuildParams) (hi : i.isConfig = false) :
    legalOperand build i = true := by
  cases i with
  | setrate | setchan | setbits | setmode => cases hi
  | _ => rfl

/-- Any other command is refused for the state alone (40_control R121). -/
theorem not_allowed_of_refusable (hi : i.isConfig = false)
    (hbad : legalOperand s.build i = false ∨ allowed i s = false) : allowed i s = false :=
  hbad.resolve_left (by simp [legalOperand_of_not_isConfig s.build hi])

/-- A command of the decode path, or a token in it, keeps to the path or is refused (20_memory R77). -/
theorem Effect.decode (h : Effect i s t) (hi : i.isDecode = true ∨ i.isPulse = true) :
    OnlyDecoder s t ∨ (allowed i s = false ∧ ∃ reason op, t = s.refuse reason op) := by
  have hconfig := not_isConfig_of_decodePath hi
  cases h with
  | refused reason hop hbad => exact .inr ⟨not_allowed_of_refusable hconfig hbad, reason, _, rfl⟩
  | configured hi => exact absurd hi (by simp [hconfig])
  | dstart => exact .inl (.setDec s _)
  | sample v => exact .inl (acceptSample_only s v)
  | dend => exact .inl (endDecode_only s)
  | token k => exact .inl (deliver_frame k s).toOnlyDecoder
  | nop | mstart | pbyte | pend | mend => simp [Instr.isDecode, Instr.isPulse] at hi

/-- A command of the encode path keeps to the path or is refused (20_memory R77). -/
theorem Effect.encode (h : Effect i s t) (hi : i.isEncode = true) :
    OnlyModulator s t ∨ (allowed i s = false ∧ ∃ reason op, t = s.refuse reason op) := by
  have hconfig := not_isConfig_of_isEncode hi
  cases h with
  | refused reason hop hbad => exact .inr ⟨not_allowed_of_refusable hconfig hbad, reason, _, rfl⟩
  | configured hi => exact absurd hi (by simp [hconfig])
  | mstart | mend => exact .inl (.setMod s _)
  | pbyte u => exact .inl (payloadByte_only s u)
  | pend => exact .inl (payloadEnd_only s)
  | token k => cases k <;> cases hi
  | nop | dstart | sample | dend => cases hi

/-- The decoder registers and `DO` are written by the decode path alone (20_memory R77). -/
theorem Effect.decoder (h : Effect i s t) (hdecode : i.isDecode = false) (hpulse : i.isPulse = false) :
    t.dec = s.dec ∧ t.doStream = s.doStream := by
  cases h with
  | refused => simp
  | nop | configured | mstart | mend => exact ⟨rfl, rfl⟩
  | pbyte u => exact ⟨(payloadByte_only s u).dec, (payloadByte_only s u).doStream⟩
  | pend => exact ⟨(payloadEnd_only s).dec, (payloadEnd_only s).doStream⟩
  | dstart | sample | dend => cases hdecode
  | token k => cases k <;> cases hpulse

/-- The modulator registers and `MO` are written by the encode path alone (20_memory R77). -/
theorem Effect.modulator (h : Effect i s t) (hencode : i.isEncode = false) :
    t.mod = s.mod ∧ t.moStream = s.moStream := by
  cases h with
  | refused => simp
  | nop | configured | dstart => exact ⟨rfl, rfl⟩
  | sample v => exact ⟨(acceptSample_only s v).mod, (acceptSample_only s v).moStream⟩
  | dend => exact ⟨(endDecode_only s).mod, (endDecode_only s).moStream⟩
  | token k => exact ⟨(deliver_frame k s).mod, (deliver_frame k s).moStream⟩
  | mstart | pbyte | pend | mend => cases hencode

/-! ### A command of one path keeps the other half -/

/-- An encode command leaves the decode half alone, accepted or refused. -/
theorem decodeHalf_of_isEncode (hi : i.isEncode = true) (h : exec i s = .next t) :
    t.decodeHalf = s.decodeHalf := by
  obtain honly | ⟨-, reason, op, rfl⟩ := (effect_of_exec h).encode hi
  · exact honly.decodeHalf
  · simp

/-- A decode command leaves the encode half alone, accepted or refused. -/
theorem encodeHalf_of_isDecode (hi : i.isDecode = true) (h : exec i s = .next t) :
    t.encodeHalf = s.encodeHalf := by
  obtain honly | ⟨-, reason, op, rfl⟩ := (effect_of_exec h).decode (.inl hi)
  · exact honly.encodeHalf
  · simp

/-! ### A command of one path reads its own half alone -/

/-- From equal decode halves a decode command leads to equal decode halves. -/
theorem exec_decodeHalf_congr (hi : i.isDecode = true) (h : o.decodeHalf = s.decodeHalf)
    (hs : exec i s = .next t) (ho : exec i o = .next u) : u.decodeHalf = t.decodeHalf := by
  rw [← State.decodeIn_of_decodeHalf_eq h] at ho
  have hrefuse (op : BitVec 4) :
      ((s.decodeIn o).refuse .wrongState op).decodeHalf = (s.refuse .wrongState op).decodeHalf := by
    rw [State.refuse_decodeHalf, State.refuse_decodeHalf]
    rfl
  cases i with
  | dstart =>
    cases hs
    cases ho
    exact ite_decodeHalf (hrefuse _) rfl
  | sample v =>
    cases hs
    cases ho
    exact ite_decodeHalf (decodeHalf_of_eq_decodeIn (acceptSample_decodeIn s o v)) (hrefuse _)
  | dend =>
    cases hs
    cases ho
    exact ite_decodeHalf (decodeHalf_of_eq_decodeIn (endDecode_decodeIn s o)) (hrefuse _)
  | _ => cases hi

/-- From equal encode halves an encode command leads to equal encode halves. -/
theorem exec_encodeHalf_congr (hi : i.isEncode = true) (h : o.encodeHalf = s.encodeHalf)
    (hs : exec i s = .next t) (ho : exec i o = .next u) : u.encodeHalf = t.encodeHalf := by
  rw [← State.encodeIn_of_encodeHalf_eq h] at ho
  have hrefuse (op : BitVec 4) :
      ((s.encodeIn o).refuse .wrongState op).encodeHalf = (s.refuse .wrongState op).encodeHalf := by
    rw [State.refuse_encodeHalf, State.refuse_encodeHalf]
    rfl
  cases i with
  | mstart =>
    cases hs
    cases ho
    exact ite_encodeHalf (hrefuse _) rfl
  | pbyte v =>
    cases hs
    cases ho
    exact ite_encodeHalf (encodeHalf_of_eq_encodeIn (payloadByte_encodeIn s o v)) (hrefuse _)
  | pend =>
    cases hs
    cases ho
    exact ite_encodeHalf (encodeHalf_of_eq_encodeIn (payloadEnd_encodeIn s o)) (hrefuse _)
  | mend =>
    cases hs
    cases ho
    exact ite_encodeHalf rfl (hrefuse _)
  | _ => cases hi

end

end Sys2Proof.Machine

end

section

namespace Sys2Proof.Machine

/-! ### Interleavings -/

section

variable {i : Instr} {s t o u : State}

/-- A sequence and its commands of one class, seen through `f`: a command of the class acts on `f` alone,
any other command keeps it. -/
theorem execSeq_filter {α : Type} {f : State → α} {p : Instr → Bool} {is : List Instr}
    (hin : ∀ i s o t u, p i = true → f o = f s → exec i s = .next t → exec i o = .next u → f u = f t)
    (hout : ∀ i ∈ is, ∀ s t, p i = false → exec i s = .next t → f t = f s)
    (h : f o = f s) (hs : execSeq is s = .next t) (ho : execSeq (is.filter p) o = .next u) :
    f u = f t := by
  induction is generalizing s o with
  | nil =>
    cases hs
    cases ho
    exact h
  | cons i is ih =>
    obtain ⟨hhead, htail⟩ := List.forall_mem_cons.mp hout
    obtain ⟨s', hs'⟩ := exec_next i s
    rw [execSeq_cons i is hs'] at hs
    cases hp : p i with
    | false =>
      rw [List.filter_cons_of_neg (by simp [hp])] at ho
      exact ih htail (h.trans (hhead s s' hp hs').symm) hs ho
    | true =>
      obtain ⟨o', ho'⟩ := exec_next i o
      rw [List.filter_cons_of_pos hp, execSeq_cons i _ ho'] at ho
      exact ih htail (hin i s o s' o' hp h hs' ho') hs ho

theorem cfg_of_not_isConfig (hi : i.isConfig = false) (h : exec i s = .next t) : t.cfg = s.cfg := by
  obtain hkeep | ⟨-, hconfig, -⟩ := (effect_of_exec h).cfg
  · exact hkeep
  · exact absurd hconfig (by simp [hi])

theorem eq_of_exec_nop (h : exec .nop s = .next t) : t = s := eq_of_exec h rfl

end

/-- A sequence of commands of a decode call and an encode call, in any order (20_memory R77). -/
def Interleaving (is : List Instr) : Prop :=
  ∀ i ∈ is, i = .nop ∨ i.isDecode = true ∨ i.isEncode = true

section

variable {is : List Instr} {s t a : State}

theorem Interleaving.decodeHalf (h : Interleaving is) (hs : execSeq is s = .next t)
    (ha : execSeq (is.filter Instr.isDecode) s = .next a) : t.decodeHalf = a.decodeHalf := by
  refine (execSeq_filter (fun i s o t u hi => exec_decodeHalf_congr hi) (fun i hi s t hp hexec => ?_)
    rfl hs ha).symm
  obtain rfl | hdecode | hencode := h i hi
  · rw [eq_of_exec_nop hexec]
  · exact absurd hdecode (by simp [hp])
  · exact decodeHalf_of_isEncode hencode hexec

theorem Interleaving.encodeHalf (h : Interleaving is) (hs : execSeq is s = .next t)
    (ha : execSeq (is.filter Instr.isEncode) s = .next a) : t.encodeHalf = a.encodeHalf := by
  refine (execSeq_filter (fun i s o t u hi => exec_encodeHalf_congr hi) (fun i hi s t hp hexec => ?_)
    rfl hs ha).symm
  obtain rfl | hdecode | hencode := h i hi
  · rw [eq_of_exec_nop hexec]
  · exact encodeHalf_of_isDecode hdecode hexec
  · exact absurd hencode (by simp [hp])

theorem Interleaving.cfg (h : Interleaving is) (hs : execSeq is s = .next t) : t.cfg = s.cfg := by
  refine execSeq_keeps (P := fun u => u.cfg = s.cfg) (fun i hi u w hu hexec => ?_) rfl hs
  refine (cfg_of_not_isConfig ?_ hexec).trans hu
  obtain rfl | hdecode | hencode := h i hi
  · rfl
  · exact not_isConfig_of_decodePath (.inl hdecode)
  · exact not_isConfig_of_isEncode hencode

end

end Sys2Proof.Machine

end

section

namespace Sys2Proof.Machine

/-! ### The range of the samples (20_memory R63, 45_arithmetic R304) -/

theorem maxAmplitude_lt {bits : BitVec 6} (h : bits.toNat ≤ 32) : maxAmplitude bits < 2 ^ 31 :=
  (Nat.sub_lt (by positivity) one_pos).trans_le (Nat.pow_le_pow_right two_pos (by omega))

/-- Full scale at any depth is small against the 20 digits that `quarter` starts with. -/
theorem two_mul_maxAmplitude_lt (bits : BitVec 6) : 2 * maxAmplitude bits < 10 ^ 20 := by
  have hpow : 2 ^ (bits.toNat - 1) ≤ 2 ^ 62 := Nat.pow_le_pow_right two_pos (by omega)
  unfold maxAmplitude
  omega

theorem Sine.sinq_bounds (r a f i : Nat) : -(a : Int) ≤ Sine.sinq r a f i ∧ Sine.sinq r a f i ≤ a := by
  simp only [Sine.sinq]
  split <;> omega

theorem Sine.supplied_bounds (sine : List SineTable) (c : CfgRegs) (b : Bool) (i : Nat) :
    -(maxAmplitude c.bits : Int) ≤ Sine.supplied sine c b i ∧ Sine.supplied sine c b i ≤ maxAmplitude c.bits := by
  unfold Sine.supplied
  split
  · exact Sine.sinq_bounds ..
  · exact Sine.constrain_bounds ..

/-- A sample of `MO` within full scale. -/
def InRange (c : CfgRegs) (v : Word) : Prop :=
  -(maxAmplitude c.bits : Int) ≤ v.toInt ∧ v.toInt ≤ maxAmplitude c.bits

theorem inRange_zero (c : CfgRegs) : InRange c 0 := by simp [InRange]

theorem toneSample_inRange (sine : List SineTable) {c : CfgRegs} (hbits : c.bits.toNat ≤ 32) (b : Bool)
    (i : Nat) : InRange c (toneSample sine c b i) := by
  have hbounds := Sine.supplied_bounds sine c b i
  have hfull := maxAmplitude_lt hbits
  have hexact : (toneSample sine c b i).toInt = Sine.supplied sine c b i :=
    BitVec.toInt_ofInt_eq_self (by decide) (by omega) (by omega)
  rwa [InRange, hexact]

section

variable (sine : List SineTable) {c : CfgRegs} (hbits : c.bits.toNat ≤ 32) {v : Word}

include hbits

theorem bitTone_inRange {b : Bool} (hv : v ∈ bitTone sine c b) : InRange c v := by
  obtain ⟨i, -, rfl⟩ := List.mem_map.mp hv
  exact toneSample_inRange sine hbits b i

theorem tones_inRange {u : Byte} (hv : v ∈ tones sine c u) : InRange c v := by
  obtain ⟨k, -, hk⟩ := List.mem_flatMap.mp hv
  exact bitTone_inRange sine hbits hk

theorem leader_inRange (hv : v ∈ leader sine c) : InRange c v := by
  obtain hpre | hmark := List.mem_append.mp hv
  · obtain ⟨vs, hvs, hmem⟩ := List.mem_flatten.mp hpre
    exact tones_inRange sine hbits (List.eq_of_mem_replicate hvs ▸ hmem)
  · exact tones_inRange sine hbits hmark

end

theorem silence_inRange {c : CfgRegs} {v : Word} (hv : v ∈ silence c) : InRange c v :=
  List.eq_of_mem_replicate hv ▸ inRange_zero c

end Sys2Proof.Machine

end

section

namespace Sys2Proof.Machine

/-! ### What an instruction appends to MO -/

/-- `MO` after `t` is `MO` after `s` and then samples within the full scale of `s`. -/
def EmitsInRange (s t : State) : Prop :=
  ∃ added, t.moStream = s.moStream ++ added ∧ ∀ v ∈ added, InRange s.cfg v

section

variable {i : Instr} {s t u : State}

theorem EmitsInRange.of_moStream_eq (h : t.moStream = s.moStream) : EmitsInRange s t :=
  ⟨[], by simp [h], nofun⟩

theorem EmitsInRange.trans (h : EmitsInRange s t) (k : EmitsInRange t u) (hcfg : t.cfg = s.cfg) :
    EmitsInRange s u := by
  obtain ⟨vs, ht, hvs⟩ := h
  obtain ⟨ws, hu, hws⟩ := k
  exact ⟨vs ++ ws, by rw [hu, ht, List.append_assoc],
    List.forall_mem_append.mpr ⟨hvs, hcfg ▸ hws⟩⟩

theorem EmitsInRange.emitMo {vs : List Word} (h : ∀ v ∈ vs, InRange s.cfg v) : EmitsInRange s (s.emitMo vs) :=
  ⟨vs, rfl, h⟩

theorem openBurst_emitsInRange (hbits : s.cfg.bits.toNat ≤ 32) : EmitsInRange s (openBurst s) := by
  refine ⟨_, (openBurst_moStream s).trans (List.append_assoc ..),
    List.forall_mem_append.mpr ⟨fun v hv => ?_, fun v => leader_inRange _ hbits⟩⟩
  split at hv
  · exact silence_inRange hv
  · exact absurd hv List.not_mem_nil

theorem ensureBurst_emitsInRange (hbits : s.cfg.bits.toNat ≤ 32) : EmitsInRange s (ensureBurst s) := by
  unfold ensureBurst
  split
  · exact .of_moStream_eq rfl
  · exact openBurst_emitsInRange hbits

theorem payloadByte_emitsInRange (hbits : s.cfg.bits.toNat ≤ 32) (u : Byte) :
    EmitsInRange s (payloadByte s u) := by
  have hcfg := (ensureBurst_only s).cfg
  exact (ensureBurst_emitsInRange hbits).trans (.emitMo fun v => tones_inRange _ (hcfg ▸ hbits)) hcfg

/-- An instruction appends nothing to `MO`, or the samples of an opening and of a byte. -/
theorem Effect.emitsInRange (h : Effect i s t) (hbits : s.cfg.bits.toNat ≤ 32) : EmitsInRange s t := by
  cases h with
  | nop | configured | dstart | mstart | mend => exact .of_moStream_eq rfl
  | refused => exact .of_moStream_eq (State.refuse_moStream ..)
  | sample v => exact .of_moStream_eq (acceptSample_only s v).moStream
  | dend => exact .of_moStream_eq (endDecode_only s).moStream
  | pbyte u => exact payloadByte_emitsInRange hbits u
  | pend => exact ensureBurst_emitsInRange hbits
  | token k => exact .of_moStream_eq (deliver_frame k s).moStream

end

end Sys2Proof.Machine

end

section

namespace Sys2Proof.Machine

/-! ### The first sample of a bit (43_modulator R184) -/

/-- At phase 0 the enclosure lies within half a unit of 0, and both its ends round to 0. -/
theorem Sine.ends_zero {a d : Nat} (r n : Nat) (ha : 2 * a < 10 ^ d) : Sine.ends r a 0 d n = (0, 0) := by
  have hround (q x : Nat) (hx : x ≤ q * 10 ^ d + 2 * a * q) : x / (2 * q * 10 ^ d) = 0 := by
    obtain rfl | hq := Nat.eq_zero_or_pos q
    · simp
    · refine Nat.div_eq_of_lt (hx.trans_lt ?_)
      calc q * 10 ^ d + 2 * a * q < q * 10 ^ d + 10 ^ d * q := by gcongr
        _ = 2 * q * 10 ^ d := by ring
  simp only [Sine.ends, Sine.taylor, Nat.zero_mul, Nat.mul_zero, Nat.zero_add]
  rw [hround _ _ (Nat.le_refl _), hround _ _ ((Nat.sub_le _ _).trans (Nat.le_add_right _ _))]

theorem Sine.phase_zero (r : Nat) : Sine.phase r 0 = (false, 0) := by simp [Sine.phase]

theorem Sine.sinq_zero {r a : Nat} (f : Nat) (hr : r ≠ 0) (ha : 2 * a < 10 ^ 20) : Sine.sinq r a f 0 = 0 := by
  have hquarter : Sine.quarter r a 0 = 0 := by
    simp [Sine.quarter, hr.symm, Sine.nearest, Sine.ends_zero r 13 ha]
  simp [Sine.sinq, Sine.phase_zero, hquarter]

theorem samplesPerBit_zero (b : Bool) : samplesPerBit 0 b = 0 := by cases b <;> rfl

theorem Sine.supplied_zero (sine : List SineTable) {c : CfgRegs} (b : Bool) (hrate : c.rate ≠ 0) :
    Sine.supplied sine c b 0 = 0 := by
  have hr : c.rate.toNat ≠ 0 := fun hzero => hrate (BitVec.eq_of_toNat_eq hzero)
  unfold Sine.supplied
  split
  · exact Sine.sinq_zero _ hr (two_mul_maxAmplitude_lt _)
  · exact Sine.constrain_zero ..

theorem bitTone_head? (sine : List SineTable) {c : CfgRegs} {b : Bool} (h : bitTone sine c b ≠ []) :
    (bitTone sine c b).head? = some 0 := by
  have hcount : samplesPerBit c.rate b ≠ 0 := by
    rwa [← bitTone_length sine, ne_eq, List.length_eq_zero_iff]
  have hrate : c.rate ≠ 0 := fun hzero => hcount (hzero ▸ samplesPerBit_zero b)
  obtain ⟨n, hn⟩ := Nat.exists_eq_succ_of_ne_zero hcount
  have hfirst : (bitTone sine c b).head? = some (toneSample sine c b 0) := by
    simp [bitTone, hn, List.range_succ_eq_map]
  rw [hfirst, toneSample, Sine.supplied_zero sine b hrate]
  rfl

end Sys2Proof.Machine

end

section

namespace Sys2Proof.Machine

/-! ### The obligations of 20_memory -/

/-- Settles O27: each path's commands act on their own half of the state alone, so a sequence and the commands
of one path in it agree on that half (`execSeq_filter`, by induction over the sequence). -/
theorem pathsAreIndependent : Obligations.PathsAreIndependent := by
  refine ⟨fun i s t hexec => ⟨(effect_of_exec hexec).decoder, (effect_of_exec hexec).modulator⟩,
    fun is s h => ?_, fun i s t hi hallowed hexec => ?_, fun i s t hi hallowed hexec => ?_⟩
  · replace h : Interleaving is := h
    obtain ⟨t, ht⟩ := execSeq_next is s
    obtain ⟨a, ha⟩ := execSeq_next (is.filter Instr.isDecode) s
    obtain ⟨b, hb⟩ := execSeq_next (is.filter Instr.isEncode) s
    obtain ⟨-, -, hdec, hdo⟩ := DecodeHalf.mk.inj (h.decodeHalf ht ha)
    obtain ⟨-, -, hmod, hmo⟩ := EncodeHalf.mk.inj (h.encodeHalf ht hb)
    exact ⟨t, a, b, ht, ha, hb, hdec, hdo, hmod, hmo, h.cfg ht⟩
  · exact ((effect_of_exec hexec).decode hi).resolve_right (by simp [hallowed])
  · exact ((effect_of_exec hexec).encode hi).resolve_right (by simp [hallowed])

/-- Settles O56: a command that appends to `MO` appends silence and tones (`Effect.emitsInRange`), and a bit
starts at phase 0 (`Sine.supplied_zero`). -/
theorem outputSamplesInRange : Obligations.OutputSamplesInRange :=
  ⟨fun _ _ _ hbits hexec => (effect_of_exec hexec).emitsInRange hbits, fun sine _ _ => bitTone_head? sine⟩

end Sys2Proof.Machine

end

section

namespace Sys2Proof

/-! ### The argument formats (30_encoding R87, R89) -/

theorem fits_eq_true_iff {n : Nat} {arg : BitVec 32} : fits n arg = true ↔ arg.toNat < 2 ^ n :=
  decide_eq_true_iff

theorem fits_eq_false_iff {n : Nat} {arg : BitVec 32} : fits n arg = false ↔ 2 ^ n ≤ arg.toNat := by
  simp [fits]

@[simp] theorem fits_full (arg : BitVec 32) : fits 32 arg = true :=
  fits_eq_true_iff.2 arg.isLt

theorem fits_zero_iff {arg : BitVec 32} : fits 0 arg = true ↔ arg = 0 := by
  rw [fits_eq_true_iff, pow_zero, Nat.lt_one_iff, BitVec.toNat_eq]
  rfl

theorem fits_setWidth {n : Nat} (u : BitVec n) : fits n (u.setWidth 32) = true := by
  rw [fits_eq_true_iff, BitVec.toNat_setWidth]
  exact (Nat.mod_le _ _).trans_lt u.isLt

theorem operand_setWidth {n : Nat} (hn : n ≤ 32) (u : BitVec n) : operand n (u.setWidth 32) = u := by
  refine BitVec.eq_of_toNat_eq ?_
  rw [operand, BitVec.extractLsb'_toNat, BitVec.toNat_setWidth_of_le hn, Nat.shiftRight_zero,
    Nat.mod_eq_of_lt u.isLt]

theorem setWidth_operand {n : Nat} {arg : BitVec 32} (hfits : fits n arg = true) :
    (operand n arg).setWidth 32 = arg := by
  refine BitVec.eq_of_toNat_eq ?_
  rw [operand, BitVec.toNat_setWidth, BitVec.extractLsb'_toNat, Nat.shiftRight_zero,
    Nat.mod_eq_of_lt (fits_eq_true_iff.1 hfits), Nat.mod_eq_of_lt arg.isLt]

/-- The bits above the low `n` are all 0 exactly when clearing the low `n` leaves nothing. -/
theorem and_shiftLeft_allOnes_eq_zero_iff {n : Nat} {arg : BitVec 32} :
    arg &&& BitVec.allOnes 32 <<< n = 0 ↔ fits n arg = true := by
  have hle : arg.toNat / 2 ^ n * 2 ^ n ≤ arg.toNat := Nat.div_mul_le_self _ _
  have hcleared : (arg >>> n <<< n).toNat = arg.toNat / 2 ^ n * 2 ^ n := by
    rw [BitVec.toNat_shiftLeft, BitVec.toNat_ushiftRight, Nat.shiftLeft_eq, Nat.shiftRight_eq_div_pow,
      Nat.mod_eq_of_lt (hle.trans_lt arg.isLt)]
  rw [← BitVec.shiftLeft_ushiftRight, BitVec.toNat_eq, hcleared, fits_eq_true_iff]
  simp [Nat.div_eq_zero_iff]

/-! ### The rows of the opcode map (30_encoding R88) -/

theorem cmdWord_opOf_argOf (cw : CmdWord) : cmdWord (opOf cw) (argOf cw) = cw :=
  BitVec.extractLsb'_append_extractLsb'

theorem cmdWord_inj {op op' : BitVec 4} {arg arg' : BitVec 32} :
    cmdWord op arg = cmdWord op' arg' ↔ op = op' ∧ arg = arg' := by
  refine ⟨fun h => ⟨?_, ?_⟩, fun ⟨hop, harg⟩ => hop ▸ harg ▸ rfl⟩
  · simpa only [opOf_cmdWord] using congrArg opOf h
  · simpa only [argOf_cmdWord] using congrArg argOf h

/-- How many low bits of ARG the opcode's format leaves free: all of them for the formats X, U32 and S32, and
for a reserved opcode, which has no format (30_encoding R87, R88, R90). -/
def argWidth (op : BitVec 4) : Nat :=
  match op.toNat with
  | 2 => 16
  | 3 => 6
  | 4 => 2
  | 9 => 8
  | 5 | 7 | 8 | 10 | 11 => 0
  | _ => 32

/-- The instruction of the opcode's row with the operand read from the argument; `NOP` stands for the reserved
opcodes, which have no row. -/
def rowInstr (op : BitVec 4) (arg : BitVec 32) : Instr :=
  match op.toNat with
  | 1 => .setrate arg
  | 2 => .setchan (operand 16 arg)
  | 3 => .setbits (operand 6 arg)
  | 4 => .setmode (operand 2 arg)
  | 5 => .dstart
  | 6 => .sample arg
  | 7 => .dend
  | 8 => .mstart
  | 9 => .pbyte (operand 8 arg)
  | 10 => .pend
  | 11 => .mend
  | _ => .nop

theorem checked_eq (op : BitVec 4) (ok : Bool) (i : Instr) :
    checked op ok i = if ok = false then .badArgument op else .instr i := by
  cases ok <;> rfl

/-- What the decoder answers to every command word: the format's must-be-zero bits are tested, and a word that
passes is an instruction exactly if its opcode has a row (30_encoding R87, R88, R90, R91). -/
theorem decode_command (cw : CmdWord) :
    decode (.command cw) =
      if fits (argWidth (opOf cw)) (argOf cw) = false then .badArgument (opOf cw)
      else if (opOf cw).toNat < 12 then .instr (rowInstr (opOf cw) (argOf cw))
      else .reservedOpcode (opOf cw) := by
  rw [decode, decodeCommand]
  match opOf cw with
  | ⟨⟨2, _⟩⟩ | ⟨⟨3, _⟩⟩ | ⟨⟨4, _⟩⟩ | ⟨⟨5, _⟩⟩ | ⟨⟨7, _⟩⟩ | ⟨⟨8, _⟩⟩ | ⟨⟨9, _⟩⟩ | ⟨⟨10, _⟩⟩ | ⟨⟨11, _⟩⟩ =>
    exact checked_eq _ _ _
  | ⟨⟨0, _⟩⟩ | ⟨⟨1, _⟩⟩ | ⟨⟨6, _⟩⟩ | ⟨⟨_ + 12, _⟩⟩ =>
    exact (if_neg (ne_false_of_eq_true (fits_full _))).symm

theorem decode_row {op : BitVec 4} {arg : BitVec 32} {i : Instr} (hop : op.toNat < 12)
    (hfits : fits (argWidth op) arg = true) (hrow : rowInstr op arg = i) :
    decode (.command (cmdWord op arg)) = .instr i := by
  simp [decode_command, opOf_cmdWord, argOf_cmdWord, hfits, hop, hrow]

theorem opcode?_rowInstr {op : BitVec 4} (arg : BitVec 32) (hop : op.toNat < 12) :
    (rowInstr op arg).opcode? = some op := by
  match op with
  | ⟨⟨0, _⟩⟩ | ⟨⟨1, _⟩⟩ | ⟨⟨2, _⟩⟩ | ⟨⟨3, _⟩⟩ | ⟨⟨4, _⟩⟩ | ⟨⟨5, _⟩⟩ | ⟨⟨6, _⟩⟩ | ⟨⟨7, _⟩⟩ | ⟨⟨8, _⟩⟩ | ⟨⟨9, _⟩⟩
  | ⟨⟨10, _⟩⟩ | ⟨⟨11, _⟩⟩ => rfl
  | ⟨⟨_ + 12, _⟩⟩ => exact absurd hop (Nat.not_lt.2 (Nat.le_add_left _ _))

/-- A row's instruction is encoded as the word it was read from, but for the ignored argument of `NOP`. -/
theorem encode_rowInstr {op : BitVec 4} {arg : BitVec 32} (hop : op.toNat < 12)
    (hfits : fits (argWidth op) arg = true) :
    encode (rowInstr op arg) = .command (cmdWord op arg) ∨ op = 0 := by
  match op with
  | ⟨⟨0, _⟩⟩ => exact .inr rfl
  | ⟨⟨1, _⟩⟩ | ⟨⟨6, _⟩⟩ => exact .inl rfl
  | ⟨⟨2, _⟩⟩ | ⟨⟨3, _⟩⟩ | ⟨⟨4, _⟩⟩ | ⟨⟨9, _⟩⟩ =>
    exact .inl (congrArg (fun a => CodeWord.command (cmdWord _ a)) (setWidth_operand hfits))
  | ⟨⟨5, _⟩⟩ | ⟨⟨7, _⟩⟩ | ⟨⟨8, _⟩⟩ | ⟨⟨10, _⟩⟩ | ⟨⟨11, _⟩⟩ =>
    exact .inl (congrArg (fun a => CodeWord.command (cmdWord _ a)) (fits_zero_iff.1 hfits).symm)
  | ⟨⟨_ + 12, _⟩⟩ => exact absurd hop (Nat.not_lt.2 (Nat.le_add_left _ _))

theorem encode_decodePulse : ∀ pk : BitVec 2, encode (decodePulse pk) = .pulse pk := by decide

/-- The formats with must-be-zero bits and the arguments that break them (30_encoding R87). -/
theorem fits_argWidth_eq_false_iff {op : BitVec 4} {arg : BitVec 32} :
    fits (argWidth op) arg = false ↔
      (op = 0x2 ∧ 2 ^ 16 ≤ arg.toNat) ∨ (op = 0x3 ∧ 2 ^ 6 ≤ arg.toNat) ∨
        (op = 0x4 ∧ 2 ^ 2 ≤ arg.toNat) ∨ (op = 0x9 ∧ 2 ^ 8 ≤ arg.toNat) ∨
        (op ∈ [0x5, 0x7, 0x8, 0xA, 0xB] ∧ arg ≠ 0) := by
  constructor
  · intro hbad
    match op with
    | ⟨⟨2, _⟩⟩ => exact .inl ⟨rfl, fits_eq_false_iff.1 hbad⟩
    | ⟨⟨3, _⟩⟩ => exact .inr (.inl ⟨rfl, fits_eq_false_iff.1 hbad⟩)
    | ⟨⟨4, _⟩⟩ => exact .inr (.inr (.inl ⟨rfl, fits_eq_false_iff.1 hbad⟩))
    | ⟨⟨9, _⟩⟩ => exact .inr (.inr (.inr (.inl ⟨rfl, fits_eq_false_iff.1 hbad⟩)))
    | ⟨⟨5, _⟩⟩ | ⟨⟨7, _⟩⟩ | ⟨⟨8, _⟩⟩ | ⟨⟨10, _⟩⟩ | ⟨⟨11, _⟩⟩ =>
      exact .inr (.inr (.inr (.inr ⟨List.mem_of_elem_eq_true rfl,
        mt fits_zero_iff.2 (Bool.eq_false_iff.1 hbad)⟩)))
    | ⟨⟨0, _⟩⟩ | ⟨⟨1, _⟩⟩ | ⟨⟨6, _⟩⟩ | ⟨⟨_ + 12, _⟩⟩ =>
      exact absurd (fits_full arg) (Bool.eq_false_iff.1 hbad)
  · have hnone : ∀ op ∈ [0x5#4, 0x7, 0x8, 0xA, 0xB], argWidth op = 0 := by decide
    rintro (⟨rfl, hbig⟩ | ⟨rfl, hbig⟩ | ⟨rfl, hbig⟩ | ⟨rfl, hbig⟩ | ⟨hop, harg⟩)
    · exact fits_eq_false_iff.2 hbig
    · exact fits_eq_false_iff.2 hbig
    · exact fits_eq_false_iff.2 hbig
    · exact fits_eq_false_iff.2 hbig
    · rw [hnone op hop]
      exact Bool.eq_false_iff.2 (mt fits_zero_iff.1 harg)

/-! ### The opcode table as masks and matches (30_encoding R112) -/

/-- The `match` and `mask` of the opcode's row: the mask selects OP and the must-be-zero bits. -/
def commandRow (op : BitVec 4) : CmdWord × CmdWord :=
  (cmdWord op 0, cmdWord 0xF (BitVec.allOnes 32 <<< argWidth op))

theorem commandRows_eq_map : commandRows = ((List.range 12).map (BitVec.ofNat 4)).map commandRow := by decide

theorem mem_commandRows {r : CmdWord × CmdWord} :
    r ∈ commandRows ↔ ∃ op : BitVec 4, op.toNat < 12 ∧ commandRow op = r := by
  have hops : ∀ op : BitVec 4, op ∈ (List.range 12).map (BitVec.ofNat 4) ↔ op.toNat < 12 := by decide
  simp only [commandRows_eq_map, List.mem_map (f := commandRow), hops]

theorem matches_commandRow_iff {cw : CmdWord} {op : BitVec 4} :
    cw &&& (commandRow op).2 = (commandRow op).1 ↔ opOf cw = op ∧ fits (argWidth op) (argOf cw) = true := by
  have hand : cw &&& (commandRow op).2 =
      cmdWord (opOf cw) (argOf cw &&& BitVec.allOnes 32 <<< argWidth op) := by
    calc cw &&& (commandRow op).2
        = cmdWord (opOf cw) (argOf cw) &&& (commandRow op).2 := by rw [cmdWord_opOf_argOf]
      _ = cmdWord (opOf cw &&& BitVec.allOnes 4) (argOf cw &&& BitVec.allOnes 32 <<< argWidth op) :=
        BitVec.and_append
      _ = _ := by rw [BitVec.and_allOnes]
  rw [hand, commandRow, cmdWord_inj, and_shiftLeft_allOnes_eq_zero_iff]

theorem commandRows_pairwise_disjoint :
    commandRows.Pairwise (fun a b => ∀ cw : CmdWord, ¬ (cw &&& a.2 = a.1 ∧ cw &&& b.2 = b.1)) := by
  have hdistinct : ((List.range 12).map (BitVec.ofNat 4)).Nodup := by decide
  rw [commandRows_eq_map, List.pairwise_map]
  refine hdistinct.imp fun hne cw ⟨ha, hb⟩ => hne ?_
  rw [← (matches_commandRow_iff.1 ha).1, (matches_commandRow_iff.1 hb).1]

theorem exists_matches_commandRows_iff {cw : CmdWord} :
    (∃ r ∈ commandRows, cw &&& r.2 = r.1) ↔
      (opOf cw).toNat < 12 ∧ fits (argWidth (opOf cw)) (argOf cw) = true := by
  constructor
  · rintro ⟨r, hr, hmatch⟩
    obtain ⟨op, hop, rfl⟩ := mem_commandRows.1 hr
    obtain ⟨rfl, hfits⟩ := matches_commandRow_iff.1 hmatch
    exact ⟨hop, hfits⟩
  · rintro ⟨hop, hfits⟩
    exact ⟨_, mem_commandRows.2 ⟨opOf cw, hop, rfl⟩, matches_commandRow_iff.2 ⟨rfl, hfits⟩⟩

theorem decode_command_eq_instr_iff {cw : CmdWord} {i : Instr} :
    decode (.command cw) = .instr i ↔
      ((opOf cw).toNat < 12 ∧ fits (argWidth (opOf cw)) (argOf cw) = true) ∧
        rowInstr (opOf cw) (argOf cw) = i := by
  rw [decode_command]
  split
  · simp [*]
  · split <;> simp_all

theorem decode_command_eq_badArgument_iff {cw : CmdWord} {op : BitVec 4} :
    decode (.command cw) = .badArgument op ↔ opOf cw = op ∧ fits (argWidth op) (argOf cw) = false := by
  constructor
  · intro hdecode
    rw [decode_command] at hdecode
    split at hdecode
    · cases hdecode
      exact ⟨rfl, ‹_›⟩
    · split at hdecode <;> cases hdecode
  · rintro ⟨rfl, hbad⟩
    rw [decode_command, if_pos hbad]

theorem decode_command_eq_reservedOpcode_iff {cw : CmdWord} {op : BitVec 4} :
    decode (.command cw) = .reservedOpcode op ↔ opOf cw = op ∧ 12 ≤ op.toNat := by
  have hfree : ∀ op : BitVec 4, 12 ≤ op.toNat → argWidth op = 32 := by decide
  constructor
  · intro hdecode
    rw [decode_command] at hdecode
    split at hdecode
    · cases hdecode
    · split at hdecode <;> cases hdecode
      exact ⟨rfl, Nat.not_lt.1 ‹_›⟩
  · rintro ⟨rfl, hop⟩
    simp [decode_command, hfree _ hop, Nat.not_lt.2 hop]

/-! ### The obligations of 30_encoding -/

/-- Settles O2: every operand fits its format (`fits_setWidth`) and is read back from the low bits of the
argument (`operand_setWidth`); a pulse row is a 2-bit code. -/
theorem decodeEncodeRoundTrip : Obligations.DecodeEncodeRoundTrip := by
  intro i
  cases i with
  | nop => exact decode_row (op := 0x0) (by decide) (fits_full _) rfl
  | setrate u => exact decode_row (op := 0x1) (by decide) (fits_full _) rfl
  | setchan u =>
    exact decode_row (op := 0x2) (by decide) (fits_setWidth u)
      (congrArg Instr.setchan (operand_setWidth (by decide) u))
  | setbits u =>
    exact decode_row (op := 0x3) (by decide) (fits_setWidth u)
      (congrArg Instr.setbits (operand_setWidth (by decide) u))
  | setmode u =>
    exact decode_row (op := 0x4) (by decide) (fits_setWidth u)
      (congrArg Instr.setmode (operand_setWidth (by decide) u))
  | dstart => exact decode_row (op := 0x5) (by decide) (by decide) rfl
  | sample v => exact decode_row (op := 0x6) (by decide) (fits_full _) rfl
  | dend => exact decode_row (op := 0x7) (by decide) (by decide) rfl
  | mstart => exact decode_row (op := 0x8) (by decide) (by decide) rfl
  | pbyte u =>
    exact decode_row (op := 0x9) (by decide) (fits_setWidth u)
      (congrArg Instr.pbyte (operand_setWidth (by decide) u))
  | pend => exact decode_row (op := 0xA) (by decide) (by decide) rfl
  | mend => exact decode_row (op := 0xB) (by decide) (by decide) rfl
  | pulseZero | pulseOne | pulseStart | pulseGap => rfl

/-- Settles O3: the decoder accepts a command word exactly if its opcode has a row and its argument fits the
row's format (`decode_command_eq_instr_iff`), which is what the row's mask and match test
(`matches_commandRow_iff`). -/
theorem decoderFollowsOpcodeTable : Obligations.DecoderFollowsOpcodeTable := by
  refine ⟨fun cw => ?_, commandRows_pairwise_disjoint, fun cw op => ⟨?_, ?_⟩, fun w i hdecode => ?_⟩
  · rw [exists_matches_commandRows_iff]
    constructor
    · rintro ⟨i, hdecode, -⟩
      exact (decode_command_eq_instr_iff.1 hdecode).1
    · intro hrow
      exact ⟨_, decode_command_eq_instr_iff.2 ⟨hrow, rfl⟩, opcode?_rowInstr _ hrow.1⟩
  · exact decode_command_eq_reservedOpcode_iff
  · rw [decode_command_eq_badArgument_iff, fits_argWidth_eq_false_iff]
  · match w with
    | .pulse pk =>
      cases hdecode
      exact .inl (encode_decodePulse pk)
    | .command cw =>
      obtain ⟨⟨hop, hfits⟩, rfl⟩ := decode_command_eq_instr_iff.1 hdecode
      refine (encode_rowInstr hop hfits).imp (fun henc => ?_) fun hnop => ⟨?_, argOf cw, ?_⟩
      · rw [henc, cmdWord_opOf_argOf]
      · rw [hnop]
        rfl
      · rw [← hnop, cmdWord_opOf_argOf]

/-- Settles O1: the decoder runs on each of the sixteen words. -/
theorem specWordsDecode : Obligations.SpecWordsDecode := by
  unfold Obligations.SpecWordsDecode
  decide

end Sys2Proof

end

section

namespace Sys2Proof.Machine

/-! ### An encode call (40_control R132) -/

section

variable {s t : State}

theorem OnlyModulator.eq (h : OnlyModulator s t) : t = { s with mod := t.mod, moStream := t.moStream } := by
  obtain ⟨hcfg, hdec, hfault, hdo, -, hinputs, hdoPast, hmoPast, hbuild⟩ := h
  rw [← hcfg, ← hdec, ← hfault, ← hdo, ← hinputs, ← hdoPast, ← hmoPast, ← hbuild]

/-- The state that has emitted the samples and has the modulator registers `m`. -/
def State.played (s : State) (vs : List Word) (m : ModRegs) : State := (s.emitMo vs).setMod m

theorem State.played_nil (s : State) : s.played [] s.mod = s := by simp [State.played, State.emitMo, State.setMod]

theorem State.played_played (s : State) (vs ws : List Word) (m m' : ModRegs) :
    (s.played vs m).played ws m' = s.played (vs ++ ws) m' := by
  simp [State.played, State.emitMo, State.setMod]

/-- What a payload's command emits before the payload's own tones: nothing while the burst is open, else a
silence after an earlier payload, and the leader (43_modulator R187). -/
def opening (s : State) : List Word :=
  if s.mod.inPay then [] else (if s.mod.havePrev then silence s.cfg else []) ++ leader s.build.sine s.cfg

theorem opening_of_inPay (h : s.mod.inPay = true) : opening s = [] := if_pos h

theorem opening_of_closed (h : s.mod.inPay = false) :
    opening s = (if s.mod.havePrev then silence s.cfg else []) ++ leader s.build.sine s.cfg :=
  if_neg (by simp [h])

theorem ensureBurst_eq (s : State) : ensureBurst s = s.played (opening s) { s.mod with inPay := true } := by
  unfold ensureBurst
  split
  next hpay => rw [opening_of_inPay hpay, ← hpay, State.played_nil]
  next hpay =>
    rw [(openBurst_only s).eq, openBurst_moStream, openBurst_mod, opening_of_closed (by simpa using hpay),
      List.append_assoc]
    rfl

theorem payloadByte_eq (s : State) (u : Byte) :
    payloadByte s u = s.played (opening s ++ tones s.build.sine s.cfg u) ⟨s.mod.mstate, true, s.mod.havePrev⟩ := by
  rw [payloadByte, ensureBurst_eq, ← State.played_played]
  rfl

theorem payloadEnd_eq (s : State) :
    payloadEnd s = s.played (opening s) ⟨s.mod.mstate, false, true⟩ := by
  rw [payloadEnd, ensureBurst_eq]
  rfl

/-- The commands of one payload (40_control R132). -/
def payloadCommands (p : List Byte) : List Instr := p.map .pbyte ++ [.pend]

theorem encodeCommands_eq (ps : List (List Byte)) :
    Reference.encodeCommands ps = .mstart :: (ps.flatMap payloadCommands ++ [.mend]) := rfl

/-- A payload emits the opening of its burst unless the burst is open, and its own tones. -/
theorem execSeq_payloadCommands (p : List Byte) (hrun : s.mod.mstate = .run) :
    execSeq (payloadCommands p) s =
      .next (s.played (opening s ++ p.flatMap (tones s.build.sine s.cfg)) ⟨.run, false, true⟩) := by
  induction p generalizing s with
  | nil =>
    rw [payloadCommands, List.map_nil, List.nil_append, execSeq_cons _ _ (exec_pend_running s hrun), payloadEnd_eq,
      execSeq_nil, hrun, List.flatMap_nil, List.append_nil]
  | cons u p ih =>
    rw [payloadCommands, List.map_cons, List.cons_append, execSeq_cons _ _ (exec_pbyte_running u s hrun),
      ← payloadCommands, payloadByte_eq, ih (by exact hrun), opening_of_inPay (s := s.played _ _) (by rfl),
      State.played_played, List.nil_append, List.append_assoc]
    rfl

theorem burst_eq (sine : List SineTable) (c : CfgRegs) (p : List Byte) :
    Reference.burst sine c p = leader sine c ++ p.flatMap (tones sine c) := by
  rw [Reference.burst, leader, List.flatMap_append, List.flatMap_append, List.flatMap_replicate,
    List.flatMap_singleton]

/-- After a payload, each further one emits a silence and its burst (43_modulator R180). -/
theorem execSeq_furtherPayloads (ps : List (List Byte)) (h : s.mod = ⟨.run, false, true⟩) :
    execSeq (ps.flatMap payloadCommands) s =
      .next (s.played (ps.flatMap fun p => silence s.cfg ++ Reference.burst s.build.sine s.cfg p)
        ⟨.run, false, true⟩) := by
  induction ps generalizing s with
  | nil => rw [List.flatMap_nil, List.flatMap_nil, execSeq_nil, ← h, State.played_nil]
  | cons p ps ih =>
    have hburst : opening s ++ p.flatMap (tones s.build.sine s.cfg) =
        silence s.cfg ++ Reference.burst s.build.sine s.cfg p := by
      rw [opening_of_closed (by rw [h]), h, if_pos rfl, List.append_assoc, ← burst_eq]
    rw [List.flatMap_cons, execSeq_append _ _ _ (execSeq_payloadCommands p (by rw [h])), ih rfl,
      State.played_played, hburst]
    rfl

theorem flatten_intersperse_cons {α : Type} (sep x : List α) (xs : List (List α)) :
    ((x :: xs).intersperse sep).flatten = x ++ xs.flatMap (sep ++ ·) := by
  induction xs generalizing x with
  | nil => simp
  | cons y xs ih => simp [ih]

theorem modulate_cons (sine : List SineTable) (c : CfgRegs) (p : List Byte) (ps : List (List Byte)) :
    Reference.modulate sine c (p :: ps) =
      Reference.burst sine c p ++ ps.flatMap fun q => silence c ++ Reference.burst sine c q := by
  rw [Reference.modulate, List.map_cons, flatten_intersperse_cons, List.flatMap_map]

/-- The payloads of a call that has just started emit the document's `modulate` (43_modulator R180). -/
theorem execSeq_payloads (ps : List (List Byte)) (h : s.mod = ⟨.run, false, false⟩) :
    ∃ havePrev, execSeq (ps.flatMap payloadCommands) s =
      .next (s.played (Reference.modulate s.build.sine s.cfg ps) ⟨.run, false, havePrev⟩) := by
  cases ps with
  | nil => exact ⟨false, congrArg Host.Outcome.next (h ▸ s.played_nil).symm⟩
  | cons p ps =>
    have hburst : opening s ++ p.flatMap (tones s.build.sine s.cfg) =
        Reference.burst s.build.sine s.cfg p := by
      rw [opening_of_closed (by rw [h]), h, if_neg (by decide), List.nil_append, ← burst_eq]
    refine ⟨true, ?_⟩
    rw [List.flatMap_cons, execSeq_append _ _ _ (execSeq_payloadCommands p (by rw [h])),
      execSeq_furtherPayloads ps rfl, State.played_played, hburst, modulate_cons]
    rfl

end

/-- Settles O51: the first payload emits its burst and each further one a silence and its burst
(`execSeq_payloads`), and no sample depends on the channel count. -/
theorem encodeCallIsModulate : Obligations.EncodeCallIsModulate := by
  refine ⟨fun s ps hidle => ?_, fun sine c n ps => rfl⟩
  obtain ⟨havePrev, hpayloads⟩ := execSeq_payloads (s := s.setMod ⟨.run, false, false⟩) ps rfl
  refine ⟨s.played (Reference.modulate s.build.sine s.cfg ps) ⟨.idle, false, havePrev⟩, ?_, rfl, rfl, rfl⟩
  rw [encodeCommands_eq, execSeq_cons _ _ (exec_mstart_ready s hidle), execSeq_append _ _ _ hpayloads,
    execSeq_cons _ _ (exec_mend_running _ rfl)]
  rfl

end Sys2Proof.Machine

end

section

namespace Sys2Proof.Machine

/-! ### What BA, BF and CV neither read nor write

A pulse leaves the registers of the sequencing, of ZCD and TC and of the results alone, and nothing in it
depends on them (20_memory R66); on `CFG_MODE` it depends through CV alone (44_validator R200). So a pulse
commutes with a change of those. -/

/-- `d` with the registers that no pulse reads or writes as in `o`. -/
def DecRegs.withFront (d o : DecRegs) : DecRegs :=
  { d with
    dstate := o.dstate, idx := o.idx, chph := o.chph, lastSign := o.lastSign, prevValid := o.prevValid
    prevIdx := o.prevIdx, grpOpen := o.grpOpen, errCls := o.errCls
    dCode := o.dCode, dInfo := o.dInfo, dInfo2 := o.dInfo2 }

theorem DecRegs.raise_withFront {st : Stage} (hst : st ≠ .classifier) (d o : DecRegs) (e : ErrorKind) (a b : Word) :
    (d.withFront o).raise st e a b = (d.raise st e a b).withFront o := by
  have herr : (d.withFront o).halted st = d.halted st := by
    cases st with
    | classifier => exact absurd rfl hst
    | assembler | validator => rfl
  rw [DecRegs.raise, DecRegs.raise, herr]
  split
  · rfl
  · cases st with
    | classifier => exact absurd rfl hst
    | assembler | validator => rfl

theorem cvByte_withFront (d o : DecRegs) (v : Byte) (p : Nat) :
    cvByte (d.withFront o) v p = (cvByte d v p).withFront o := by
  unfold cvByte
  split
  · rfl
  · exact (apply_ite (DecRegs.withFront · o) (d.secidx = 0) (cvByteHeader d v p) (cvByteData d v p)).symm

theorem cvSectionEnd_withFront (cfg : CfgRegs) (build : BuildParams) (d o : DecRegs) (n : Word) :
    cvSectionEnd cfg build (d.withFront o) n =
      ((cvSectionEnd cfg build d n).1.withFront o, (cvSectionEnd cfg build d n).2) := by
  have hverdict : cvVerdict cfg build (d.withFront o) n = cvVerdict cfg build d n := rfl
  rw [cvSectionEnd, cvSectionEnd, hverdict]
  split
  · rw [DecRegs.raise_withFront (by decide)]
  · rfl

/-- `s` in the mode `m`, with the registers that no pulse reads or writes as in `o`. -/
def State.recast (s : State) (m : BitVec 2) (o : DecRegs) : State :=
  { s with cfg := { s.cfg with mode := m }, dec := s.dec.withFront o }

/-- CV does the same in the mode `m`: it is the same mode, or both are raw modes. -/
def SameCv (c : CfgRegs) (m : BitVec 2) : Prop := m = c.mode ∨ (c.text = false ∧ m.getLsbD 0 = false)

section

variable {s t x y : State} {m : BitVec 2} (o : DecRegs)

theorem SameCv.text (h : SameCv s.cfg m) : m.getLsbD 0 = s.cfg.text := by
  obtain rfl | ⟨hraw, hm⟩ := h
  · rfl
  · rw [hraw, hm]

theorem SameCv.cvActive (h : SameCv s.cfg m) : (s.recast m o).cvActive = s.cvActive :=
  congrArg (· && !s.dec.halted .validator) h.text

theorem SameCv.eq_of_cvActive (h : SameCv s.cfg m) (hactive : s.cvActive = true) : m = s.cfg.mode :=
  h.resolve_right fun hraw => by simp [text_of_cvActive hactive] at hraw

/-- One branch taken on both sides. -/
theorem ite_recast {p q : Prop} [Decidable p] [Decidable q] (hpq : p ↔ q) (h : q → x = s.recast m o)
    (k : y = t.recast m o) : (if p then x else y) = (if q then s else t).recast m o := by
  by_cases hq : q
  · rw [if_pos hq, if_pos (hpq.mpr hq), h hq]
  · rw [if_neg hq, if_neg (hq ∘ hpq.mp), k]

theorem emitByte_recast (h : SameCv s.cfg m) (v : Byte) :
    emitByte (s.recast m o) v = (emitByte s v).recast m o := by
  refine congrArg (fun u : State => u.setDec { u.dec with bytecnt := u.dec.bytecnt + 1 })
    (ite_recast o (s := (s.emitDo (.ob v)).setDec (cvByte s.dec v s.dec.bytecnt.toNat)) (t := s.emitDo (.ob v))
      (q := s.cvActive = true) ?_ (fun _ => ?_) rfl)
  · exact iff_of_eq (congrArg (· = true) (h.cvActive o))
  · exact congrArg (s.recast m o |>.emitDo (.ob v)).setDec (cvByte_withFront s.dec o v _)

theorem push_recast (h : SameCv s.cfg m) (b : Bool) : push (s.recast m o) b = (push s b).recast m o :=
  ite_recast o Iff.rfl
    (fun _ => emitByte_recast (s := s.setDec { s.dec with bsr := shiftIn s.dec.bsr b, bitcnt := 0 }) o h _) rfl

theorem seek_withFront (d : DecRegs) (b : Bool) : seek (d.withFront o) b = (seek d b).withFront o := by
  rw [seek_eq, seek_eq, apply_ite (DecRegs.withFront · o)]
  rfl

theorem acceptBit_recast (h : SameCv s.cfg m) (b : Bool) :
    acceptBit (s.recast m o) b = (acceptBit s b).recast m o :=
  ite_recast o Iff.rfl (fun _ => push_recast o h b)
    (congrArg (s.recast m o).setDec (seek_withFront o s.dec b))

theorem pulseZero_recast (h : SameCv s.cfg m) : pulseZero (s.recast m o) = (pulseZero s).recast m o :=
  ite_recast o Iff.rfl (fun _ => rfl) (acceptBit_recast o h false)

theorem pulseOne_recast (h : SameCv s.cfg m) : pulseOne (s.recast m o) = (pulseOne s).recast m o :=
  ite_recast o Iff.rfl (fun _ => rfl) (acceptBit_recast o h true)

theorem startPulse_recast (h : SameCv s.cfg m) : startPulse (s.recast m o) = (startPulse s).recast m o :=
  ite_recast o Iff.rfl (fun _ => acceptBit_recast o h false)
    (ite_recast o Iff.rfl
      (fun _ => congrArg (s.recast m o).setDec (DecRegs.raise_withFront (by decide) s.dec o _ _ _)) rfl)

theorem pulseStart_recast (h : SameCv s.cfg m) : pulseStart (s.recast m o) = (pulseStart s).recast m o :=
  ite_recast o Iff.rfl (fun _ => rfl) (startPulse_recast o h)

theorem flushTail_recast (h : SameCv s.cfg m) : flushTail (s.recast m o) = (flushTail s).recast m o :=
  ite_recast o Iff.rfl (fun _ => emitByte_recast (s := s.setDec { s.dec with bitcnt := 0 }) o h _) rfl

theorem cvAtSectionEnd_recast (h : SameCv s.cfg m) (n : Word) :
    cvAtSectionEnd (s.recast m o) n = ((cvAtSectionEnd s n).1.withFront o, (cvAtSectionEnd s n).2) := by
  rw [cvAtSectionEnd, cvAtSectionEnd, h.cvActive o]
  split
  next hactive =>
    obtain rfl := h.eq_of_cvActive hactive
    exact cvSectionEnd_withFront s.cfg s.build s.dec o n
  next => rfl

/-- A section end once the tail is out: CV's call, the token, the registers (42_assembler_framer R169). -/
def closeSection (s : State) (res : BitVec 3) : State :=
  (s.setDec (cvAtSectionEnd s s.dec.bytecnt).1.nextSection).emitDo
    (.os s.dec.secidx s.dec.bytecnt res (cvAtSectionEnd s s.dec.bytecnt).2.1 (cvAtSectionEnd s s.dec.bytecnt).2.2)

theorem sectionEnd_eq (s : State) : sectionEnd s = closeSection (flushTail s) s.dec.bitcnt := rfl

theorem closeSection_recast (h : SameCv s.cfg m) (res : BitVec 3) :
    closeSection (s.recast m o) res = (closeSection s res).recast m o := by
  have hbytes : (s.recast m o).dec.bytecnt = s.dec.bytecnt := rfl
  rw [closeSection, closeSection, hbytes, cvAtSectionEnd_recast o h]
  rfl

theorem sectionEnd_recast (h : SameCv s.cfg m) : sectionEnd (s.recast m o) = (sectionEnd s).recast m o := by
  rw [sectionEnd_eq, sectionEnd_eq, flushTail_recast o h]
  exact closeSection_recast o ((flushTail_only s).cfg ▸ h) _

theorem gend_recast (h : SameCv s.cfg m) : gend (s.recast m o) = (gend s).recast m o :=
  ite_recast o Iff.rfl (fun _ => rfl)
    (ite_recast o Iff.rfl (fun _ => sectionEnd_recast o h)
      (congrArg (s.recast m o).setDec (DecRegs.raise_withFront (by decide) s.dec o _ _ _)))

theorem deliver_recast (h : SameCv s.cfg m) (k : PulseKind) :
    deliver k (s.recast m o) = (deliver k s).recast m o :=
  match k with
  | .zero => pulseZero_recast o h
  | .one => pulseOne_recast o h
  | .start => pulseStart_recast o h
  | .gap => gend_recast o h

/-! ### A pulse with other front registers -/

/-- `s` with the registers that no pulse reads or writes as in `o`. -/
def State.withFront (s : State) (o : DecRegs) : State := s.setDec (s.dec.withFront o)

theorem deliver_withFront (s : State) (k : PulseKind) : deliver k (s.withFront o) = (deliver k s).withFront o := by
  refine (deliver_recast (m := s.cfg.mode) o (.inl rfl) k).trans ?_
  rw [← (deliver_frame k s).cfg]
  rfl

/-- A pulse leaves the registers alone that no pulse reads. -/
theorem deliver_eq_withFront (s : State) (k : PulseKind) : deliver k s = (deliver k s).withFront s.dec :=
  deliver_withFront s.dec s k

theorem pulse_eq (s : State) (k : PulseKind) :
    pulse s k = (deliver k s).withFront { s.dec with grpOpen := decide (k ≠ .gap) } :=
  match k with
  | .zero => deliver_withFront { s.dec with grpOpen := true } s .zero
  | .one => deliver_withFront { s.dec with grpOpen := true } s .one
  | .start => deliver_withFront { s.dec with grpOpen := true } s .start
  | .gap => congrArg (fun u : State => u.setDec { u.dec with grpOpen := false }) (deliver_eq_withFront s .gap)

end

end Sys2Proof.Machine

end

section

namespace Sys2Proof.Machine.Reference

/-! ### Bits and bytes (20_memory R68, R72) -/

section

variable {bs cs : List Bool}

theorem shiftIn_eq_or (r : Byte) (b : Bool) : shiftIn r b = r <<< 1 ||| shiftIn 0 b := by
  simp [shiftIn]

/-- Bits shifted into a register: what it held, shifted, and the bits' own value. -/
theorem foldl_shiftIn (r : Byte) (bs : List Bool) : bs.foldl shiftIn r = r <<< bs.length ||| byteOf bs := by
  induction bs generalizing r with
  | nil => simp [byteOf]
  | cons b bs ih =>
    rw [byteOf, List.foldl_cons, List.foldl_cons, ih, ih (shiftIn 0 b), shiftIn_eq_or, BitVec.shiftLeft_or_distrib,
      BitVec.or_assoc, ← BitVec.shiftLeft_add, Nat.add_comm 1, List.length_cons]

/-- After eight bits a shift register holds them alone. -/
theorem foldl_shiftIn_of_length_ge (r : Byte) (h : 8 ≤ bs.length) : bs.foldl shiftIn r = byteOf bs := by
  rw [foldl_shiftIn, BitVec.shiftLeft_eq_zero h, BitVec.zero_or]

theorem byteOf_append (bs cs : List Bool) : byteOf (bs ++ cs) = cs.foldl shiftIn (byteOf bs) := List.foldl_append

theorem byteOf_append_of_length_ge (bs : List Bool) (h : 8 ≤ cs.length) : byteOf (bs ++ cs) = byteOf cs := by
  rw [byteOf_append, foldl_shiftIn_of_length_ge _ h]

theorem byteOf_append_zeros (bs : List Bool) (n : Nat) :
    byteOf (bs ++ List.replicate n false) = byteOf bs <<< n := by
  have hzeros : byteOf (List.replicate n false) = 0#8 := by
    induction n with
    | zero => rfl
    | succ n ih => exact ih
  rw [byteOf_append, foldl_shiftIn, hzeros, List.length_replicate, BitVec.or_zero]

/-- `SR` holds the marker exactly when the last eight bits of the group are the marker's (42_assembler_framer
R165): the ones that `SR` starts with keep its top bit set until eight bits have come. -/
theorem foldl_shiftIn_eq_marker_iff :
    bs.foldl shiftIn 0xFF = Config.marker ↔ 8 ≤ bs.length ∧ bs.drop (bs.length - 8) = markerBits := by
  obtain hlt | hge := Nat.lt_or_ge bs.length 8
  · refine iff_of_false (fun h => ?_) fun h => hlt.not_ge h.1
    have htop : (bs.foldl shiftIn 0xFF).getLsbD 7 = true := by
      have hones : ∀ n < 8, (0xFF#8 <<< n).getLsbD 7 = true := by decide
      rw [foldl_shiftIn, BitVec.getLsbD_or]
      exact Bool.or_eq_true_iff.mpr (.inl (hones _ hlt))
    rw [h] at htop
    exact absurd htop (by decide)
  · have hbyte : ∀ b7 b6 b5 b4 b3 b2 b1 b0 : Bool,
        byteOf [b7, b6, b5, b4, b3, b2, b1, b0] = Config.marker ↔ [b7, b6, b5, b4, b3, b2, b1, b0] = markerBits := by
      decide
    have hlast : (bs.drop (bs.length - 8)).length = 8 := by rw [List.length_drop]; omega
    rw [foldl_shiftIn_of_length_ge _ hge, ← List.take_append_drop (bs.length - 8) bs,
      byteOf_append_of_length_ge _ hlast.ge, List.take_append_drop]
    match bs.drop (bs.length - 8), hlast with
    | [b7, b6, b5, b4, b3, b2, b1, b0], _ => exact (hbyte b7 b6 b5 b4 b3 b2 b1 b0).trans (and_iff_right hge).symm

theorem packBytes_of_length_lt (h : bs.length < 8) : packBytes bs = [] :=
  match bs, h with
  | [], _ | [_], _ | [_, _], _ | [_, _, _], _ | [_, _, _, _], _ | [_, _, _, _, _], _ | [_, _, _, _, _, _], _
  | [_, _, _, _, _, _, _], _ => rfl

theorem packBytes_append_of_length_eq (h : bs.length = 8) (cs : List Bool) :
    packBytes (bs ++ cs) = byteOf bs :: packBytes cs :=
  match bs, h with
  | [_, _, _, _, _, _, _, _], _ => rfl

/-- One more bit completes a byte, or none (42_assembler_framer R167). -/
theorem packBytes_snoc (bs : List Bool) (b : Bool) :
    packBytes (bs ++ [b]) = packBytes bs ++ if bs.length % 8 = 7 then [byteOf (bs ++ [b])] else [] := by
  induction hn : bs.length using Nat.strongRecOn generalizing bs with
  | ind n ih =>
    obtain hlt | hge := Nat.lt_or_ge bs.length 8
    · rw [packBytes_of_length_lt hlt, List.nil_append, ← hn]
      split
      next hlast =>
        have height : (bs ++ [b]).length = 8 := by simp; omega
        rw [← List.append_nil (bs ++ [b]), packBytes_append_of_length_eq height, List.append_nil]
        rfl
      next hlast => exact packBytes_of_length_lt (by simp; omega)
    · have htake : (bs.take 8).length = 8 := List.length_take_of_le hge
      have hrest : n % 8 = (bs.drop 8).length % 8 := by rw [List.length_drop]; omega
      have hsplit : bs = bs.take 8 ++ bs.drop 8 := (List.take_append_drop 8 bs).symm
      have hbyte : (bs.drop 8).length % 8 = 7 → byteOf (bs ++ [b]) = byteOf (bs.drop 8 ++ [b]) := fun h => by
        rw [hsplit, List.append_assoc, byteOf_append_of_length_ge _ (by simp at h ⊢; omega)]
        simp
      rw [hsplit, List.append_assoc, packBytes_append_of_length_eq htake, packBytes_append_of_length_eq htake,
        ih _ (by rw [List.length_drop]; omega) (bs.drop 8) rfl, hrest, ← List.append_assoc, ← hsplit]
      split
      next h => rw [hbyte h, List.cons_append]
      next => rfl

theorem length_packBytes (bs : List Bool) : (packBytes bs).length = bs.length / 8 := by
  induction bs using List.reverseRecOn with
  | nil => rfl
  | append_singleton bs b ih =>
    rw [packBytes_snoc, List.length_append, List.length_append, ih]
    split <;> simp <;> omega

theorem length_packBytes_lt {n : Nat} (h : bs.length < n) : (packBytes bs).length < n :=
  (length_packBytes bs).trans_lt ((Nat.div_le_self _ _).trans_lt h)

/-- Bits that do not reach the end of the byte complete none. -/
theorem packBytes_append_of_lt (h : bs.length % 8 + cs.length < 8) : packBytes (bs ++ cs) = packBytes bs := by
  induction cs using List.reverseRecOn with
  | nil => rw [List.append_nil]
  | append_singleton cs c ih =>
    rw [List.length_append, List.length_singleton] at h
    rw [← List.append_assoc, packBytes_snoc, if_neg (by rw [List.length_append]; omega), List.append_nil,
      ih (by omega)]

/-- `PadZero` completes the last byte with zeros (20_memory R72). -/
theorem packBytes_padded (bs : List Bool) :
    packBytes (bs ++ List.replicate (8 - bs.length % 8) false) =
      packBytes bs ++ [byteOf bs <<< (8 - bs.length % 8)] := by
  obtain ⟨n, hn⟩ : ∃ n, 8 - bs.length % 8 = n + 1 := ⟨7 - bs.length % 8, by omega⟩
  rw [hn, List.replicate_succ', ← List.append_assoc, packBytes_snoc,
    packBytes_append_of_lt (by rw [List.length_replicate]; omega),
    if_pos (by rw [List.length_append, List.length_replicate]; omega), List.append_assoc, ← List.replicate_succ',
    byteOf_append_zeros]

end

end Sys2Proof.Machine.Reference

end

section

namespace Sys2Proof.Machine

/-! ### CV over a whole record (44_validator R201 to R217) -/

section

variable {cfg : CfgRegs} {build : BuildParams} {d : DecRegs} {b : Byte} {bs : List Byte}

theorem feedSection_snoc (d : DecRegs) (bs : List Byte) (v : Byte) :
    feedSection d (bs ++ [v]) = cvByte (feedSection d bs) v bs.length := by
  simp [feedSection, List.zipIdx_append]

/-- What every byte of a section keeps, the section keeps. -/
theorem feedSection_keeps {α : Type} (f : DecRegs → α) (hkeep : ∀ d v p, f (cvByte d v p) = f d) (d : DecRegs)
    (bs : List Byte) : f (feedSection d bs) = f d := by
  induction bs using List.reverseRecOn with
  | nil => rfl
  | append_singleton bs v ih => rw [feedSection_snoc, hkeep, ih]

theorem feedSection_secidx (d : DecRegs) (bs : List Byte) : (feedSection d bs).secidx = d.secidx :=
  feedSection_keeps DecRegs.secidx cvByte_secidx d bs

theorem cvByte_header (v : Byte) {p : Nat} (hp : p ≠ 0) (hsec : d.secidx = 0) :
    cvByte d v p = cvByteHeader d v p := by
  rw [cvByte, if_neg hp, if_pos hsec]

theorem cvByte_data (v : Byte) {p : Nat} (hp : p ≠ 0) (hsec : d.secidx ≠ 0) :
    cvByte d v p = cvByteData d v p := by
  rw [cvByte, if_neg hp, if_neg hsec]

/-- A record's byte after the first: `b :: bs` has fed its `v` at position `bs.length + 1`. -/
theorem feedSection_cons_snoc (d : DecRegs) (b : Byte) (bs : List Byte) (v : Byte) :
    feedSection d (b :: (bs ++ [v])) = cvByte (feedSection d (b :: bs)) v (bs.length + 1) :=
  feedSection_snoc d (b :: bs) v

/-- The first byte of a record and its verdict stay (44_validator R202, R208). -/
theorem feedSection_first (d : DecRegs) (b : Byte) (bs : List Byte) :
    (feedSection d (b :: bs)).b0Act = b ∧ (feedSection d (b :: bs)).b0Ok = decide (b = firstByte d.secidx) := by
  induction bs using List.reverseRecOn with
  | nil => exact ⟨rfl, rfl⟩
  | append_singleton bs v ih =>
    rw [feedSection_cons_snoc, cvByte, if_neg (Nat.succ_ne_zero _)]
    split <;> exact ih

/-- The last checksum-relevant position (44_validator R203). -/
def sumEnd (sec : Word) : Nat := if sec = 0 then Config.hdrSumEnd else Config.datSumEnd

theorem cvByte_rsum (d : DecRegs) (v : Byte) {p : Nat} (hp : p ≠ 0) :
    (cvByte d v p).rsum = if p ≤ sumEnd d.secidx then d.rsum + v else d.rsum := by
  by_cases hsec : d.secidx = 0
  · rw [cvByte_header v hp hsec, sumEnd, if_pos hsec]
    rfl
  · rw [cvByte_data v hp hsec, sumEnd, if_neg hsec]
    rfl

theorem take_snoc {α : Type} (n : Nat) (l : List α) (v : α) :
    (l ++ [v]).take n = l.take n ++ if l.length < n then [v] else [] := by
  rw [List.take_append]
  split
  next h => rw [List.take_of_length_le (l := [v]) (by simp; omega)]
  next h => rw [Nat.sub_eq_zero_of_le (Nat.not_lt.mp h), List.take_zero]

/-- `RSUM` is the wrapping sum over the checksum-relevant positions (44_validator R203). -/
theorem feedSection_rsum (d : DecRegs) (b : Byte) (bs : List Byte) :
    (feedSection d (b :: bs)).rsum = Reference.wrappingSum (bs.take (sumEnd d.secidx)) := by
  induction bs using List.reverseRecOn with
  | nil =>
    rw [List.take_nil]
    rfl
  | append_singleton bs v ih =>
    rw [feedSection_cons_snoc, cvByte_rsum _ _ (Nat.succ_ne_zero _), feedSection_secidx, ih, take_snoc,
      Reference.wrappingSum, Reference.wrappingSum, List.foldl_append]
    split
    next h => rw [if_pos (Nat.lt_of_succ_le h)]; rfl
    next h => rw [if_neg (by omega)]; rfl

theorem trimPayload_snoc (w : List Byte) (v : Byte) :
    Reference.trimPayload (w ++ [v]) = if v = Config.filler then Reference.trimPayload w else w ++ [v] := by
  rw [Reference.trimPayload, List.reverse_append, List.reverse_singleton, List.singleton_append,
    List.dropWhile_cons]
  split <;> simp_all [Reference.trimPayload]

/-- `PAYLEN` is the length of the window without its trailing filler (44_validator R217). -/
theorem feedSection_paylen (hsec : d.secidx ≠ 0) (b : Byte) (bs : List Byte) :
    (feedSection d (b :: bs)).paylen =
      BitVec.ofNat 9 (Reference.trimPayload (bs.take Config.payWin)).length := by
  induction bs using List.reverseRecOn with
  | nil => rfl
  | append_singleton bs v ih =>
    rw [feedSection_cons_snoc, cvByte_data v (Nat.succ_ne_zero _) (by rwa [feedSection_secidx]), cvByteData, ih,
      take_snoc]
    dsimp only
    split
    next h =>
      rw [if_pos (Nat.lt_of_succ_le h.1), List.take_of_length_le (Nat.le_of_succ_le h.1), trimPayload_snoc,
        if_neg h.2, List.length_append, List.length_singleton]
    next h =>
      split
      next hroom =>
        have hfiller : v = Config.filler := by_contra fun hv => h ⟨hroom, hv⟩
        rw [trimPayload_snoc, if_pos hfiller]
      next hroom => rw [List.append_nil]

/-- `NAME` holds the bytes at positions 1 to 6 that have come (44_validator R202). -/
theorem feedSection_name (hsec : d.secidx = 0) (b : Byte) (bs : List Byte) {i : Nat} (hi : i < 6)
    (hbs : i < bs.length) : (feedSection d (b :: bs)).name[i] = bs[i] := by
  induction bs using List.reverseRecOn with
  | nil => exact absurd hbs (Nat.not_lt_zero i)
  | append_singleton bs v ih =>
    have hname : (feedSection d (b :: (bs ++ [v]))).name =
        if bs.length + 1 ≤ Config.nameLenMax then (feedSection d (b :: bs)).name.setIfInBounds bs.length v
        else (feedSection d (b :: bs)).name := by
      rw [feedSection_cons_snoc, cvByte_header v (Nat.succ_ne_zero _) (by rwa [feedSection_secidx])]
      rfl
    rw [List.length_append, List.length_singleton] at hbs
    simp only [hname]
    obtain hlt | rfl := Nat.lt_succ_iff_lt_or_eq.mp hbs
    · rw [List.getElem_append_left hlt, ← ih hlt]
      split
      · exact Vector.getElem_setIfInBounds_ne hi hlt.ne'
      · rfl
    · simp [hi]

theorem length_takeWhile_ne (l : List Byte) (v : Byte) :
    (l.takeWhile (· != v)).length = l.findIdx (· == v) := by
  have hnot : (fun a : Byte => !(a != v)) = (· == v) := by
    funext a
    simp [bne]
  rw [List.takeWhile_eq_take_findIdx_not, List.length_take, hnot, Nat.min_eq_left List.findIdx_le_length]

/-- The name's length is that of the name field up to its first space (44_validator R216). -/
theorem feedSection_nameLen (hsec : d.secidx = 0) (b : Byte) (hlen : 6 ≤ bs.length) :
    nameLen (feedSection d (b :: bs)).name =
      BitVec.ofNat 9 (Reference.trimName (Reference.nameField (b :: bs))).length := by
  have hfield : (feedSection d (b :: bs)).name.toList = bs.take 6 := by
    refine List.ext_getElem (by simp; omega) fun i hi _ => ?_
    rw [Vector.length_toList] at hi
    rw [Vector.getElem_toList, List.getElem_take, feedSection_name hsec b bs hi (hi.trans_le hlen)]
  rw [nameLen, hfield, Reference.trimName, length_takeWhile_ne]
  rfl

/-- The length CV reports for a data record is that of the trimmed window, or the all-filler one
(44_validator R217). -/
theorem feedSection_payloadLen (hsec : d.secidx ≠ 0) (b : Byte) (bs : List Byte) :
    payloadLen build (feedSection d (b :: bs)).paylen =
      if (Reference.trimPayload (bs.take Config.payWin)).isEmpty then build.allFillerLen.len
      else BitVec.ofNat 9 (Reference.trimPayload (bs.take Config.payWin)).length := by
  have hle : (Reference.trimPayload (bs.take Config.payWin)).length ≤ 256 := by
    rw [Reference.trimPayload, List.length_reverse]
    exact (List.length_dropWhile_le _ _).trans (by simp)
  have hzero : ∀ n ≤ 256, (BitVec.ofNat 9 n = 0 ↔ n = 0) := fun n hn => by
    rw [← BitVec.toNat_inj, BitVec.toNat_ofNat, Nat.mod_eq_of_lt (by omega)]
    rfl
  rw [payloadLen, feedSection_paylen hsec]
  simp only [ne_eq, ite_not, hzero _ hle, List.isEmpty_iff, List.length_eq_zero_iff]

theorem toNat_eq_zero_iff {n : Nat} (x : BitVec n) : x.toNat = 0 ↔ x = 0 := by
  simp [← BitVec.toNat_inj]

/-- CV's verdict on a record it has been fed is that of the document's checks on the whole record
(44_validator R206 to R210). -/
theorem cvVerdict_feedSection (cfg : CfgRegs) (build : BuildParams) (d : DecRegs) {bs : List Byte}
    (hlen : bs.length < 2 ^ 32) :
    cvVerdict cfg build (feedSection d bs) (BitVec.ofNat 32 bs.length) =
      Reference.checkRecord build cfg.ignck d.secidx.toNat bs := by
  have hn : (BitVec.ofNat 32 bs.length).toNat = bs.length :=
    (BitVec.toNat_ofNat ..).trans (Nat.mod_eq_of_lt hlen)
  simp only [cvVerdict, Reference.checkRecord, feedSection_secidx, hn, toNat_eq_zero_iff, BitVec.ofNat_toNat,
    BitVec.setWidth_eq]
  match bs with
  | [] =>
    have hlength : ([] : List Byte).length ≠ if d.secidx = 0 then Config.hdrLen else Config.datLen := by
      split <;> decide
    rw [if_pos hlength, if_pos hlength]
  | b :: bs =>
    obtain ⟨hact, hok⟩ := feedSection_first d b bs
    rw [hact, hok, feedSection_rsum]
    simp [checksumOk, firstByte, Reference.relevant, sumEnd, toNat_eq_zero_iff]

/-- CV's lengths for an accepted record are the document's (44_validator R215 to R217). -/
theorem cvLengths_feedSection (cfg : CfgRegs) (build : BuildParams) (d : DecRegs) {bs : List Byte}
    (haccept : Reference.checkRecord build cfg.ignck d.secidx.toNat bs = none) :
    cvLengths build (feedSection d bs) =
      (true, Reference.recordLen build.allFillerLen d.secidx.toNat bs) := by
  have hlength : bs.length = if d.secidx.toNat = 0 then Config.hdrLen else Config.datLen := by
    by_contra h
    rw [Reference.checkRecord, if_pos h] at haccept
    cases haccept
  simp only [cvLengths, Reference.recordLen, feedSection_secidx, toNat_eq_zero_iff]
  match bs, hlength with
  | [], hlength => split at hlength <;> cases hlength
  | b :: bs, hlength =>
    split
    next hsec =>
      rw [if_pos ((toNat_eq_zero_iff _).mpr hsec), List.length_cons, Config.hdrLen] at hlength
      rw [feedSection_nameLen hsec b (by omega)]
    next hsec =>
      rw [feedSection_payloadLen hsec]
      rfl

end

end Sys2Proof.Machine

end

section

namespace Sys2Proof.Machine

/-! ### One group at BA, BF and CV (42_assembler_framer R171)

The states of BA and BF inside a group, as functions of the state at the section's start and of what the
group has delivered so far. -/

section

open Reference (groupBits bitOf markerBits packBytes byteOf bufferOf)

variable {s u : State} {k : PulseKind} {ks : List PulseKind} {acc bs : List Bool} {sec : Nat}

/-- BF has emitted `bytes` in the section that began at `s`, and CV has been fed them. -/
def framed (s : State) (bytes : List Byte) (bitcnt : BitVec 3) (bsr : Byte) : State :=
  { s with
    dec := { if s.cvActive then feedSection s.dec bytes else s.dec with
      locked := true, sr := Config.marker, bitcnt := bitcnt, bsr := bsr
      bytecnt := BitVec.ofNat 32 bytes.length }
    doStream := s.doStream ++ bytes.map .ob }

/-- The state with the data bits `bs` since the marker of the section that began at `s`. -/
def locked (s : State) (bs : List Bool) : State :=
  framed s (packBytes bs) (BitVec.ofNat 3 bs.length) (byteOf bs)

/-- The state with the bits `acc` of the section that began at `s`, and no marker yet. -/
def seeking (s : State) (acc : List Bool) : State := s.setDec { s.dec with sr := acc.foldl shiftIn 0xFF }

theorem framed_err (s : State) (bytes : List Byte) (bitcnt : BitVec 3) (bsr : Byte) (st : Stage) :
    (framed s bytes bitcnt bsr).dec.err st = s.dec.err st := by
  have hfed : (if s.cvActive then feedSection s.dec bytes else s.dec).err st = s.dec.err st := by
    split
    · exact feedSection_keeps (DecRegs.err · st) (fun d v p => cvByte_err d v p st) _ _
    · rfl
  cases st <;> exact hfed

theorem framed_secidx (s : State) (bytes : List Byte) (bitcnt : BitVec 3) (bsr : Byte) :
    (framed s bytes bitcnt bsr).dec.secidx = s.dec.secidx :=
  (apply_ite DecRegs.secidx ..).trans ((congrArg (ite _ · _) (feedSection_secidx ..)).trans (ite_self _))

theorem framed_cvActive (s : State) (bytes : List Byte) (bitcnt : BitVec 3) (bsr : Byte) :
    (framed s bytes bitcnt bsr).cvActive = s.cvActive :=
  congrArg (fun e : Option ErrorRecord => s.cfg.text && !e.isSome) (framed_err s bytes bitcnt bsr .validator)

/-- CV reads the section index of the assembler's registers alone (44_validator R202). -/
theorem cvByte_assembler (d : DecRegs) (v : Byte) (p : Nat) (locked : Bool) (sr : BitVec 8) (bitcnt : BitVec 3)
    (bsr : BitVec 8) (bytecnt : BitVec 32) :
    cvByte { d with locked := locked, sr := sr, bitcnt := bitcnt, bsr := bsr, bytecnt := bytecnt } v p =
      { cvByte d v p with locked := locked, sr := sr, bitcnt := bitcnt, bsr := bsr, bytecnt := bytecnt } := by
  unfold cvByte
  split
  · rfl
  · exact (apply_ite (fun e : DecRegs =>
      { e with locked := locked, sr := sr, bitcnt := bitcnt, bsr := bsr, bytecnt := bytecnt })
      (d.secidx = 0) (cvByteHeader d v p) (cvByteData d v p)).symm

theorem emitByte_framed (s : State) {bytes : List Byte} (bitcnt : BitVec 3) (bsr v : Byte)
    (hlen : bytes.length < 2 ^ 32) :
    emitByte (framed s bytes bitcnt bsr) v = framed s (bytes ++ [v]) bitcnt bsr := by
  have hpos : (BitVec.ofNat 32 bytes.length).toNat = bytes.length :=
    (BitVec.toNat_ofNat ..).trans (Nat.mod_eq_of_lt hlen)
  have hactive : ((framed s bytes bitcnt bsr).emitDo (.ob v)).cvActive = s.cvActive :=
    framed_cvActive s bytes bitcnt bsr
  unfold emitByte
  simp only [hactive]
  cases hcv : s.cvActive with
  | true =>
    simp [framed, hcv, State.setDec, State.emitDo, cvByte_assembler, hpos, feedSection_snoc, BitVec.ofNat_add]
  | false => simp [framed, hcv, State.setDec, State.emitDo, BitVec.ofNat_add]

/-- A data bit ends a byte after seven others (42_assembler_framer R167). -/
theorem push_framed (s : State) {bytes : List Byte} (bitcnt : BitVec 3) (bsr : Byte) (b : Bool)
    (hlen : bytes.length < 2 ^ 32) :
    push (framed s bytes bitcnt bsr) b =
      if bitcnt = 7 then framed s (bytes ++ [shiftIn bsr b]) 0 (shiftIn bsr b)
      else framed s bytes (bitcnt + 1) (shiftIn bsr b) :=
  congrArg (ite (bitcnt = 7) · _) (emitByte_framed s 0 (shiftIn bsr b) _ hlen)

/-- Directly after the marker (42_assembler_framer R165). -/
theorem locked_nil (s : State) :
    locked s [] =
      s.setDec { s.dec with locked := true, sr := Config.marker, bitcnt := 0, bsr := 0, bytecnt := 0 } := by
  have hfed : (if s.cvActive then feedSection s.dec [] else s.dec) = s.dec := ite_self _
  simp [locked, packBytes, byteOf, framed, hfed, State.setDec]

theorem ofNat_three_eq_iff {n : Nat} {x : BitVec 3} : BitVec.ofNat 3 n = x ↔ n % 8 = x.toNat := by
  rw [← BitVec.toNat_inj, BitVec.toNat_ofNat]

/-- A data bit while Locked (42_assembler_framer R164). -/
theorem acceptBit_locked (s : State) (bs : List Bool) (b : Bool) (hlen : bs.length < 2 ^ 32) :
    acceptBit (locked s bs) b = locked s (bs ++ [b]) := by
  have hcount : BitVec.ofNat 3 bs.length + 1 = BitVec.ofNat 3 (bs ++ [b]).length := by
    rw [List.length_append, BitVec.ofNat_add]
    rfl
  have hbyte : shiftIn (byteOf bs) b = byteOf (bs ++ [b]) := (Reference.byteOf_append bs [b]).symm
  have hpush : acceptBit (locked s bs) b = push (locked s bs) b := if_pos rfl
  have hlast : BitVec.ofNat 3 bs.length = 7 ↔ bs.length % 8 = 7 := ofNat_three_eq_iff
  rw [hpush, locked, push_framed s _ _ _ (Reference.length_packBytes_lt hlen), hcount, hbyte, locked,
    Reference.packBytes_snoc]
  simp only [hlast]
  split
  next hfull =>
    have hzero : BitVec.ofNat 3 (bs ++ [b]).length = 0 := ofNat_three_eq_iff.mpr (by simp; omega)
    rw [hzero]
  next => rw [List.append_nil]

/-- The bits end in the marker (42_assembler_framer R165). -/
abbrev EndsInMarker (acc : List Bool) : Prop := 8 ≤ acc.length ∧ acc.drop (acc.length - 8) = markerBits

/-- A bit before the marker, or its last (42_assembler_framer R165). -/
theorem acceptBit_seeking (h : s.dec.locked = false) (acc : List Bool) (b : Bool) :
    acceptBit (seeking s acc) b =
      if EndsInMarker (acc ++ [b]) then locked s [] else seeking s (acc ++ [b]) := by
  have hshift : shiftIn (acc.foldl shiftIn 0xFF) b = (acc ++ [b]).foldl shiftIn 0xFF := by
    rw [List.foldl_append]
    rfl
  have hseek : acceptBit (seeking s acc) b = (seeking s acc).setDec (seek (seeking s acc).dec b) :=
    if_neg (by simpa [seeking] using h)
  rw [hseek, seek_eq]
  simp only [seeking, State.setDec_dec, hshift, ← Reference.foldl_shiftIn_eq_marker_iff]
  split
  next hmarker =>
    rw [locked_nil, hmarker]
    rfl
  next => rfl

/-- The tokens of a list, received in order by BA. -/
def deliverAll (s : State) (ks : List PulseKind) : State := ks.foldl (fun u k => deliver k u) s

theorem deliverAll_append (s : State) (ks ks' : List PulseKind) :
    deliverAll s (ks ++ ks') = deliverAll (deliverAll s ks) ks' := List.foldl_append

theorem deliver_halted (h : s.dec.errAsm.isSome = true) (k : PulseKind) : deliver k s = s := by
  cases k <;> exact if_pos h

theorem deliverAll_halted (h : s.dec.errAsm.isSome = true) (ks : List PulseKind) : deliverAll s ks = s := by
  induction ks with
  | nil => rfl
  | cons k ks ih => rw [deliverAll, List.foldl_cons, deliver_halted h, ← deliverAll, ih]

theorem not_halted (h : s.dec.errAsm = none) : ¬ s.dec.halted .assembler = true := by
  simp [DecRegs.halted, DecRegs.err, h]

/-- A pulse that is no Gap sends its bit, but for a Start pulse while Locked (42_assembler_framer R161 to
R163). -/
theorem deliver_bit (h : s.dec.errAsm = none) (hk : k ≠ .gap) (hstart : k = .start → s.dec.locked = false) :
    deliver k s = acceptBit s (bitOf k) := by
  cases k with
  | zero | one => exact if_neg (not_halted h)
  | start => exact (if_neg (not_halted h)).trans (if_pos (by simp [hstart rfl]))
  | gap => exact absurd rfl hk

/-- The Start pulse while Locked (42_assembler_framer R163). -/
theorem deliver_start (h : s.dec.errAsm = none) (hlocked : s.dec.locked = true) :
    deliver .start s =
      if s.dec.bitcnt ≠ 0 then
        s.setDec { s.dec with errAsm := some ⟨.invalidStartPulse, s.dec.secidx, s.dec.bitcnt.setWidth 32⟩ }
      else s := by
  rw [deliver, pulseStart, unlessAsmHalted, if_neg (not_halted h), startPulse, if_neg (by simp [hlocked]),
    DecRegs.raise_of_running _ .assembler _ _ _ h]
  rfl

/-- The end of a group (42_assembler_framer R168). -/
theorem deliver_gap (h : s.dec.errAsm = none) :
    deliver .gap s =
      if s.dec.locked then sectionEnd s
      else s.setDec { s.dec with errAsm := some ⟨.startSequenceNotFound, s.dec.secidx, 0⟩ } := by
  rw [deliver, gend, unlessAsmHalted, if_neg (not_halted h), groupEnd,
    DecRegs.raise_of_running _ .assembler _ _ _ h]
  rfl

theorem groupBits_seeking (k : PulseKind) (ks : List PulseKind) (acc : List Bool) :
    groupBits sec false acc (k :: ks) =
      if EndsInMarker (acc ++ [bitOf k]) then groupBits sec true [] ks
      else groupBits sec false (acc ++ [bitOf k]) ks := by
  cases k <;> rfl

theorem groupBits_locked_bit (hk : k ≠ .start) (ks : List PulseKind) (bs : List Bool) :
    groupBits sec true bs (k :: ks) = groupBits sec true (bs ++ [bitOf k]) ks := by
  cases k with
  | start => exact absurd rfl hk
  | zero | one | gap => rfl

/-- What a locked group's pulses do: BA and BF hold the document's accumulator, or BA has its error. -/
theorem deliverAll_locked (hasm : s.dec.errAsm = none) (hsec : s.dec.secidx = BitVec.ofNat 32 sec)
    (hgap : PulseKind.gap ∉ ks) (hlen : bs.length + ks.length < 2 ^ 32) :
    match groupBits sec true bs ks with
    | .ok bs' => deliverAll (locked s bs) ks = locked s bs' ∧ bs'.length < 2 ^ 32
    | .error e => (deliverAll (locked s bs) ks).dec.errAsm = some e := by
  induction ks generalizing bs with
  | nil => exact ⟨rfl, hlen⟩
  | cons k ks ih =>
    have hrun : (locked s bs).dec.errAsm = none := (framed_err s _ _ _ .assembler).trans hasm
    obtain ⟨hk, hks⟩ := not_or.mp (List.mem_cons.not.mp hgap)
    rw [List.length_cons] at hlen
    rw [deliverAll, List.foldl_cons, ← deliverAll]
    by_cases hstart : k = .start
    · subst hstart
      rw [deliver_start hrun rfl, groupBits]
      have hcount : (locked s bs).dec.bitcnt ≠ 0 ↔ bs.length % 8 ≠ 0 := not_congr ofNat_three_eq_iff
      by_cases hzero : bs.length % 8 = 0
      · rw [if_pos hzero, if_neg (by rwa [hcount, not_not])]
        exact ih hks (by omega)
      · rw [if_neg hzero, if_pos (hcount.mpr hzero), deliverAll_halted rfl]
        have hwidth : (BitVec.ofNat 3 bs.length).setWidth 32 = BitVec.ofNat 32 (bs.length % 8) := by
          refine BitVec.eq_of_toNat_eq ?_
          simp
        have hidx : (locked s bs).dec.secidx = BitVec.ofNat 32 sec := (framed_secidx s _ _ _).trans hsec
        rw [hidx]
        exact congrArg (fun w => some (ErrorRecord.mk .invalidStartPulse (BitVec.ofNat 32 sec) w)) hwidth
    · rw [deliver_bit hrun (Ne.symm hk) (absurd · hstart), acceptBit_locked s bs _ (by omega),
        groupBits_locked_bit hstart]
      exact ih hks (by simp; omega)

end

end Sys2Proof.Machine

end

section

namespace Sys2Proof.Machine

/-! ### One group from its start to its end -/

section

open Reference (groupBits packBytes byteOf bufferOf Buffer Section)

variable {s u : State} {ks : List PulseKind} {acc : List Bool} {sec : Nat}

/-- A group: its pulses, and the token that ends it (42_assembler_framer R168). -/
def runGroup (s : State) (ks : List PulseKind) : State := deliver .gap (deliverAll s ks)

/-- What the pulses of a group do before the marker and after it. -/
theorem runGroup_seeking (h : SectionStart s.dec) (hsec : s.dec.secidx = BitVec.ofNat 32 sec)
    (hgap : PulseKind.gap ∉ ks) (hlen : ks.length < 2 ^ 32) :
    match groupBits sec false acc ks with
    | .ok bs => runGroup (seeking s acc) ks = deliver .gap (locked s bs) ∧ bs.length < 2 ^ 32
    | .error e => (runGroup (seeking s acc) ks).dec.errAsm = some e := by
  induction ks generalizing acc with
  | nil =>
    have hlocked : ¬ (seeking s acc).dec.locked = true := by simp [seeking, h.locked]
    rw [runGroup, deliverAll, List.foldl_nil, deliver_gap (s := seeking s acc) h.running, if_neg hlocked, groupBits,
      ← hsec]
    rfl
  | cons k ks ih =>
    obtain ⟨hk, hks⟩ := not_or.mp (List.mem_cons.not.mp hgap)
    rw [List.length_cons] at hlen
    rw [runGroup, deliverAll, List.foldl_cons, ← deliverAll, ← runGroup,
      deliver_bit (s := seeking s acc) h.running (Ne.symm hk) fun _ => h.locked, acceptBit_seeking h.locked,
      groupBits_seeking]
    by_cases hmarker : EndsInMarker (acc ++ [Reference.bitOf k])
    · have hdata := deliverAll_locked (bs := []) h.running hsec hks (by simp; omega)
      rw [if_pos hmarker, if_pos hmarker]
      match hbits : groupBits sec true [] ks with
      | .ok bs =>
        rw [hbits] at hdata
        exact ⟨congrArg (deliver .gap) hdata.1, hdata.2⟩
      | .error e =>
        rw [hbits] at hdata
        show (deliver .gap _).dec.errAsm = some e
        rw [deliver_halted (by rw [hdata]; rfl), hdata]
    · rw [if_neg hmarker, if_neg hmarker]
      exact ih hks (by omega)

theorem seeking_nil (h : SectionStart s.dec) : seeking s [] = s := by
  rw [seeking, List.foldl_nil, ← h.sr]
  rfl

/-- The tail policy at the end of a locked group: BF has emitted the bytes of the document's buffer
(20_memory R72). -/
theorem flushTail_locked (s : State) {bs : List Bool} (hlen : bs.length < 2 ^ 32) :
    ∃ bitcnt, flushTail (locked s bs) = framed s (bufferOf s.build.tailPolicy bs).bytes bitcnt (byteOf bs) := by
  have hbitcnt : (locked s bs).dec.bitcnt = BitVec.ofNat 3 bs.length := rfl
  have hleft : (BitVec.ofNat 3 bs.length).toNat = bs.length % 8 := BitVec.toNat_ofNat ..
  have hzero : BitVec.ofNat 3 bs.length ≠ 0 ↔ bs.length % 8 ≠ 0 := not_congr ofNat_three_eq_iff
  have hpolicy : (locked s bs).build.tailPolicy = s.build.tailPolicy := rfl
  rw [flushTail, hbitcnt, hpolicy, bufferOf]
  split
  next h =>
    have hpad : (8 - bs.length % 8) % 8 = 8 - bs.length % 8 := by
      have := hzero.mp h.2
      omega
    rw [if_pos h.1, hpad, Reference.packBytes_padded, ← hleft]
    exact ⟨0, emitByte_framed s 0 (byteOf bs) (padByte (byteOf bs) (BitVec.ofNat 3 bs.length))
      (Reference.length_packBytes_lt hlen)⟩
  next h =>
    refine ⟨BitVec.ofNat 3 bs.length, congrArg (framed s · _ _) ?_⟩
    show packBytes bs = packBytes _
    split
    next hpad =>
      have hnone : bs.length % 8 = 0 := by_contra fun hne => h ⟨hpad, hzero.mpr hne⟩
      simp [hnone]
    next => rfl

/-- The end of a locked group: the tail, then the section's end. -/
theorem deliver_gap_locked (hasm : s.dec.errAsm = none) {bs : List Bool} (hlen : bs.length < 2 ^ 32) :
    ∃ bitcnt, deliver .gap (locked s bs) =
      closeSection (framed s (bufferOf s.build.tailPolicy bs).bytes bitcnt (byteOf bs))
        (BitVec.ofNat 3 (bufferOf s.build.tailPolicy bs).res) := by
  obtain ⟨bitcnt, hflush⟩ := flushTail_locked s hlen
  have hres : (locked s bs).dec.bitcnt = BitVec.ofNat 3 (bufferOf s.build.tailPolicy bs).res := by
    refine ofNat_three_eq_iff.mpr ?_
    rw [BitVec.toNat_ofNat, bufferOf, Nat.mod_mod]
  refine ⟨bitcnt, ?_⟩
  rw [deliver_gap (s := locked s bs) ((framed_err s _ _ _ .assembler).trans hasm),
    if_pos (show (locked s bs).dec.locked = true from rfl), sectionEnd_eq, hflush, hres]

/-! ### What a section delivers -/

/-- What a section end leaves of the state at the section's start. -/
structure SectionDone (s u : State) : Prop where
  start : SectionStart u.dec
  secidx : u.dec.secidx = s.dec.secidx + 1
  cfg : u.cfg = s.cfg
  build : u.build = s.build
  errVal : ∀ e, s.dec.errVal = some e → u.dec.errVal = some e

variable {bitcnt : BitVec 3} {bsr : Byte}

theorem cvAtSectionEnd_inactive (h : s.cvActive = false) (n : Word) :
    cvAtSectionEnd s n = (s.dec, false, 0) := if_neg (by simp [h])

theorem cvAtSectionEnd_regs (s : State) (n : Word) :
    (cvAtSectionEnd s n).1 = s.dec ∨
    ∃ e : ErrorRecord, (cvAtSectionEnd s n).1 = s.dec.raise .validator e.kind e.info e.info2 := by
  unfold cvAtSectionEnd
  split
  · exact (cvSectionEnd_regs s.cfg s.build s.dec n).imp_right fun ⟨e, _, h⟩ => ⟨e, h⟩
  · exact .inl rfl

theorem cvAtSectionEnd_errAsm (s : State) (n : Word) : (cvAtSectionEnd s n).1.errAsm = s.dec.errAsm := by
  obtain h | ⟨e, h⟩ := cvAtSectionEnd_regs s n <;> rw [h]
  exact DecRegs.raise_err_of_ne s.dec (st' := .assembler) _ _ _ (by decide)

theorem cvAtSectionEnd_secidx (s : State) (n : Word) : (cvAtSectionEnd s n).1.secidx = s.dec.secidx := by
  obtain h | ⟨e, h⟩ := cvAtSectionEnd_regs s n <;> rw [h]
  exact DecRegs.raise_secidx ..

theorem cvAtSectionEnd_errVal {e : ErrorRecord} (h : s.dec.errVal = some e) (n : Word) :
    (cvAtSectionEnd s n).1.errVal = some e := by
  obtain hregs | ⟨e', hregs⟩ := cvAtSectionEnd_regs s n <;> rw [hregs]
  · exact h
  · exact DecRegs.raise_keeps_error s.dec .validator .validator _ _ _ e h

theorem closeSection_done (hasm : s.dec.errAsm = none) (bytes : List Byte) (bitcnt : BitVec 3) (bsr : Byte)
    (res : BitVec 3) : SectionDone s (closeSection (framed s bytes bitcnt bsr) res) where
  start := ⟨rfl, rfl, rfl, rfl, rfl,
    (cvAtSectionEnd_errAsm ..).trans ((framed_err s _ _ _ .assembler).trans hasm)⟩
  secidx := congrArg (· + 1) ((cvAtSectionEnd_secidx ..).trans (framed_secidx ..))
  cfg := rfl
  build := rfl
  errVal _ h := cvAtSectionEnd_errVal ((framed_err s _ _ _ .validator).trans h) _

/-- The document's report on record `sec`: verbatim in raw mode, checked in text mode (40_control R131). -/
def reportRecord (cfg : CfgRegs) (build : BuildParams) (sec : Nat) (b : Buffer) : Except ErrorRecord Section :=
  if cfg.text then
    match Reference.checkRecord build cfg.ignck sec b.bytes with
    | some e => .error e
    | none => .ok ⟨b.bytes, b.res, true, Reference.recordLen build.allFillerLen sec b.bytes⟩
  else .ok ⟨b.bytes, b.res, false, 0⟩

/-- CV's call at the end of a section it has been fed is the document's report. -/
theorem cvAtSectionEnd_framed (hval : s.dec.errVal = none) (b : Buffer) (hlen : b.bytes.length < 2 ^ 32) :
    match reportRecord s.cfg s.build s.dec.secidx.toNat b with
    | .error e => (cvAtSectionEnd (framed s b.bytes bitcnt bsr) (BitVec.ofNat 32 b.bytes.length)).1.errVal = some e
    | .ok x => (cvAtSectionEnd (framed s b.bytes bitcnt bsr) (BitVec.ofNat 32 b.bytes.length)).1.errVal = none ∧
        (cvAtSectionEnd (framed s b.bytes bitcnt bsr) (BitVec.ofNat 32 b.bytes.length)).2 = (x.acc, x.len) ∧
        x.bytes = b.bytes ∧ x.res = b.res := by
  have hframed : (framed s b.bytes bitcnt bsr).dec.errVal = none := (framed_err s _ _ _ .validator).trans hval
  have hactive : (framed s b.bytes bitcnt bsr).cvActive = s.cfg.text := by
    rw [framed_cvActive]
    simp [State.cvActive, DecRegs.halted, DecRegs.err, hval]
  rw [reportRecord]
  cases htext : s.cfg.text with
  | false =>
    rw [cvAtSectionEnd_inactive (hactive.trans htext)]
    exact ⟨hframed, rfl, rfl, rfl⟩
  | true =>
    have hfed : (if s.cvActive then feedSection s.dec b.bytes else s.dec) = feedSection s.dec b.bytes :=
      if_pos ((framed_cvActive s b.bytes bitcnt bsr).symm.trans (hactive.trans htext))
    have hverdict : cvVerdict s.cfg s.build (framed s b.bytes bitcnt bsr).dec (BitVec.ofNat 32 b.bytes.length) =
        Reference.checkRecord s.build s.cfg.ignck s.dec.secidx.toNat b.bytes := by
      rw [← cvVerdict_feedSection s.cfg s.build s.dec hlen, ← hfed]
      rfl
    have hcall : cvAtSectionEnd (framed s b.bytes bitcnt bsr) (BitVec.ofNat 32 b.bytes.length) =
        cvSectionEnd s.cfg s.build (framed s b.bytes bitcnt bsr).dec (BitVec.ofNat 32 b.bytes.length) :=
      if_pos (hactive.trans htext)
    rw [hcall, cvSectionEnd, hverdict, if_pos rfl]
    match hcheck : Reference.checkRecord s.build s.cfg.ignck s.dec.secidx.toNat b.bytes with
    | some e =>
      show (DecRegs.raise _ .validator _ _ _).errVal = some e
      rw [DecRegs.raise_of_running _ .validator _ _ _ hframed]
      rfl
    | none =>
      refine ⟨hframed, ?_, rfl, rfl⟩
      show cvLengths s.build (framed s b.bytes bitcnt bsr).dec = _
      rw [← cvLengths_feedSection s.cfg s.build s.dec hcheck, ← hfed]
      rfl

/-- From `s` to `u` the sections `xs`, from number `sec` on, have been delivered, or the validator has taken the
error in their place. -/
def Delivered (s u : State) (sec : Nat) : Except ErrorRecord (List Section) → Prop
  | .error e => u.dec.errVal = some e
  | .ok xs => u.dec.errVal = none ∧ u.doStream = s.doStream ++ Reference.tokensFrom sec xs

theorem closeSection_delivered (hval : s.dec.errVal = none) (b : Buffer) (hlen : b.bytes.length < 2 ^ 32) :
    Delivered s (closeSection (framed s b.bytes bitcnt bsr) (BitVec.ofNat 3 b.res)) s.dec.secidx.toNat
      ((reportRecord s.cfg s.build s.dec.secidx.toNat b).map ([·])) := by
  have hreport := cvAtSectionEnd_framed (bitcnt := bitcnt) (bsr := bsr) hval b hlen
  match hrecord : reportRecord s.cfg s.build s.dec.secidx.toNat b with
  | .error e =>
    rw [hrecord] at hreport
    exact hreport
  | .ok x =>
    rw [hrecord] at hreport
    obtain ⟨herr, hlengths, hbytes, hres⟩ := hreport
    refine ⟨herr, ?_⟩
    have hstream : (closeSection (framed s b.bytes bitcnt bsr) (BitVec.ofNat 3 b.res)).doStream =
        s.doStream ++ b.bytes.map .ob ++
          [.os (framed s b.bytes bitcnt bsr).dec.secidx (BitVec.ofNat 32 b.bytes.length) (BitVec.ofNat 3 b.res)
            (cvAtSectionEnd (framed s b.bytes bitcnt bsr) (BitVec.ofNat 32 b.bytes.length)).2.1
            (cvAtSectionEnd (framed s b.bytes bitcnt bsr) (BitVec.ofNat 32 b.bytes.length)).2.2] := rfl
    rw [hstream, hlengths, framed_secidx]
    simp [Reference.tokensFrom, Reference.sectionTokens, hbytes, hres]

end

end Sys2Proof.Machine

end

section

namespace Sys2Proof.Machine

/-! ### The groups of a call (40_control R131) -/

section

open Reference (groupBits assemble bufferOf Buffer Section tokensFrom sectionTokens)

variable {cfg : CfgRegs} {build : BuildParams} {s u : State} {sec : Nat} {gs : List (List PulseKind)}
  {bs : List Buffer} {xs : List Section}

/-- The document's report on the buffers from record `sec` on. -/
def reportAll (cfg : CfgRegs) (build : BuildParams) : Nat → List Buffer → Except ErrorRecord (List Section)
  | _, [] => .ok []
  | sec, b :: bs =>
    match reportRecord cfg build sec b with
    | .error e => .error e
    | .ok x => (reportAll cfg build (sec + 1) bs).map (x :: ·)

theorem reportAll_text (h : cfg.text = true) (sec : Nat) (bs : List Buffer) :
    reportAll cfg build sec bs = Reference.parse build cfg.ignck sec bs := by
  induction bs generalizing sec with
  | nil => rfl
  | cons b bs ih =>
    rw [reportAll, Reference.parse, reportRecord, if_pos h, ih]
    cases Reference.checkRecord build cfg.ignck sec b.bytes <;> rfl

theorem reportAll_raw (h : cfg.text = false) (sec : Nat) (bs : List Buffer) :
    reportAll cfg build sec bs = .ok (bs.map fun b => ⟨b.bytes, b.res, false, 0⟩) := by
  induction bs generalizing sec with
  | nil => rfl
  | cons b bs ih =>
    rw [reportAll, reportRecord, if_neg (by simp [h]), ih]
    rfl

theorem length_reportAll (h : reportAll cfg build sec bs = .ok xs) : xs.length = bs.length := by
  induction bs generalizing sec xs with
  | nil =>
    cases h
    rfl
  | cons b bs ih =>
    rw [reportAll] at h
    split at h
    · cases h
    · match hrest : reportAll cfg build (sec + 1) bs with
      | .error e =>
        rw [hrest] at h
        cases h
      | .ok ys =>
        rw [hrest] at h
        cases h
        rw [List.length_cons, ih hrest, List.length_cons]

theorem length_assemble {tail : TailPolicy} (h : assemble tail sec gs = .ok bs) : bs.length = gs.length := by
  induction gs generalizing sec bs with
  | nil =>
    cases h
    rfl
  | cons g gs ih =>
    rw [assemble] at h
    split at h
    · cases h
    · match hrest : assemble tail (sec + 1) gs with
      | .error e =>
        rw [hrest] at h
        cases h
      | .ok ys =>
        rw [hrest] at h
        cases h
        rw [List.length_cons, ih hrest, List.length_cons]

/-- A group against the document's `assemble` and `parse` on it. -/
theorem runGroup_spec (h : SectionStart s.dec) (hsec : s.dec.secidx = BitVec.ofNat 32 sec) (hroom : sec < 2 ^ 32)
    {g : List PulseKind} (hgap : PulseKind.gap ∉ g) (hlen : g.length < 2 ^ 32) :
    match groupBits sec false [] g with
    | .error e => (runGroup s g).dec.errAsm = some e
    | .ok bits => SectionDone s (runGroup s g) ∧ (s.dec.errVal = none →
        Delivered s (runGroup s g) sec
          ((reportRecord s.cfg s.build sec (bufferOf s.build.tailPolicy bits)).map ([·]))) := by
  have hgroup := runGroup_seeking (acc := []) h hsec hgap hlen
  rw [seeking_nil h] at hgroup
  match hbits : groupBits sec false [] g with
  | .error e =>
    rw [hbits] at hgroup
    exact hgroup
  | .ok bits =>
    rw [hbits] at hgroup
    obtain ⟨hlocked, hlen⟩ := hgroup
    obtain ⟨bitcnt, hclose⟩ := deliver_gap_locked h.running hlen
    have hbytes : (bufferOf s.build.tailPolicy bits).bytes.length < 2 ^ 32 := by
      rw [bufferOf, Reference.length_packBytes]
      split
      · rw [List.length_append, List.length_replicate]
        omega
      · omega
    have hidx : s.dec.secidx.toNat = sec := by rw [hsec, BitVec.toNat_ofNat, Nat.mod_eq_of_lt hroom]
    rw [hlocked, hclose]
    refine ⟨closeSection_done h.running _ _ _ _, fun hval => ?_⟩
    rw [← hidx]
    exact closeSection_delivered hval _ hbytes

/-- The groups in order. -/
def runGroups (s : State) (gs : List (List PulseKind)) : State := gs.foldl runGroup s

theorem runGroups_cons (s : State) (g : List PulseKind) (gs : List (List PulseKind)) :
    runGroups s (g :: gs) = runGroups (runGroup s g) gs := rfl

theorem runGroups_halted (h : s.dec.errAsm.isSome = true) (gs : List (List PulseKind)) : runGroups s gs = s := by
  induction gs with
  | nil => rfl
  | cons g gs ih => rw [runGroups_cons, runGroup, deliverAll_halted h, deliver_halted h, ih]

theorem Delivered.trans {r : Except ErrorRecord (List Section)} {x : Section} {t : State}
    (h : Delivered s t sec (.ok [x])) (k : Delivered t u (sec + 1) r) : Delivered s u sec (r.map (x :: ·)) := by
  match r with
  | .error e => exact k
  | .ok xs =>
    refine ⟨k.1, ?_⟩
    rw [k.2, h.2]
    simp [tokensFrom]

/-- What the groups of a call leave, if the document's `assemble` accepts them as `bs`. -/
structure GroupsDone (s u : State) (sec : Nat) (bs : List Buffer) : Prop where
  errAsm : u.dec.errAsm = none
  secidx : u.dec.secidx = BitVec.ofNat 32 (sec + bs.length)
  errVal : ∀ e, s.dec.errVal = some e → u.dec.errVal = some e
  delivered : s.dec.errVal = none → Delivered s u sec (reportAll s.cfg s.build sec bs)

theorem GroupsDone.cons {t : State} {b : Buffer} (hdone : SectionDone s t)
    (hfirst : s.dec.errVal = none → Delivered s t sec ((reportRecord s.cfg s.build sec b).map ([·])))
    (hrest : GroupsDone t u (sec + 1) bs) : GroupsDone s u sec (b :: bs) where
  errAsm := hrest.errAsm
  secidx := by rw [hrest.secidx, List.length_cons, Nat.add_right_comm, Nat.add_assoc]
  errVal e h := hrest.errVal e (hdone.errVal e h)
  delivered hval := by
    have hfirst := hfirst hval
    rw [reportAll]
    match hrecord : reportRecord s.cfg s.build sec b with
    | .error e =>
      rw [hrecord] at hfirst
      exact hrest.errVal e hfirst
    | .ok x =>
      rw [hrecord] at hfirst
      have hnext := hrest.delivered hfirst.1
      rw [hdone.cfg, hdone.build] at hnext
      exact Delivered.trans hfirst hnext

/-- The groups of a call against the document's `assemble` on them: BA takes its error, or the sections are
delivered. -/
theorem runGroups_spec (h : SectionStart s.dec) (hsec : s.dec.secidx = BitVec.ofNat 32 sec)
    (hroom : sec + gs.length < 2 ^ 32) (hgs : ∀ g ∈ gs, PulseKind.gap ∉ g ∧ g.length < 2 ^ 32) :
    match assemble s.build.tailPolicy sec gs with
    | .error e => (runGroups s gs).dec.errAsm = some e
    | .ok bs => GroupsDone s (runGroups s gs) sec bs := by
  induction gs generalizing s sec with
  | nil => exact ⟨h.running, hsec, fun _ => id, fun hval => ⟨hval, (List.append_nil _).symm⟩⟩
  | cons g gs ih =>
    obtain ⟨⟨hgap, hlen⟩, hgs⟩ := List.forall_mem_cons.mp hgs
    rw [List.length_cons] at hroom
    have hgroup := runGroup_spec h hsec (by omega) hgap hlen
    rw [runGroups_cons, assemble]
    match hbits : groupBits sec false [] g with
    | .error e =>
      rw [hbits] at hgroup
      show (runGroups _ gs).dec.errAsm = some e
      rw [runGroups_halted (by rw [hgroup]; rfl), hgroup]
    | .ok bits =>
      rw [hbits] at hgroup
      obtain ⟨hdone, hfirst⟩ := hgroup
      have hnext : (runGroup s g).dec.secidx = BitVec.ofNat 32 (sec + 1) := by
        rw [hdone.secidx, hsec, BitVec.ofNat_add]
        rfl
      have hrest := ih hdone.start hnext (by omega) hgs
      rw [hdone.build] at hrest
      match hassemble : assemble s.build.tailPolicy (sec + 1) gs with
      | .error e =>
        rw [hassemble] at hrest
        exact hrest
      | .ok bs =>
        rw [hassemble] at hrest
        exact .cons hdone hfirst hrest

end

end Sys2Proof.Machine

end

section

namespace Sys2Proof.Machine

/-! ### Samples as crossings and intervals (41_demodulator R144, R145)

The document's lists over one more sample. -/

section

open Reference (qualifying crossings intervals groups)

variable {cfg : CfgRegs} {vs : List Word} {v : Word} {rate : Nat} {ks : List PulseKind}
  {xs : List (Nat × Nat)} {acc : List PulseKind}

theorem zip_tail_snoc {α : Type} (l : List α) (x : α) :
    (l ++ [x]).zip (l ++ [x]).tail = l.zip l.tail ++ l.getLast?.toList.map (·, x) := by
  induction l with
  | nil => rfl
  | cons a l ih =>
    cases l with
    | nil => rfl
    | cons b l => exact congrArg ((a, b) :: ·) ih

/-- The sample at index `n` is inspected and above the threshold (41_demodulator R144). -/
def qualifies (cfg : CfgRegs) (n : Nat) (v : Word) : Bool :=
  decide (n % cfg.chan.toNat = 0) && aboveThreshold cfg.bits v

theorem qualifying_snoc (cfg : CfgRegs) (vs : List Word) (v : Word) :
    qualifying cfg (vs ++ [v]) =
      qualifying cfg vs ++ if qualifies cfg vs.length v then [(vs.length, decide (0 < v.toInt))] else [] := by
  simp only [qualifying, List.zipIdx_append, List.filter_append, List.map_append, List.zipIdx_cons, List.zipIdx_nil,
    List.filter_cons, List.filter_nil, Nat.zero_add, qualifies]
  exact congrArg (_ ++ ·) (apply_ite (List.map _) _ _ _)

/-- `LAST_SIGN` for the last sample above the threshold (10_state R31). -/
def lastSignOf : Option (Nat × Bool) → LastSign
  | none => .none
  | some (_, true) => .pos
  | some (_, false) => .neg

theorem lastSignOf_some (n : Nat) (v : Word) : lastSignOf (some (n, decide (0 < v.toInt))) = signOf v := by
  by_cases hpos : 0 < v.toInt
  · rw [signOf, if_pos hpos, decide_eq_true hpos]
    rfl
  · rw [signOf, if_neg hpos, decide_eq_false hpos]
    rfl

theorem crossings_snoc (cfg : CfgRegs) (vs : List Word) (v : Word) :
    crossings cfg (vs ++ [v]) =
      crossings cfg vs ++
        if qualifies cfg vs.length v && isCrossing (lastSignOf (qualifying cfg vs).getLast?) v then [vs.length]
        else [] := by
  simp only [crossings, qualifying_snoc]
  cases hqual : qualifies cfg vs.length v with
  | false => simp
  | true =>
    simp only [if_true, zip_tail_snoc, List.filter_append, List.map_append, Bool.true_and]
    congr 1
    match (qualifying cfg vs).getLast? with
    | none => simp [lastSignOf, isCrossing]
    | some (_, true) => simp [lastSignOf, isCrossing]
    | some (n, false) => by_cases hpos : 0 < v.toInt <;> simp [lastSignOf, isCrossing, signOf, hpos]

theorem intervals_snoc (cs : List Nat) (c : Nat) :
    intervals (cs ++ [c]) = intervals cs ++ cs.getLast?.toList.map fun p => (c - p, c) := by
  simp [intervals, zip_tail_snoc]

theorem length_intervals_le (cfg : CfgRegs) (vs : List Word) :
    (intervals (crossings cfg vs)).length ≤ vs.length := by
  have hzip {α : Type} (l : List α) : (l.zip l.tail).length ≤ l.length := by simp
  have hcrossings : (crossings cfg vs).length ≤ (qualifying cfg vs).length := by
    rw [crossings, List.length_map]
    exact (List.length_filter_le _ _).trans (hzip _)
  have hqualifying : (qualifying cfg vs).length ≤ vs.length := by
    rw [qualifying, List.length_map]
    exact (List.length_filter_le _ _).trans_eq List.length_zipIdx
  rw [intervals, List.length_map]
  exact (hzip _).trans (hcrossings.trans hqualifying)

/-! ### Pulses as groups (41_demodulator R147 to R149) -/

/-- The intervals are classified as `ks`. -/
def Classified (rate : Nat) (xs : List (Nat × Nat)) (ks : List PulseKind) : Prop :=
  xs.map (fun p => classify rate p.1) = ks.map some

/-- The groups of classified pulses: a Gap ends one, the end of input a non-empty one. -/
def splitGroups : List PulseKind → List PulseKind → List (List PulseKind)
  | acc, [] => if acc.isEmpty then [] else [acc]
  | acc, .gap :: ks => acc :: splitGroups [] ks
  | acc, k :: ks => splitGroups (acc ++ [k]) ks

theorem Classified.snoc {k : PulseKind} (h : Classified rate xs ks) {p : Nat × Nat}
    (hp : classify rate p.1 = some k) : Classified rate (xs ++ [p]) (ks ++ [k]) := by
  rw [Classified, List.map_append, List.map_append, h, List.map_singleton, hp, List.map_singleton]

theorem Classified.length (h : Classified rate xs ks) : ks.length = xs.length := by
  simpa using (congrArg List.length h).symm

theorem groups_of_classified (h : Classified rate xs ks) : groups rate acc xs = .ok (splitGroups acc ks) := by
  induction xs generalizing ks acc with
  | nil =>
    obtain rfl : ks = [] := List.length_eq_zero_iff.mp h.length
    rfl
  | cons p xs ih =>
    match ks, h with
    | k :: ks, h =>
      obtain ⟨hk, hks⟩ : classify rate p.1 = some k ∧ Classified rate xs ks := List.cons.inj h
      rw [groups, hk]
      cases k with
      | zero | one | start => exact ih hks
      | gap =>
        show (groups rate [] xs).map _ = _
        rw [ih hks]
        rfl

/-- The first interval in no window is the document's error (41_demodulator R147). -/
theorem groups_of_unclassified (h : Classified rate xs ks) {d c : Nat} (hd : classify rate d = none)
    (ys : List (Nat × Nat)) :
    groups rate acc (xs ++ (d, c) :: ys) = .error ⟨.invalidPulseLength, BitVec.ofNat 32 d, BitVec.ofNat 32 c⟩ := by
  induction xs generalizing ks acc with
  | nil => rw [List.nil_append, groups, hd]
  | cons p xs ih =>
    match ks, h with
    | k :: ks, h =>
      obtain ⟨hk, hks⟩ : classify rate p.1 = some k ∧ Classified rate xs ks := List.cons.inj h
      rw [List.cons_append, groups, hk]
      cases k with
      | zero | one | start => exact ih hks
      | gap =>
        show (groups rate [] _).map _ = _
        rw [ih hks]
        rfl

theorem length_splitGroups_le (acc ks : List PulseKind) :
    (splitGroups acc ks).length ≤ acc.length + ks.length := by
  induction ks generalizing acc with
  | nil =>
    cases acc with
    | nil => exact Nat.le_refl 0
    | cons a acc => simp [splitGroups]
  | cons k ks ih =>
    cases k with
    | gap =>
      have := ih []
      simp only [splitGroups, List.length_cons, List.length_nil] at this ⊢
      omega
    | zero | one | start =>
      refine (ih _).trans_eq ?_
      simp only [List.length_append, List.length_cons, List.length_nil]
      omega

/-- No group holds a Gap, and none is longer than the pulses. -/
theorem forall_mem_splitGroups (hacc : PulseKind.gap ∉ acc) {n : Nat} (hn : acc.length + ks.length < n) :
    ∀ g ∈ splitGroups acc ks, PulseKind.gap ∉ g ∧ g.length < n := by
  induction ks generalizing acc with
  | nil =>
    rw [splitGroups]
    split
    · exact fun _ h => absurd h List.not_mem_nil
    · exact List.forall_mem_singleton.mpr ⟨hacc, by simpa using hn⟩
  | cons k ks ih =>
    rw [List.length_cons] at hn
    cases k with
    | gap => exact List.forall_mem_cons.mpr ⟨⟨hacc, by omega⟩, ih List.not_mem_nil (by simp; omega)⟩
    | zero | one | start => exact ih (by simpa using hacc) (by simp; omega)

/-- A group is open after the pulses: the last is no Gap (10_state R33). -/
def leavesOpen (opened : Bool) (ks : List PulseKind) : Bool := ks.foldl (fun _ k => decide (k ≠ .gap)) opened

/-- The pulses in order, and the end of an open group, are the groups in order. -/
theorem runGroups_splitGroups (s : State) (acc ks : List PulseKind) :
    runGroups s (splitGroups acc ks) =
      if leavesOpen (!acc.isEmpty) ks then deliver .gap (deliverAll (deliverAll s acc) ks)
      else deliverAll (deliverAll s acc) ks := by
  induction ks generalizing s acc with
  | nil => cases acc <;> rfl
  | cons k ks ih =>
    cases k with
    | gap => exact ih (runGroup s acc) []
    | zero | one | start =>
      have hopen (k : PulseKind) : (acc ++ [k]).isEmpty = false := by simp
      refine (ih s (acc ++ [_])).trans ?_
      rw [hopen, deliverAll_append]
      rfl

end

end Sys2Proof.Machine

end

section

namespace Sys2Proof.Machine

/-! ### A sample as a change of the front registers and at most one pulse (41_demodulator R140 to R148) -/

section

variable {cfg : CfgRegs} {d : DecRegs} {s : State}

/-- A crossing at `IDX`: the front registers afterwards and the pulse that ends there (41_demodulator R145). -/
def crossed (cfg : CfgRegs) (d : DecRegs) : DecRegs × List PulseKind :=
  let here := { d with prevValid := true, prevIdx := d.idx }
  if d.prevValid then
    match classify cfg.rate.toNat (d.idx - d.prevIdx).toNat with
    | none => ({ here with errCls := some ⟨.invalidPulseLength, d.idx - d.prevIdx, d.idx⟩ }, [])
    | some k => ({ here with grpOpen := decide (k ≠ .gap) }, [k])
  else (here, [])

/-- A sample above the threshold: the crossing test and `LAST_SIGN` (41_demodulator R143). -/
def signed (cfg : CfgRegs) (d : DecRegs) (v : Word) : DecRegs × List PulseKind :=
  let r := if isCrossing d.lastSign v then crossed cfg d else (d, [])
  ({ r.1 with lastSign := signOf v }, r.2)

/-- A sample of a running call: the front registers afterwards and the pulse it ends (41_demodulator R140,
R142). -/
def sampled (cfg : CfgRegs) (d : DecRegs) (v : Word) : DecRegs × List PulseKind :=
  let r := if inspected d && aboveThreshold cfg.bits v then signed cfg d v else (d, [])
  (counted cfg r.1, r.2)

/-- The state after the front registers `r.1` and the pulses `r.2`. -/
def State.follow (s : State) (r : DecRegs × List PulseKind) : State := (deliverAll s r.2).withFront r.1

theorem cross_eq (h : s.dec.errCls = none) : cross s s.dec.idx = s.follow (crossed s.cfg s.dec) := by
  rw [cross, crossed, measure]
  split
  next =>
    match classify s.cfg.rate.toNat (s.dec.idx - s.dec.prevIdx).toNat with
    | none =>
      rw [DecRegs.raise_of_running _ .classifier _ _ _ h]
      rfl
    | some k =>
      simp only [pulse_eq]
      rfl
  next => rfl

theorem update_eq (h : s.dec.errCls = none) (v : Word) : update s v s.dec.idx = s.follow (signed s.cfg s.dec v) := by
  rw [update, signed, cross_eq h]
  split <;> rfl

theorem deliverAll_only (s : State) (ks : List PulseKind) : OnlyDecoder s (deliverAll s ks) := by
  induction ks generalizing s with
  | nil => exact .refl s
  | cons k ks ih => exact (deliver_frame k s).toOnlyDecoder.trans (ih _)

theorem advance_follow (s : State) (r : DecRegs × List PulseKind) :
    advance (s.follow r) = s.follow (counted s.cfg r.1, r.2) := by
  rw [← (deliverAll_only s r.2).cfg]
  rfl

theorem acceptSample_eq (hroom : s.dec.idx.toNat < indexLimit s.build) (v : Word) :
    acceptSample s v = s.follow (sampled s.cfg s.dec v) := by
  have hinspect : inspectIfDue s v =
      s.follow (if inspected s.dec && aboveThreshold s.cfg.bits v then signed s.cfg s.dec v else (s.dec, [])) := by
    rw [inspectIfDue, inspect]
    cases hdue : inspected s.dec with
    | false => rfl
    | true =>
      have hrunning : s.dec.errCls = none := by
        simpa [DecRegs.halted, DecRegs.err] using (Bool.and_eq_true_iff.mp hdue).2
      rw [update_eq hrunning]
      cases aboveThreshold s.cfg.bits v <;> rfl
  rw [acceptSample_belowLimit v hroom, hinspect, advance_follow]
  rfl

end

/-! ### The samples of a call, seen from the front registers -/

section

open Reference (qualifying crossings intervals groups)

variable {cfg : CfgRegs} {d e : DecRegs} {vs : List Word} {v : Word} {ks : List PulseKind}

/-- `IDX` and `CHPH` after the samples of a call (10_state R29, R30). -/
structure Counts (cfg : CfgRegs) (vs : List Word) (d : DecRegs) : Prop where
  idx : d.idx.toNat = vs.length
  chph : d.chph.toNat = vs.length % cfg.chan.toNat

/-- The front registers of a running classifier after the samples `vs`, which end the pulses `ks`. -/
structure Tracks (cfg : CfgRegs) (vs : List Word) (d : DecRegs) (ks : List PulseKind) : Prop where
  errCls : d.errCls = none
  sign : d.lastSign = lastSignOf (qualifying cfg vs).getLast?
  prev : (crossings cfg vs).getLast? = if d.prevValid then some d.prevIdx.toNat else none
  prevLt : d.prevValid = true → d.prevIdx.toNat < vs.length
  classified : Classified cfg.rate.toNat (intervals (crossings cfg vs)) ks
  grpOpen : d.grpOpen = leavesOpen false ks

/-- The classifier has halted with the document's error on the samples `vs`, whatever comes after them. -/
def Halts (cfg : CfgRegs) (vs : List Word) (d : DecRegs) : Prop :=
  ∃ e, d.errCls = some e ∧ ∀ ys, groups cfg.rate.toNat [] (intervals (crossings cfg vs) ++ ys) = .error e

theorem Counts.inspected (h : Counts cfg vs d) (hrunning : d.errCls = none) :
    inspected d = decide (vs.length % cfg.chan.toNat = 0) := by
  have hchph : d.chph = 0 ↔ vs.length % cfg.chan.toNat = 0 := by
    rw [← h.chph, ← BitVec.toNat_inj]
    rfl
  have hdecide : decide (d.chph = 0) = decide (vs.length % cfg.chan.toNat = 0) := decide_eq_decide.mpr hchph
  rw [Machine.inspected, hdecide]
  simp [DecRegs.halted, DecRegs.err, hrunning]

theorem leavesOpen_snoc (opened : Bool) (ks : List PulseKind) (k : PulseKind) :
    leavesOpen opened (ks ++ [k]) = decide (k ≠ .gap) := by
  rw [leavesOpen, List.foldl_append]
  rfl

theorem Tracks.unqualified (h : Tracks cfg vs d ks) (hv : qualifies cfg vs.length v = false) :
    Tracks cfg (vs ++ [v]) d ks := by
  have hqual : qualifying cfg (vs ++ [v]) = qualifying cfg vs := by simp [qualifying_snoc, hv]
  have hcross : crossings cfg (vs ++ [v]) = crossings cfg vs := by simp [crossings_snoc, hv]
  exact ⟨h.errCls, hqual ▸ h.sign, hcross ▸ h.prev, fun hvalid => (h.prevLt hvalid).trans_le (by simp),
    hcross ▸ h.classified, h.grpOpen⟩

/-- The crossings after a sample above the threshold, in the terms of the registers. -/
theorem Tracks.crossings (h : Tracks cfg vs d ks) (hv : qualifies cfg vs.length v = true) :
    crossings cfg (vs ++ [v]) =
      crossings cfg vs ++ if isCrossing d.lastSign v then [vs.length] else [] := by
  rw [crossings_snoc, ← h.sign, hv, Bool.true_and]

theorem Tracks.sign_snoc (hv : qualifies cfg vs.length v = true) :
    signOf v = lastSignOf (qualifying cfg (vs ++ [v])).getLast? := by
  rw [qualifying_snoc, if_pos hv, List.getLast?_concat, lastSignOf_some]

/-- The interval that a crossing ends, if it is not the first (41_demodulator R145). -/
theorem Tracks.intervals (h : Tracks cfg vs d ks) (hcounts : Counts cfg vs d) :
    intervals (Reference.crossings cfg vs ++ [vs.length]) =
      Reference.intervals (Reference.crossings cfg vs) ++
        if d.prevValid then [((d.idx - d.prevIdx).toNat, d.idx.toNat)] else [] := by
  rw [intervals_snoc, h.prev]
  split
  next hvalid =>
    have hle : d.prevIdx ≤ d.idx := BitVec.le_def.mpr (hcounts.idx ▸ (h.prevLt hvalid).le)
    rw [BitVec.toNat_sub_of_le hle, hcounts.idx]
    rfl
  next => rfl

/-- A crossing ends a pulse of the document, or takes its error. -/
theorem Tracks.crossed (h : Tracks cfg vs d ks) (hcounts : Counts cfg vs d)
    (hv : qualifies cfg vs.length v = true) (hcross : isCrossing d.lastSign v = true) :
    Tracks cfg (vs ++ [v]) { (crossed cfg d).1 with lastSign := signOf v } (ks ++ (crossed cfg d).2) ∨
      Halts cfg (vs ++ [v]) (crossed cfg d).1 := by
  have hcrossings : Reference.crossings cfg (vs ++ [v]) = Reference.crossings cfg vs ++ [vs.length] := by
    rw [h.crossings hv, if_pos hcross]
  have hintervals := h.intervals hcounts
  have hprev : (Reference.crossings cfg (vs ++ [v])).getLast? = some d.idx.toNat := by
    rw [hcrossings, List.getLast?_concat, hcounts.idx]
  have hprevLt : d.idx.toNat < (vs ++ [v]).length := by
    rw [hcounts.idx]
    simp
  rw [Machine.crossed]
  split
  next hvalid =>
    rw [if_pos hvalid] at hintervals
    match hclass : classify cfg.rate.toNat (d.idx - d.prevIdx).toNat with
    | none =>
      refine .inr ⟨_, rfl, fun ys => ?_⟩
      rw [hcrossings, hintervals, List.append_assoc, List.singleton_append, groups_of_unclassified h.classified hclass,
        BitVec.ofNat_toNat, BitVec.ofNat_toNat, BitVec.setWidth_eq, BitVec.setWidth_eq]
    | some k =>
      refine .inl ⟨h.errCls, sign_snoc hv, hprev, fun _ => hprevLt, ?_, (leavesOpen_snoc false ks k).symm⟩
      rw [hcrossings, hintervals]
      exact h.classified.snoc hclass
  next hvalid =>
    rw [if_neg hvalid, List.append_nil] at hintervals
    rw [List.append_nil]
    refine .inl ⟨h.errCls, sign_snoc hv, hprev, fun _ => hprevLt, ?_, h.grpOpen⟩
    rw [hcrossings, hintervals]
    exact h.classified

theorem Tracks.signed (h : Tracks cfg vs d ks) (hcounts : Counts cfg vs d)
    (hv : qualifies cfg vs.length v = true) :
    Tracks cfg (vs ++ [v]) (signed cfg d v).1 (ks ++ (signed cfg d v).2) ∨
      Halts cfg (vs ++ [v]) (signed cfg d v).1 := by
  rw [Machine.signed]
  split
  next hcross => exact h.crossed hcounts hv hcross
  next hcross =>
    have hcrossings : Reference.crossings cfg (vs ++ [v]) = Reference.crossings cfg vs := by
      rw [h.crossings hv, if_neg hcross, List.append_nil]
    rw [List.append_nil]
    exact .inl ⟨h.errCls, sign_snoc hv, hcrossings ▸ h.prev, fun hvalid => (h.prevLt hvalid).trans_le (by simp),
      hcrossings ▸ h.classified, h.grpOpen⟩

/-- `IDX` and `CHPH` are no part of what is tracked. -/
theorem Tracks.counted (h : Tracks cfg vs d ks) : Tracks cfg vs (counted cfg d) ks :=
  ⟨h.errCls, h.sign, h.prev, h.prevLt, h.classified, h.grpOpen⟩

/-- One more sample keeps the tracking, or halts the classifier with the document's error. -/
theorem Tracks.sampled (h : Tracks cfg vs d ks) (hcounts : Counts cfg vs d) (v : Word) :
    Tracks cfg (vs ++ [v]) (sampled cfg d v).1 (ks ++ (sampled cfg d v).2) ∨
      Halts cfg (vs ++ [v]) (sampled cfg d v).1 := by
  rw [Machine.sampled, hcounts.inspected h.errCls, ← qualifies]
  split
  next hv => exact (h.signed hcounts hv).imp_left Tracks.counted
  next hv =>
    rw [List.append_nil]
    exact .inl (h.unqualified (Bool.eq_false_of_not_eq_true hv)).counted

theorem crossings_snoc_prefix (cfg : CfgRegs) (vs : List Word) (v : Word) :
    ∃ ys, intervals (crossings cfg (vs ++ [v])) = intervals (crossings cfg vs) ++ ys := by
  rw [crossings_snoc]
  split
  · exact ⟨_, intervals_snoc _ _⟩
  · exact ⟨[], by rw [List.append_nil, List.append_nil]⟩

/-- A halted classifier only counts (41_demodulator R140). -/
theorem Halts.sampled (h : Halts cfg vs d) (v : Word) :
    Machine.sampled cfg d v = (Machine.counted cfg d, []) ∧ Halts cfg (vs ++ [v]) (Machine.sampled cfg d v).1 := by
  obtain ⟨e, herr, hgroups⟩ := h
  obtain ⟨ys, hys⟩ := crossings_snoc_prefix cfg vs v
  have hhalted : Machine.sampled cfg d v = (counted cfg d, []) := by
    simp [Machine.sampled, Machine.inspected, DecRegs.halted, DecRegs.err, herr]
  refine ⟨hhalted, e, by rw [hhalted]; exact herr, fun zs => ?_⟩
  rw [hys, List.append_assoc]
  exact hgroups _

end

end Sys2Proof.Machine

end

section

namespace Sys2Proof.Machine

/-! ### The samples of a call -/

section

open Reference (intervals crossings)

variable {cfg : CfgRegs} {build : BuildParams} {d o : DecRegs} {s u : State} {vs : List Word} {ks : List PulseKind}

theorem signed_counts (cfg : CfgRegs) (d : DecRegs) (v : Word) :
    (signed cfg d v).1.idx = d.idx ∧ (signed cfg d v).1.chph = d.chph := by
  unfold signed crossed
  split
  · split
    · split <;> exact ⟨rfl, rfl⟩
    · exact ⟨rfl, rfl⟩
  · exact ⟨rfl, rfl⟩

theorem sampled_counts (cfg : CfgRegs) (d : DecRegs) (v : Word) :
    (sampled cfg d v).1.idx = d.idx + 1 ∧
      (sampled cfg d v).1.chph = BitVec.ofNat 16 ((d.chph.toNat + 1) % cfg.chan.toNat) := by
  obtain ⟨hidx, hchph⟩ := signed_counts cfg d v
  unfold sampled
  split
  · exact ⟨congrArg (· + 1) hidx,
      congrArg (fun c : BitVec 16 => BitVec.ofNat 16 ((c.toNat + 1) % cfg.chan.toNat)) hchph⟩
  · exact ⟨rfl, rfl⟩

theorem Counts.sampled (h : Counts cfg vs d) (hchan : cfg.chan ≠ 0) (hroom : d.idx.toNat < indexLimit build)
    (v : Word) : Counts cfg (vs ++ [v]) (sampled cfg d v).1 := by
  obtain ⟨hidx, hchph⟩ := sampled_counts cfg d v
  have hlt : (d.chph.toNat + 1) % cfg.chan.toNat < cfg.chan.toNat :=
    Nat.mod_lt _ (Nat.pos_of_ne_zero fun hzero => hchan (BitVec.eq_of_toNat_eq hzero))
  constructor
  · rw [hidx, toNat_idx_succ hroom, h.idx, List.length_append, List.length_singleton]
  · rw [hchph, BitVec.toNat_ofNat, Nat.mod_eq_of_lt (hlt.trans cfg.chan.isLt), h.chph, Nat.mod_add_mod,
      List.length_append, List.length_singleton]

theorem deliverAll_withFront (s : State) (o : DecRegs) (ks : List PulseKind) :
    deliverAll (s.withFront o) ks = (deliverAll s ks).withFront o := by
  induction ks generalizing s with
  | nil => rfl
  | cons k ks ih => exact (congrArg (deliverAll · ks) (deliver_withFront o s k)).trans (ih _)

/-- The front registers alone are tracked. -/
theorem Tracks.withFront (h : Tracks cfg vs o ks) (d : DecRegs) : Tracks cfg vs (d.withFront o) ks :=
  ⟨h.errCls, h.sign, h.prev, h.prevLt, h.classified, h.grpOpen⟩

/-- A call's state after the samples `vs`: the pulses they end have reached BA in order, or the classifier has
halted. -/
structure AfterSamples (s u : State) (vs : List Word) : Prop where
  only : OnlyDecoder s u
  counts : Counts s.cfg vs u.dec
  outcome : (∃ ks, u = (deliverAll s ks).withFront u.dec ∧ Tracks s.cfg vs u.dec ks) ∨ Halts s.cfg vs u.dec

theorem AfterSamples.sample (h : AfterSamples s u vs) (hchan : s.cfg.chan ≠ 0)
    (hroom : vs.length < indexLimit s.build) (v : Word) : AfterSamples s (acceptSample u v) (vs ++ [v]) := by
  have hroom' : u.dec.idx.toNat < indexLimit u.build := by rwa [h.counts.idx, h.only.build]
  have hnext : acceptSample u v = u.follow (sampled s.cfg u.dec v) := by
    rw [acceptSample_eq hroom' v, h.only.cfg]
  have hcounts := h.counts.sampled hchan hroom' v
  refine ⟨h.only.trans (acceptSample_only u v), ?_, ?_⟩
  · rw [hnext]
    exact ⟨hcounts.idx, hcounts.chph⟩
  · rw [hnext]
    obtain ⟨ks, hu, htracks⟩ | hhalts := h.outcome
    · refine (htracks.sampled h.counts v).imp (fun htracks => ⟨_, ?_, htracks.withFront _⟩) id
      rw [State.follow, deliverAll_append]
      nth_rw 1 [hu]
      rw [deliverAll_withFront]
      rfl
    · exact .inr (hhalts.sampled v).2

theorem afterSamples (hchan : s.cfg.chan ≠ 0) (hlen : vs.length ≤ indexLimit s.build) :
    AfterSamples (s.setDec DecRegs.restart) (vs.foldl acceptSample (s.setDec DecRegs.restart)) vs := by
  induction vs using List.reverseRecOn with
  | nil =>
    exact ⟨.refl _, ⟨rfl, (Nat.zero_mod _).symm⟩, .inl ⟨[], rfl, rfl, rfl, rfl, nofun, rfl, rfl⟩⟩
  | append_singleton vs v ih =>
    rw [List.length_append, List.length_singleton] at hlen
    rw [List.foldl_append]
    exact (ih (Nat.le_of_succ_le hlen)).sample hchan hlen v

theorem execSeq_samples (vs : List Word) (hrun : s.dec.dstate = .run) :
    execSeq (vs.map .sample) s = .next (vs.foldl acceptSample s) ∧ (vs.foldl acceptSample s).dec.dstate = .run := by
  induction vs generalizing s with
  | nil => exact ⟨rfl, hrun⟩
  | cons v vs ih =>
    rw [List.map_cons, execSeq_cons _ _ (exec_sample_running v s hrun)]
    exact ih ((acceptSample_frame s v).dstate.trans hrun)

/-- A decode call is its samples and its end. -/
theorem execSeq_decodeCommands (vs : List Word) (h : s.dec.dstate ≠ .run) :
    execSeq (Reference.decodeCommands vs) s =
      .next (endDecode (vs.foldl acceptSample (s.setDec DecRegs.restart))) := by
  obtain ⟨hsamples, hrun⟩ := execSeq_samples (s := s.setDec DecRegs.restart) vs rfl
  rw [Reference.decodeCommands, execSeq_cons _ _ (exec_dstart_ready s h), execSeq_append _ _ _ hsamples,
    execSeq_cons _ _ (exec_dend_running _ hrun)]
  rfl

/-! ### The end of a call (40_control R127) -/

/-- The flush of the last group leaves the document's groups run, in a call that has taken no classifier
error. -/
theorem flushGroup_eq (hu : u = (deliverAll s ks).withFront u.dec) (herr : u.dec.errCls = none)
    (hopen : u.dec.grpOpen = leavesOpen false ks) :
    ∃ o, o.errCls = none ∧ flushGroup u = (runGroups s (splitGroups [] ks)).withFront o := by
  have hrunning : u.dec.halted .classifier = false := by simp [DecRegs.halted, DecRegs.err, herr]
  have hgroups := runGroups_splitGroups s [] ks
  rw [flushGroup, hrunning, hopen]
  cases hleaves : leavesOpen false ks with
  | false =>
    rw [if_neg (by simpa using hleaves)] at hgroups
    exact ⟨u.dec, herr, by rw [hgroups]; exact hu⟩
  | true =>
    rw [if_pos (by simpa using hleaves)] at hgroups
    refine ⟨{ u.dec with grpOpen := false }, herr, ?_⟩
    have hgend : gend u = (runGroups s (splitGroups [] ks)).withFront u.dec := by
      rw [hgroups]
      nth_rw 1 [hu]
      exact deliver_withFront _ _ .gap
    simp only [Bool.not_false, Bool.and_true, if_true, hgend]
    rfl

end

end Sys2Proof.Machine

end

section

namespace Sys2Proof.Machine

/-! ### The result of a decode call (40_control R127, R131) -/

section

open Reference (assemble classifySamples decodeCall tokensFrom Buffer Section)

variable {cfg : CfgRegs} {build : BuildParams} {s t u : State} {vs : List Word} {ks : List PulseKind}
  {bs : List Buffer} {gs : List (List PulseKind)} {r : Except ErrorRecord (List Section)} {e : ErrorRecord}

theorem finalResult_of_errCls {d : DecRegs} (h : d.errCls = some e) :
    d.finalResult = (some e.kind, e.info, e.info2) := by rw [DecRegs.finalResult, h]

theorem finalResult_of_errAsm {d : DecRegs} (hcls : d.errCls = none) (h : d.errAsm = some e) :
    d.finalResult = (some e.kind, e.info, e.info2) := by rw [DecRegs.finalResult, hcls, h]

theorem finalResult_of_errVal {d : DecRegs} (hcls : d.errCls = none) (hasm : d.errAsm = none)
    (h : d.errVal = some e) : d.finalResult = (some e.kind, e.info, e.info2) := by
  rw [DecRegs.finalResult, hcls, hasm, h]

theorem finalResult_of_success {d : DecRegs} (hcls : d.errCls = none) (hasm : d.errAsm = none)
    (h : d.errVal = none) : d.finalResult = (none, d.secidx, 0) := by
  rw [DecRegs.finalResult, hcls, hasm, h]

theorem requireHeader_of_halted {st : Stage} (h : u.dec.halted st = true) : requireHeader u = u := by
  cases st <;> simp [requireHeader, h]

theorem requireHeader_of_raw (h : u.cfg.text = false) : requireHeader u = u := by simp [requireHeader, h]

theorem requireHeader_of_section (h : u.dec.secidx ≠ 0) : requireHeader u = u := by
  rw [requireHeader, decide_eq_false h, Bool.and_false]
  rfl

/-- Text mode with no error and no section (40_control R127). -/
theorem requireHeader_of_empty (htext : u.cfg.text = true) (hcls : u.dec.errCls = none) (hasm : u.dec.errAsm = none)
    (hval : u.dec.errVal = none) (hsec : u.dec.secidx = 0) :
    requireHeader u = u.setDec { u.dec with errVal := some ⟨.invalidBufferLength, 0, 0⟩ } := by
  simp [requireHeader, DecRegs.raise, DecRegs.halted, DecRegs.err, DecRegs.setErr, htext, hcls, hasm, hval, hsec]

/-- Before its report, a call that began at `s` has the document's result. -/
def HasResult (s u : State) : Except ErrorRecord (List Section) → Prop
  | .error e => u.dec.finalResult = (some e.kind, e.info, e.info2)
  | .ok xs => u.dec.finalResult = (none, BitVec.ofNat 32 xs.length, 0) ∧ u.doStream = s.doStream ++ tokensFrom 0 xs

theorem report_dec (u : State) :
    (report u).dec.dCode = u.dec.finalResult.1 ∧ (report u).dec.dInfo = u.dec.finalResult.2.1 ∧
      (report u).dec.dInfo2 = u.dec.finalResult.2.2 := ⟨rfl, rfl, rfl⟩

theorem report_doStream (u : State) : (report u).doStream =
    u.doStream ++ [.od u.dec.finalResult.1 u.dec.finalResult.2.1 u.dec.finalResult.2.2] := rfl

/-- The tokens a call adds and the result registers it leaves, as R131 asks for. -/
def Reported (added : List DoToken) (d : DecRegs) : Except ErrorRecord (List Section) → Prop
  | .ok xs =>
    added = tokensFrom 0 xs ++ [.od none (BitVec.ofNat 32 xs.length) 0] ∧
    d.dCode = none ∧ d.dInfo = BitVec.ofNat 32 xs.length ∧ d.dInfo2 = 0
  | .error e =>
    added.getLast? = some (.od (some e.kind) e.info e.info2) ∧
    d.dCode = some e.kind ∧ d.dInfo = e.info ∧ d.dInfo2 = e.info2

theorem HasResult.report (h : HasResult s u r) (hpast : s.doStream <+: u.doStream) :
    ∃ added, (report u).doStream = s.doStream ++ added ∧ Reported added (report u).dec r := by
  have hdec := report_dec u
  have hstream := report_doStream u
  match r with
  | .error e =>
    have hresult : u.dec.finalResult = _ := h
    rw [hresult] at hdec hstream
    obtain ⟨added, hadded⟩ := hpast
    exact ⟨added ++ [_], by rw [hstream, ← hadded, List.append_assoc], List.getLast?_concat, hdec⟩
  | .ok xs =>
    obtain ⟨hresult, htokens⟩ := h
    rw [hresult] at hdec hstream
    exact ⟨_, by rw [hstream, htokens, List.append_assoc], rfl, hdec⟩

theorem decodeCall_of_assembled (hgs : classifySamples cfg vs = .ok gs)
    (hbs : assemble build.tailPolicy 0 gs = .ok bs) :
    decodeCall cfg build vs =
      if cfg.text = true ∧ bs = [] then .error ⟨.invalidBufferLength, 0, 0⟩ else reportAll cfg build 0 bs := by
  rw [decodeCall, hgs]
  simp only [hbs]
  cases htext : cfg.text with
  | false => simp [reportAll_raw htext]
  | true => simp [reportAll_text htext]

theorem GroupsDone.withFront (h : GroupsDone s u 0 bs) (o : DecRegs) : GroupsDone s (u.withFront o) 0 bs :=
  ⟨h.errAsm, h.secidx, h.errVal, h.delivered⟩

/-- The end of a call whose groups the document's `assemble` accepts. -/
theorem GroupsDone.hasResult (h : GroupsDone s u 0 bs) (hval : s.dec.errVal = none) (hcls : u.dec.errCls = none)
    (hcfg : u.cfg = s.cfg) (hroom : bs.length < 2 ^ 32) :
    HasResult s (requireHeader u)
      (if s.cfg.text = true ∧ bs = [] then .error ⟨.invalidBufferLength, 0, 0⟩
       else reportAll s.cfg s.build 0 bs) := by
  have hsec : u.dec.secidx = BitVec.ofNat 32 bs.length := by rw [h.secidx, Nat.zero_add]
  have hdelivered := h.delivered hval
  split
  · next hempty =>
    obtain ⟨htext, rfl⟩ := hempty
    rw [requireHeader_of_empty (hcfg ▸ htext) hcls h.errAsm hdelivered.1 hsec]
    exact finalResult_of_errVal hcls h.errAsm rfl
  · next hnonempty =>
    have hheader : requireHeader u = u := by
      cases htext : s.cfg.text with
      | false => exact requireHeader_of_raw (hcfg ▸ htext)
      | true =>
        refine requireHeader_of_section fun hzero => hnonempty ⟨htext, List.length_eq_zero_iff.mp ?_⟩
        rwa [hsec, ← BitVec.toNat_inj, BitVec.toNat_ofNat, Nat.mod_eq_of_lt hroom] at hzero
    rw [hheader]
    match hrep : reportAll s.cfg s.build 0 bs with
    | .error e =>
      rw [hrep] at hdelivered
      exact finalResult_of_errVal hcls h.errAsm hdelivered
    | .ok xs =>
      rw [hrep] at hdelivered
      obtain ⟨hnone, htokens⟩ := hdelivered
      refine ⟨?_, htokens⟩
      rw [finalResult_of_success hcls h.errAsm hnone, hsec, length_reportAll hrep]

theorem Halts.hasResult (h : Halts cfg vs u.dec) :
    HasResult s (requireHeader (flushGroup u)) (decodeCall cfg build vs) := by
  obtain ⟨e, herr, hgroups⟩ := h
  have hhalted : u.dec.halted .classifier = true := by rw [DecRegs.halted, DecRegs.err, herr, Option.isSome_some]
  have hclassify : classifySamples cfg vs = .error e := by
    rw [classifySamples, ← hgroups [], List.append_nil]
  rw [show flushGroup u = u by simp [flushGroup, hhalted], requireHeader_of_halted hhalted, decodeCall, hclassify]
  exact finalResult_of_errCls herr

/-- The end of a call whose pulses have all been classified. -/
theorem Tracks.hasResult (h : Tracks s.cfg vs u.dec ks) (hu : u = (deliverAll s ks).withFront u.dec)
    (hstart : SectionStart s.dec) (hsec : s.dec.secidx = 0) (hval : s.dec.errVal = none) (hcfg : u.cfg = s.cfg)
    (hlen : vs.length < 2 ^ 32) :
    HasResult s (requireHeader (flushGroup u)) (decodeCall s.cfg s.build vs) := by
  obtain ⟨o, ho, hflush⟩ := flushGroup_eq hu h.errCls h.grpOpen
  have hks : ks.length < 2 ^ 32 :=
    (h.classified.length.trans_le (length_intervals_le s.cfg vs)).trans_lt hlen
  have hroom : (splitGroups [] ks).length < 2 ^ 32 :=
    (length_splitGroups_le [] ks).trans_lt (by simpa using hks)
  have hclassify : classifySamples s.cfg vs = .ok (splitGroups [] ks) := groups_of_classified h.classified
  have hrun := runGroups_spec (gs := splitGroups [] ks) (sec := 0) hstart hsec (by omega)
    (forall_mem_splitGroups List.not_mem_nil (by simpa using hks))
  match hassemble : assemble s.build.tailPolicy 0 (splitGroups [] ks) with
  | .error e =>
    rw [hassemble] at hrun
    have herr : (flushGroup u).dec.errAsm = some e := by rw [hflush]; exact hrun
    have hhalted : (flushGroup u).dec.halted .assembler = true := by
      rw [DecRegs.halted, DecRegs.err, herr, Option.isSome_some]
    rw [requireHeader_of_halted hhalted, decodeCall, hclassify]
    simp only [hassemble]
    exact finalResult_of_errAsm (by rw [hflush]; exact ho) herr
  | .ok bs =>
    rw [hassemble] at hrun
    rw [decodeCall_of_assembled hclassify hassemble]
    refine (show GroupsDone s (flushGroup u) 0 bs from hflush ▸ GroupsDone.withFront hrun o).hasResult hval
      (by rw [hflush]; exact ho) ((flushGroup_only u).cfg.trans hcfg) ?_
    rwa [length_assemble hassemble]

theorem AfterSamples.hasResult (h : AfterSamples s u vs) (hstart : SectionStart s.dec) (hsec : s.dec.secidx = 0)
    (hval : s.dec.errVal = none) (hlen : vs.length < 2 ^ 32) :
    HasResult s (requireHeader (flushGroup u)) (decodeCall s.cfg s.build vs) := by
  obtain ⟨ks, hu, htracks⟩ | hhalts := h.outcome
  · exact htracks.hasResult hu hstart hsec hval h.only.cfg hlen
  · exact hhalts.hasResult

end

/-- Settles O50: the classifier's pulses are the document's groups, sample by sample; BA and CV run the groups as
`assemble` and `parse` do, section by section; the flush, the text-mode check and the report end the call. -/
theorem decodeCallIsTheDocumentsPipeline : Obligations.DecodeCallIsTheDocumentsPipeline := by
  intro s vs hready hchan hlen
  have hafter := afterSamples (s := s) hchan hlen
  have hend := hafter.only.trans (endDecode_only _)
  have hresult := hafter.hasResult ⟨rfl, rfl, rfl, rfl, rfl, rfl⟩ rfl rfl (hlen.trans_lt (indexLimit_lt s.build))
  obtain ⟨added, hstream, hreported⟩ := hresult.report
    ((hafter.only.trans (flushGroup_only _)).trans (requireHeader_only _)).doStream
  refine ⟨_, added, execSeq_decodeCommands vs hready, hend.faultReg, hstream, ?_⟩
  exact hreported

end Sys2Proof.Machine

end

section

namespace Sys2Proof

/-! ### The argument formats of the commands (30_encoding R87, R89) -/

theorem operand_eq_setWidth {n : Nat} (hn : n ≤ 32) (arg : BitVec 32) : operand n arg = arg.setWidth n :=
  (BitVec.setWidth_eq_extractLsb' hn).symm

theorem decode_unfit {op : BitVec 4} {arg : BitVec 32} (hbad : fits (argWidth op) arg = false) :
    decode (.command (cmdWord op arg)) = .badArgument op :=
  decode_command_eq_badArgument_iff.2 ⟨opOf_cmdWord op arg, by rwa [argOf_cmdWord]⟩

/-- A format with an operand of `n` bits and must-be-zero bits above it. -/
theorem decode_operandFormat {n : Nat} {op : BitVec 4} {mk : BitVec n → Instr} (hop : op.toNat < 12)
    (hn : n ≤ 32) (hwidth : argWidth op = n) (hrow : ∀ arg, rowInstr op arg = mk (operand n arg))
    (arg : BitVec 32) :
    (2 ^ n ≤ arg.toNat → decode (.command (cmdWord op arg)) = .badArgument op) ∧
    (arg.toNat < 2 ^ n → decode (.command (cmdWord op arg)) = .instr (mk (arg.setWidth n))) := by
  subst hwidth
  refine ⟨fun hbig => decode_unfit (fits_eq_false_iff.2 hbig), fun hsmall => ?_⟩
  exact decode_row hop (fits_eq_true_iff.2 hsmall) (by rw [hrow, operand_eq_setWidth hn])

/-- A format without an operand. -/
theorem decode_zeroFormat {op : BitVec 4} {i : Instr} (hop : op.toNat < 12) (hwidth : argWidth op = 0)
    (hrow : ∀ arg, rowInstr op arg = i) (arg : BitVec 32) :
    (arg ≠ 0 → decode (.command (cmdWord op arg)) = .badArgument op) ∧
    (arg = 0 → decode (.command (cmdWord op arg)) = .instr i) := by
  refine ⟨fun harg => decode_unfit ?_, fun harg => decode_row hop ?_ (hrow arg)⟩
  · rw [hwidth]
    exact Bool.eq_false_iff.2 (mt fits_zero_iff.1 harg)
  · rw [hwidth]
    exact fits_zero_iff.2 harg

end Sys2Proof

namespace Sys2Proof.Machine

/-! ### Refusal of a command (40_control R121) -/

section

variable {s : State} {i : Instr} {op : BitVec 4}

theorem step_rejected {w : CodeWord} {rest : List PortInput} {bad : Decoded}
    (hin : s.inputs = .code w :: rest) (hdecode : decode w = bad) (hbad : ∀ i, bad ≠ .instr i) :
    step s = .next ({ s with inputs := rest }.rejectWord bad) := by
  rw [step, State.fetch, hin]
  simp only [hdecode]

theorem exec_config (hi : i.isConfig = true) (hop : i.opcode? = some op) :
    exec i s = .next (configure s op (legalOperand s.build i) (writeCfg i s.cfg)) := by
  cases i with
  | setrate | setchan | setbits | setmode =>
    cases hop
    rfl
  | _ => cases hi

theorem cfgFrozen_iff : s.cfgFrozen = true ↔ s.dec.dstate = .run ∨ s.mod.mstate = .run := by
  simp [State.cfgFrozen, State.decRun, State.modRun]

/-- A configuration command is accepted out of every call with a legal operand. -/
theorem exec_config_free (hi : i.isConfig = true) (hop : i.opcode? = some op)
    (hlegal : legalOperand s.build i = true) (hdec : s.dec.dstate ≠ .run) (hmod : s.mod.mstate ≠ .run) :
    exec i s = .next (s.setCfg (writeCfg i s.cfg)) := by
  have hfree : ¬ s.cfgFrozen = true := mt cfgFrozen_iff.1 (not_or.2 ⟨hdec, hmod⟩)
  rw [exec_config hi hop, configure, hlegal, Bool.not_true, if_neg Bool.false_ne_true, if_neg hfree]

theorem exec_config_frozen (hi : i.isConfig = true) (hop : i.opcode? = some op)
    (hlegal : legalOperand s.build i = true) (hrun : s.dec.dstate = .run ∨ s.mod.mstate = .run) :
    exec i s = .next (s.refuse .wrongState op) := by
  rw [exec_config hi hop, configure, hlegal, Bool.not_true, if_neg Bool.false_ne_true,
    if_pos (cfgFrozen_iff.2 hrun)]

theorem exec_of_illegal (hop : i.opcode? = some op) (hlegal : legalOperand s.build i = false) :
    exec i s = .next (s.refuse .badArgument op) := by
  have hi : i.isConfig = true := by
    by_contra hi
    exact absurd (legalOperand_of_not_isConfig s.build (Bool.eq_false_iff.2 hi)) (by simp [hlegal])
  rw [exec_config hi hop, configure_of_illegal s op _ hlegal]

theorem exec_of_not_allowed (hop : i.opcode? = some op) (hlegal : legalOperand s.build i = true)
    (hallowed : allowed i s = false) : exec i s = .next (s.refuse .wrongState op) := by
  have hconfig (hi : i.isConfig = true) : exec i s = .next (s.refuse .wrongState op) := by
    refine exec_config_frozen hi hop hlegal ?_
    rw [allowed_of_isConfig s hi] at hallowed
    simpa [or_iff_not_imp_left] using hallowed
  cases i with
  | setrate | setchan | setbits | setmode => exact hconfig rfl
  | dstart =>
    cases hop
    exact congrArg Host.Outcome.next (if_pos (by simpa [allowed_dstart] using hallowed))
  | mstart =>
    cases hop
    exact congrArg Host.Outcome.next (if_pos (by simpa [allowed_mstart] using hallowed))
  | sample | dend | pbyte | pend | mend =>
    cases hop
    exact congrArg Host.Outcome.next (if_neg (Bool.eq_false_iff.1 hallowed))
  | nop => cases hallowed
  | pulseZero | pulseOne | pulseStart | pulseGap => cases hop

/-- A command that passes the three tests leaves `FAULT` as it was. -/
theorem faultReg_of_allowed {t : State} (hlegal : legalOperand s.build i = true) (hallowed : allowed i s = true)
    (h : Effect i s t) : t.faultReg = s.faultReg := by
  cases h with
  | refused reason hop hbad => simp [hlegal, hallowed] at hbad
  | nop | configured | dstart | mstart | mend => rfl
  | sample v => exact (acceptSample_only s v).faultReg
  | dend => exact (endDecode_only s).faultReg
  | pbyte u => exact (payloadByte_only s u).faultReg
  | pend => exact (payloadEnd_only s).faultReg
  | token k => exact (deliver_frame k s).faultReg

/-- At the decided widths every operand fits its register, and `BITS_MAX` is the limit of R91. -/
theorem legalOperand_decided (i : Instr) : legalOperand BuildParams.decided i = i.wellFormed := by
  have hrate : BuildParams.decided.rateW.val = 32 := rfl
  have hchan : BuildParams.decided.chanW.val = 16 := rfl
  cases i with
  | setrate u => simp [legalOperand, hrate, u.isLt]
  | setchan u => simp [legalOperand, hchan, u.isLt]
  | setbits u =>
    have hbits : BuildParams.decided.bitsMax.val = Config.bitsMax := rfl
    simp [legalOperand, Instr.wellFormed, hbits]
  | _ => exact Bool.and_true _

end

/-- Settles O12. -/
theorem nopDoesNothing : Obligations.NopDoesNothing :=
  ⟨fun _ _ => ⟨decode_row (by decide) (fits_full _) rfl, rfl⟩, by decide, by decide⟩

/-- Settles O10: the decoder makes the first test and the format's part of the second; `exec` tests the operand's
value, then the state; each command that passes has a frame that holds `FAULT`. -/
theorem commandsAreRefusedInOrder : Obligations.CommandsAreRefusedInOrder := by
  refine ⟨fun s cw rest hin => ?_, fun _ _ _ => rfl, legalOperand_decided,
    fun reason op => ⟨cmdErr_faultWord reason op, faultReason_faultWord reason op, faultOp_faultWord reason op⟩⟩
  have hopcode {i : Instr} (hdecode : decode (.command cw) = .instr i) : i.opcode? = some (opOf cw) := by
    obtain ⟨⟨hop, -⟩, rfl⟩ := decode_command_eq_instr_iff.1 hdecode
    exact opcode?_rowInstr _ hop
  refine ⟨fun op hdecode => ?_, fun op hdecode => ?_, fun i hdecode hlegal => ?_,
    fun i hdecode hlegal hallowed => ?_, fun i hdecode hlegal hallowed => ?_⟩
  · exact ⟨(decode_command_eq_reservedOpcode_iff.1 hdecode).1.symm, step_rejected hin hdecode nofun⟩
  · exact ⟨(decode_command_eq_badArgument_iff.1 hdecode).1.symm, step_rejected hin hdecode nofun⟩
  · exact (step_instr hin hdecode).trans (exec_of_illegal (hopcode hdecode) hlegal)
  · exact (step_instr hin hdecode).trans (exec_of_not_allowed (hopcode hdecode) hlegal hallowed)
  · obtain ⟨t, ht, heffect⟩ := exec_has_effect i { s with inputs := rest }
    exact ⟨t, (step_instr hin hdecode).trans ht,
      faultReg_of_allowed (s := { s with inputs := rest }) hlegal hallowed heffect⟩

end Sys2Proof.Machine

end

section

namespace Sys2Proof.Machine

/-! ### The configuration commands (40_control R122 to R124) -/

section

variable {s : State}

/-- Settles O13. -/
theorem setrateRule : Obligations.SetrateRule := by
  refine ⟨fun s u => ⟨?_, fun hzero => ?_, fun hne hfit hrun => ?_, fun hne hfit hdec hmod => ?_⟩, BitVec.isLt,
    by decide⟩
  · exact decode_row (by decide) (fits_full u) rfl
  · exact exec_of_illegal rfl (by rw [hzero]; rfl)
  · exact exec_config_frozen rfl rfl ((legalOperand_setrate s.build u).2 ⟨hne, hfit⟩) hrun
  · exact exec_config_free rfl rfl ((legalOperand_setrate s.build u).2 ⟨hne, hfit⟩) hdec hmod

/-- Settles O14; the channel clause is the invariant's phase, `CHPH` = `IDX` mod `CFG_CHAN`. -/
theorem setchanRule : Obligations.SetchanRule := by
  refine ⟨decode_operandFormat (by decide) (by decide) rfl fun _ => rfl,
    fun s u => ⟨fun hzero => ?_, fun hne hfit hrun => ?_, fun hne hfit hdec hmod => ?_⟩,
    fun s hinv hrun => ?_, BitVec.isLt, by decide⟩
  · exact exec_of_illegal rfl (by rw [hzero]; rfl)
  · exact exec_config_frozen rfl rfl ((legalOperand_setchan s.build u).2 ⟨hne, hfit⟩) hrun
  · exact exec_config_free rfl rfl ((legalOperand_setchan s.build u).2 ⟨hne, hfit⟩) hdec hmod
  · have hphase := hinv.phase hrun
    refine ⟨fun hmono => ?_, fun hstereo => ?_⟩
    · rw [hmono] at hphase
      exact (toNat_eq_zero_iff _).1 (hphase.trans (Nat.mod_one _))
    · rw [hstereo] at hphase
      rw [← toNat_eq_zero_iff, hphase]
      rfl

theorem aboveThreshold_one {v : Word} (hv : v ≠ 0) : aboveThreshold 1 v = true :=
  decide_eq_true (Int.natAbs_pos.2 fun hzero => hv (BitVec.eq_of_toInt_eq hzero))

theorem toneSample_one (sine : List SineTable) {c : CfgRegs} (hbits : c.bits = 1) (b : Bool) (i : Nat) :
    toneSample sine c b i = 0 := by
  have hbounds := Sine.supplied_bounds sine c b i
  have hfull : maxAmplitude c.bits = 0 := by rw [hbits]; decide
  rw [hfull] at hbounds
  have hzero : Sine.supplied sine c b i = 0 := by omega
  rw [toneSample, hzero]
  rfl

/-- Settles O15. -/
theorem setbitsRule : Obligations.SetbitsRule := by
  have hpos {u : BitVec 6} (hne : u ≠ 0) : 1 ≤ u.toNat := Nat.pos_of_ne_zero (mt (toNat_eq_zero_iff _).1 hne)
  refine ⟨decode_operandFormat (by decide) (by decide) rfl fun _ => rfl,
    fun s u => ⟨fun hbad => ?_, fun hne hfit hrun => ?_, fun hne hfit hdec hmod => ?_⟩,
    by decide, fun v hv => aboveThreshold_one hv, fun sine c b i hbits => toneSample_one sine hbits b i,
    rfl, by decide⟩
  · refine exec_of_illegal rfl (Bool.eq_false_iff.2 fun hlegal => ?_)
    obtain ⟨hone, hmax⟩ := (legalOperand_setbits s.build u).1 hlegal
    obtain rfl | hbig := hbad
    · exact absurd hone (by decide)
    · exact absurd hmax (Nat.not_le.2 hbig)
  · exact exec_config_frozen rfl rfl ((legalOperand_setbits s.build u).2 ⟨hpos hne, hfit⟩) hrun
  · exact exec_config_free rfl rfl ((legalOperand_setbits s.build u).2 ⟨hpos hne, hfit⟩) hdec hmod

/-! ### The commands that start or end a call (40_control R126 to R129) -/

/-- Settles O17. -/
theorem dstartRule : Obligations.DstartRule := by
  refine ⟨decode_zeroFormat (by decide) rfl fun _ => rfl, fun s => ⟨fun hrun => ?_, exec_dstart_ready s⟩,
    by decide⟩
  exact exec_of_not_allowed rfl rfl (by simp [allowed, hrun])

/-- Settles O19. -/
theorem mstartRule : Obligations.MstartRule := by
  refine ⟨decode_zeroFormat (by decide) rfl fun _ => rfl, fun s => ⟨fun hrun => ?_, fun hready => ?_⟩,
    by decide⟩
  · exact exec_of_not_allowed rfl rfl (by simp [allowed, hrun])
  · exact exec_mstart_ready s (MState.ne_run.1 hready)

/-- Settles O20; a `PEND` in an open burst emits nothing (`payloadEnd_eq`). -/
theorem mendRule : Obligations.MendRule := by
  refine ⟨decode_zeroFormat (by decide) rfl fun _ => rfl, fun s => ⟨fun hidle => ?_, exec_mend_running s⟩,
    fun s hready => ?_, fun s hrun hopen => ?_, by decide⟩
  · exact exec_of_not_allowed rfl rfl (decide_eq_false hidle)
  · refine ⟨_, (execSeq_cons _ _ (exec_mstart_ready s (MState.ne_run.1 hready))).trans
      (execSeq_cons _ _ (exec_mend_running _ rfl)), rfl⟩
  · have hkeep : (payloadEnd s).moStream = s.moStream := by
      rw [payloadEnd_eq, opening_of_inPay hopen]
      exact List.append_nil _
    have hrunning : (payloadEnd s).mod.mstate = .run := by rw [payloadEnd_eq]; exact hrun
    exact ⟨_, _, execSeq_cons _ _ (exec_mend_running s hrun),
      (execSeq_cons _ _ (exec_pend_running s hrun)).trans (execSeq_cons _ _ (exec_mend_running _ hrunning)),
      hkeep.symm⟩

theorem flushGroup_eq_ite (s : State) :
    flushGroup s = if s.dec.errCls = none ∧ s.dec.grpOpen = true then
      { gend s with dec := { (gend s).dec with grpOpen := false } } else s := by
  simp [flushGroup, DecRegs.halted, DecRegs.err, State.setDec]

theorem requireHeader_eq_ite (s : State) :
    requireHeader s =
      if s.cfg.mode.getLsbD 0 = true ∧ s.dec.errCls = none ∧ s.dec.errAsm = none ∧ s.dec.errVal = none ∧
          s.dec.secidx = 0 then
        { s with dec := { s.dec with errVal := some ⟨.invalidBufferLength, 0, 0⟩ } }
      else s := by
  split
  · next h =>
    obtain ⟨htext, hcls, hasm, hval, hsec⟩ := h
    exact requireHeader_of_empty htext hcls hasm hval hsec
  · next h =>
    exact if_neg (by simpa [CfgRegs.text, DecRegs.halted, DecRegs.err, and_assoc] using h)

/-- Settles O18: the end of a call is the flush, the text-mode check and the report, in this order. -/
theorem dendRule : Obligations.DendRule := by
  refine ⟨decode_zeroFormat (by decide) rfl fun _ => rfl, by decide, fun s hidle => ?_, fun s hrun => ?_,
    fun s hready => ?_⟩
  · exact exec_of_not_allowed rfl rfl (decide_eq_false hidle)
  · refine ⟨gend s, rfl, ?_⟩
    rw [exec_dend_running s hrun, endDecode, requireHeader_eq_ite, flushGroup_eq_ite]
    rfl
  · refine ⟨_, execSeq_decodeCommands [] hready, ?_⟩
    have hflush : flushGroup (s.setDec DecRegs.restart) = s.setDec DecRegs.restart := rfl
    rw [List.foldl_nil, endDecode, hflush, report_doStream]
    cases htext : s.cfg.text with
    | false =>
      rw [requireHeader_of_raw (u := s.setDec DecRegs.restart) htext,
        if_neg (show ¬ s.cfg.mode.getLsbD 0 = true from ne_true_of_eq_false htext)]
      rfl
    | true =>
      rw [requireHeader_of_empty (u := s.setDec DecRegs.restart) htext rfl rfl rfl rfl,
        if_pos (show s.cfg.mode.getLsbD 0 = true from htext)]
      rfl

end

end Sys2Proof.Machine

end

section

namespace Sys2Proof.Machine

/-! ### Raw mode with IGNCK (40_control R125) -/

/-- `s` in the mode `m`. -/
def State.inMode (s : State) (m : BitVec 2) : State := { s with cfg := { s.cfg with mode := m } }

section

variable {s t : State} {m : BitVec 2}

theorem State.inMode_eq_recast (s : State) (m : BitVec 2) : s.inMode m = s.recast m s.dec := rfl

theorem withFront_inMode (s : State) (o : DecRegs) : (s.withFront o).inMode m = s.recast m o := rfl

/-- A pulse in the other mode: the registers that no pulse reads stay as they are. -/
theorem deliver_inMode (h : SameCv s.cfg m) (k : PulseKind) :
    deliver k (s.inMode m) = (deliver k s).inMode m := by
  rw [State.inMode_eq_recast, deliver_recast s.dec h, ← withFront_inMode, ← deliver_eq_withFront]

theorem deliverAll_inMode (h : SameCv s.cfg m) (ks : List PulseKind) :
    deliverAll (s.inMode m) ks = (deliverAll s ks).inMode m := by
  induction ks generalizing s with
  | nil => rfl
  | cons k ks ih =>
    have hnext : SameCv (deliver k s).cfg m := (deliver_frame k s).cfg ▸ h
    exact (congrArg (deliverAll · ks) (deliver_inMode h k)).trans (ih hnext)

/-- ZCD and TC read the rate, the channel count and the depth alone: `sampled` is the same in both modes. -/
theorem acceptSample_inMode (h : SameCv s.cfg m) (v : Word) :
    acceptSample (s.inMode m) v = (acceptSample s v).inMode m := by
  obtain hroom | hlimit := Nat.lt_or_ge s.dec.idx.toNat (indexLimit s.build)
  · rw [acceptSample_eq hroom, acceptSample_eq (s := s.inMode m) hroom]
    exact congrArg (·.withFront (sampled s.cfg s.dec v).1) (deliverAll_inMode h (sampled s.cfg s.dec v).2)
  · rw [acceptSample_atLimit v hlimit, acceptSample_atLimit (s := s.inMode m) v hlimit]
    rfl

theorem flushGroup_inMode (h : SameCv s.cfg m) : flushGroup (s.inMode m) = (flushGroup s).inMode m := by
  rw [flushGroup_eq_ite, flushGroup_eq_ite, apply_ite (State.inMode · m),
    show gend (s.inMode m) = (gend s).inMode m from deliver_inMode h .gap]
  rfl

theorem endDecode_inMode (hraw : s.cfg.text = false) (hm : m.getLsbD 0 = false) :
    endDecode (s.inMode m) = (endDecode s).inMode m := by
  have hflush : (flushGroup s).cfg.text = false := (congrArg CfgRegs.text (flushGroup_only s).cfg).trans hraw
  rw [endDecode, endDecode, flushGroup_inMode (.inr ⟨hraw, hm⟩), requireHeader_of_raw hflush,
    requireHeader_of_raw (u := (flushGroup s).inMode m) hm]
  rfl

theorem opening_inMode : opening (s.inMode m) = opening s := rfl

theorem payloadByte_inMode (u : Byte) : payloadByte (s.inMode m) u = (payloadByte s u).inMode m := by
  rw [payloadByte_eq, payloadByte_eq, opening_inMode]
  rfl

theorem payloadEnd_inMode : payloadEnd (s.inMode m) = (payloadEnd s).inMode m := by
  rw [payloadEnd_eq, payloadEnd_eq, opening_inMode]
  rfl

theorem refuse_inMode (reason : Reason) (op : BitVec 4) :
    (s.inMode m).refuse reason op = (s.refuse reason op).inMode m :=
  (apply_ite (State.inMode · m) (cmdErr s.faultReg = true) s { s with faultReg := faultWord reason op }).symm

/-- One test decides in both modes, and both answers agree. -/
theorem next_ite_inMode {p : Bool} {x y : State} (hx : x = s.inMode m) (hy : y = t.inMode m) :
    (Host.Outcome.next (if p then x else y) : Result) = .next ((if p then s else t).inMode m) := by
  rw [hx, hy, apply_ite (State.inMode · m)]

/-- In raw mode no instruction but a configuration command depends on `IGNCK`. -/
theorem exec_inMode {i : Instr} (hi : i.isConfig = false) (hraw : s.cfg.text = false) (hm : m.getLsbD 0 = false)
    (h : exec i s = .next t) : exec i (s.inMode m) = .next (t.inMode m) := by
  have hcv : SameCv s.cfg m := .inr ⟨hraw, hm⟩
  cases i with
  | setrate | setchan | setbits | setmode => cases hi
  | nop =>
    cases h
    rfl
  | dstart =>
    cases h
    exact next_ite_inMode (refuse_inMode ..) rfl
  | sample v =>
    cases h
    exact next_ite_inMode (acceptSample_inMode hcv v) (refuse_inMode ..)
  | dend =>
    cases h
    exact next_ite_inMode (endDecode_inMode hraw hm) (refuse_inMode ..)
  | mstart =>
    cases h
    exact next_ite_inMode (refuse_inMode ..) rfl
  | pbyte u =>
    cases h
    exact next_ite_inMode (payloadByte_inMode u) (refuse_inMode ..)
  | pend =>
    cases h
    exact next_ite_inMode payloadEnd_inMode (refuse_inMode ..)
  | mend =>
    cases h
    exact next_ite_inMode rfl (refuse_inMode ..)
  | pulseZero =>
    cases h
    exact congrArg Host.Outcome.next (deliver_inMode hcv .zero)
  | pulseOne =>
    cases h
    exact congrArg Host.Outcome.next (deliver_inMode hcv .one)
  | pulseStart =>
    cases h
    exact congrArg Host.Outcome.next (deliver_inMode hcv .start)
  | pulseGap =>
    cases h
    exact congrArg Host.Outcome.next (deliver_inMode hcv .gap)

end

/-- Settles O16; `IGNCK` is read by CV alone, which no raw mode runs (`exec_inMode`). -/
theorem setmodeRule : Obligations.SetmodeRule := by
  refine ⟨decode_operandFormat (by decide) (by decide) rfl fun _ => rfl,
    fun s u => ⟨exec_config_frozen rfl rfl rfl, exec_config_free rfl rfl rfl⟩,
    fun _ => ⟨rfl, rfl⟩, fun i s t hi hmode hexec => ?_, by decide⟩
  have hraw : s.cfg.text = false := by rw [CfgRegs.text, hmode]; rfl
  exact exec_inMode hi hraw rfl hexec

end Sys2Proof.Machine

end

section

namespace Sys2Proof.Machine

/-! ### One sample of a running call (41_demodulator R140 to R145) -/

section

variable {cfg : CfgRegs} {d : DecRegs} {s : State} {v : Word} {k : PulseKind}

/-- At the index limit a running classifier takes `IndexOverflow` and a sample does nothing else
(41_demodulator R141). -/
theorem exec_sample_atLimit_running (hrun : s.dec.dstate = .run) (hlimit : s.dec.idx.toNat = indexLimit s.build)
    (herr : s.dec.errCls = none) (v : Word) :
    exec (.sample v) s = .next (s.setDec { s.dec with errCls := some ⟨.indexOverflow, 0, 0⟩ }) := by
  rw [exec_sample_running v s hrun, acceptSample_atLimit v hlimit.ge, DecRegs.raise_of_running _ .classifier _ _ _ herr]
  rfl

/-- At the index limit a halted classifier's sample does nothing (41_demodulator R141). -/
theorem exec_sample_atLimit_halted (hrun : s.dec.dstate = .run) (hlimit : s.dec.idx.toNat = indexLimit s.build)
    (herr : s.dec.errCls.isSome = true) (v : Word) : exec (.sample v) s = .next s := by
  rw [exec_sample_running v s hrun, acceptSample_atLimit v hlimit.ge, DecRegs.raise_of_halted _ .classifier _ _ _ herr]
  rfl

/-- A sample that is not inspected, or does not pass the threshold test, only counts (41_demodulator R140,
R142). -/
theorem exec_sample_counts (hrun : s.dec.dstate = .run) (hroom : s.dec.idx.toNat < indexLimit s.build)
    (h : (inspected s.dec && aboveThreshold s.cfg.bits v) = false) :
    exec (.sample v) s = .next (s.setDec (counted s.cfg s.dec)) := by
  rw [exec_sample_running v s hrun, acceptSample_eq hroom, sampled, h]
  rfl

theorem inspected_of_otherChannel (h : d.chph ≠ 0) : inspected d = false := by
  rw [inspected, decide_eq_false h, Bool.false_and]

theorem halted_of_errCls {e : ErrorRecord} (h : d.errCls = some e) : d.halted .classifier = true := by
  rw [DecRegs.halted, DecRegs.err, h, Option.isSome_some]

theorem inspected_of_errCls {e : ErrorRecord} (h : d.errCls = some e) : inspected d = false := by
  rw [inspected, halted_of_errCls h, Bool.not_true, Bool.and_false]

theorem Inspecting.inspected (h : Inspecting s) : inspected s.dec = true := by
  simp [Machine.inspected, DecRegs.halted, DecRegs.err, h.channel, h.running]

theorem aboveThreshold_iff (b : BitVec 6) (v : Word) :
    aboveThreshold b v = true ↔ threshold b < v.toInt.natAbs := decide_eq_true_iff

/-- An inspected sample above the threshold: the crossing test, then the counters (41_demodulator R143). -/
theorem Inspecting.exec_above (h : Inspecting s) (habove : threshold s.cfg.bits < v.toInt.natAbs) :
    exec (.sample v) s =
      .next (s.follow (counted s.cfg (signed s.cfg s.dec v).1, (signed s.cfg s.dec v).2)) := by
  rw [exec_sample_running v s h.run, acceptSample_eq h.room, sampled, h.inspected,
    (aboveThreshold_iff _ _).2 habove]
  rfl

theorem isCrossing_iff (last : LastSign) (v : Word) : isCrossing last v = true ↔ 0 < v.toInt ∧ last = .neg := by
  simp [isCrossing, signOf]

theorem signed_of_noCrossing (h : ¬ (0 < v.toInt ∧ d.lastSign = .neg)) :
    signed cfg d v = ({ d with lastSign := signOf v }, []) := by
  rw [signed, if_neg (mt (isCrossing_iff _ _).1 h)]

theorem signed_of_crossing (hpos : 0 < v.toInt) (hneg : d.lastSign = .neg) :
    signed cfg d v = ({ (crossed cfg d).1 with lastSign := .pos }, (crossed cfg d).2) := by
  rw [signed, if_pos ((isCrossing_iff _ _).2 ⟨hpos, hneg⟩), signOf, if_pos hpos]

/-- Every crossing is registered (41_demodulator R145). -/
theorem crossed_registers (cfg : CfgRegs) (d : DecRegs) :
    (crossed cfg d).1.prevValid = true ∧ (crossed cfg d).1.prevIdx = d.idx := by
  unfold crossed
  split
  · split <;> exact ⟨rfl, rfl⟩
  · exact ⟨rfl, rfl⟩

theorem crossed_first (h : d.prevValid = false) :
    crossed cfg d = ({ d with prevValid := true, prevIdx := d.idx }, []) := by
  simp [crossed, h]

theorem crossed_unclassified (hvalid : d.prevValid = true)
    (hclass : classify cfg.rate.toNat (d.idx - d.prevIdx).toNat = none) :
    crossed cfg d =
      ({ d with
          errCls := some ⟨.invalidPulseLength, d.idx - d.prevIdx, d.idx⟩
          prevValid := true, prevIdx := d.idx }, []) := by
  rw [crossed, if_pos hvalid, hclass]

theorem crossed_classified (hvalid : d.prevValid = true)
    (hclass : classify cfg.rate.toNat (d.idx - d.prevIdx).toNat = some k) :
    crossed cfg d =
      ({ d with grpOpen := decide (k ≠ .gap), prevValid := true, prevIdx := d.idx }, [k]) := by
  rw [crossed, if_pos hvalid, hclass]

theorem exec_pulseInstr (k : PulseKind) (s : State) : exec (pulseInstr k) s = .next (deliver k s) := by
  cases k <;> rfl

/-- A halted classifier's call ends with its report alone: no flush, no text-mode check (41_demodulator R153). -/
theorem endDecode_of_errCls {e : ErrorRecord} (h : s.dec.errCls = some e) : endDecode s = report s := by
  have hflush : flushGroup s = s := by simp [flushGroup, halted_of_errCls h]
  rw [endDecode, hflush, requireHeader_of_halted (halted_of_errCls h)]

end

/-! ### The timing windows (41_demodulator R146) -/

section

variable {m : Nat}

theorem inWindow_iff (lo hi r d : Nat) :
    inWindow lo hi r d = true ↔ lo * r ≤ 44100 * d ∧ 44100 * d < hi * r := by
  simp [inWindow]

theorem scale_le (hm : 0 < m) (a b r d : Nat) : a * (m * r) ≤ b * (m * d) ↔ a * r ≤ b * d := by
  rw [Nat.mul_left_comm, Nat.mul_left_comm b, Nat.mul_le_mul_left_iff hm]

/-- Both sides of a window's tests are multiplied by `m` (41_demodulator R150). -/
theorem inWindow_scale (hm : 0 < m) (lo hi r d : Nat) : inWindow lo hi (m * r) (m * d) = inWindow lo hi r d := by
  rw [Bool.eq_iff_iff, inWindow_iff, inWindow_iff, scale_le hm, ← not_le, ← not_le, scale_le hm]

theorem classify_scale (hm : 0 < m) (r d : Nat) : classify (m * r) (m * d) = classify r d := by
  have hgap : Config.gapMin * (m * r) < Config.calRate * (m * d) ↔ Config.gapMin * r < Config.calRate * d := by
    rw [← not_le, ← not_le, scale_le hm]
  simp only [classify, inWindow_scale hm, hgap]

/-- The windows in the order of their tests; they are disjoint, so each test decides alone. -/
theorem classify_eq_ite (r d : Nat) :
    classify r d =
      if 15 * r ≤ 44100 * d ∧ 44100 * d < 20 * r then some .one
      else if 35 * r ≤ 44100 * d ∧ 44100 * d < 39 * r then some .zero
      else if 41 * r ≤ 44100 * d ∧ 44100 * d < 46 * r then some .start
      else if 20000 * r < 44100 * d then some .gap
      else none := by
  simp only [classify, inWindow_iff]

end

/-! ### The obligations of 41_demodulator -/

/-- Settles O28: the first sample at the limit halts the classifier and leaves `IDX`, so every later one meets a
halted classifier at the limit. -/
theorem indexOverflowRule : Obligations.IndexOverflowRule := by
  refine ⟨rfl, fun s v hrun hlimit => ⟨fun herr => exec_sample_atLimit_running hrun hlimit herr v,
    fun herr => exec_sample_atLimit_halted hrun hlimit herr v, fun t w ht => ?_⟩⟩
  cases herr : s.dec.errCls with
  | none =>
    cases eq_of_exec ht (exec_sample_atLimit_running hrun hlimit herr v)
    exact exec_sample_atLimit_halted (by exact hrun) (by exact hlimit) rfl w
  | some e =>
    have hhalted : s.dec.errCls.isSome = true := by rw [herr, Option.isSome_some]
    cases eq_of_exec ht (exec_sample_atLimit_halted hrun hlimit hhalted v)
    exact exec_sample_atLimit_halted hrun hlimit hhalted w

/-- Settles O29. -/
theorem thresholdTest : Obligations.ThresholdTest := by
  refine ⟨aboveThreshold_iff, fun s v hinspect hle => ?_, by decide, by decide, by decide⟩
  have hbelow : aboveThreshold s.cfg.bits v = false := decide_eq_false hle.not_gt
  exact exec_sample_counts hinspect.run hinspect.room (by rw [hbelow, Bool.and_false])

/-- Settles O30: `signed` splits on the crossing test, and `crossed` on `PREV_VALID` and the window. -/
theorem crossingTest : Obligations.CrossingTest := by
  intro s v hinspect habove
  rw [hinspect.exec_above habove]
  refine ⟨?_, fun hno => ?_, fun hpos hneg => ?_, fun hpos hneg hfirst => ?_, fun hpos hneg hvalid hclass => ?_⟩
  · rintro rfl
    exact absurd habove (Nat.not_lt_zero _)
  · rw [signed_of_noCrossing hno]
    rfl
  · rw [signed_of_crossing hpos hneg]
    obtain ⟨hvalid, hidx⟩ := crossed_registers s.cfg s.dec
    exact ⟨_, rfl, hvalid, hidx, rfl⟩
  · rw [signed_of_crossing hpos hneg, crossed_first hfirst]
    rfl
  · rw [signed_of_crossing hpos hneg, crossed_unclassified hvalid hclass]
    rfl

/-- Settles O31: the pulse row runs the same delivery, and no delivery reads or writes the registers that the
crossing writes (`deliver_withFront`). -/
theorem crossingSendsItsPulse : Obligations.CrossingSendsItsPulse := by
  intro s v k hinspect habove hpos hneg hvalid hclass
  have hrow := (exec_pulseInstr k _).trans (congrArg Host.Outcome.next
    (deliver_withFront { s.dec with grpOpen := if k = .gap then s.dec.grpOpen else true } s k))
  refine ⟨_, hrow, ?_⟩
  rw [hinspect.exec_above habove, signed_of_crossing hpos hneg, crossed_classified hvalid hclass,
    ← (deliver_frame k s).cfg]
  rfl

/-- Settles O32: one case for each window of `classify`, in which the bounds of the others fail. -/
theorem classificationWindows : Obligations.ClassificationWindows := by
  refine ⟨fun r d => ?_, by decide, fun m r d hm => classify_scale hm r d⟩
  rw [classify_eq_ite]
  split_ifs with hone hzero hstart hgap <;>
    simp only [Option.some.injEq, reduceCtorEq, true_iff, false_iff] <;> omega

/-- Settles O33. -/
theorem uninspectedSamplesOnlyCount : Obligations.UninspectedSamplesOnlyCount := by
  refine ⟨fun s v => ⟨fun hidle => ?_, fun hrun hroom hchph => ?_⟩,
    fun s e hrun herr => ⟨fun v hroom => ?_, fun v hlimit => ?_, ?_⟩⟩
  · exact exec_of_not_allowed rfl rfl (decide_eq_false hidle)
  · exact exec_sample_counts hrun hroom (by rw [inspected_of_otherChannel hchph, Bool.false_and])
  · exact exec_sample_counts hrun hroom (by rw [inspected_of_errCls herr, Bool.false_and])
  · exact exec_sample_atLimit_halted hrun hlimit (by rw [herr, Option.isSome_some]) v
  · rw [exec_dend_running s hrun, endDecode_of_errCls herr, report, finalResult_of_errCls herr]
    rfl

end Sys2Proof.Machine

end

section

namespace Sys2Proof.Machine

/-! ### BA and BF, one token at a time (42_assembler_framer R160 to R169) -/

section

open Reference (bitOf)

variable {s : State} {k : PulseKind}

theorem shiftIn_eq_ite (r : Byte) (b : Bool) : shiftIn r b = (r <<< 1) ||| (if b then 1 else 0) := by
  cases b <;> rfl

theorem shiftIn_false (r : Byte) : shiftIn r false = r <<< 1 := BitVec.or_zero

/-- CV is called in text mode while it is not halted (44_validator R200). -/
theorem cvActive_iff : s.cvActive = true ↔ s.cfg.mode.getLsbD 0 = true ∧ s.dec.errVal = none := by
  simp [State.cvActive, CfgRegs.text, DecRegs.halted, DecRegs.err]

theorem acceptBit_of_seeking (h : s.dec.locked = false) (b : Bool) :
    acceptBit s b = s.setDec (seek s.dec b) := if_neg (by simp [h])

theorem acceptBit_of_locked (h : s.dec.locked = true) (b : Bool) : acceptBit s b = push s b := if_pos h

/-- The byte goes to `DO`, to CV while it is active, and into the count (42_assembler_framer R167). -/
theorem emitByte_eq (s : State) (v : Byte) :
    emitByte s v =
      { s with
        doStream := s.doStream ++ [.ob v]
        dec := { if s.cvActive then cvByte s.dec v s.dec.bytecnt.toNat else s.dec with
          bytecnt := s.dec.bytecnt + 1 } } := by
  have hactive : (s.emitDo (.ob v)).cvActive = s.cvActive := rfl
  rw [emitByte, hactive]
  split
  next =>
    show State.setDec _ { cvByte s.dec v s.dec.bytecnt.toNat with
      bytecnt := (cvByte s.dec v s.dec.bytecnt.toNat).bytecnt + 1 } = _
    rw [cvByte_bytecnt]
    rfl
  next => rfl

theorem push_of_ne_seven (h : s.dec.bitcnt ≠ 7) (b : Bool) :
    push s b = s.setDec { s.dec with bsr := shiftIn s.dec.bsr b, bitcnt := s.dec.bitcnt + 1 } := if_neg h

theorem push_of_eq_seven (h : s.dec.bitcnt = 7) (b : Bool) :
    push s b = emitByte (s.setDec { s.dec with bsr := shiftIn s.dec.bsr b, bitcnt := 0 }) (shiftIn s.dec.bsr b) :=
  if_pos h

/-- The row of a pulse that sends its bit (42_assembler_framer R161 to R163). -/
theorem exec_bit (hrun : s.dec.errAsm = none) (hk : k ≠ .gap) (hstart : k = .start → s.dec.locked = false) :
    exec (pulseInstr k) s = .next (acceptBit s (bitOf k)) := by
  rw [exec_pulseInstr, deliver_bit hrun hk hstart]

theorem execSeq_pulses (s : State) (ks : List PulseKind) :
    execSeq (ks.map pulseInstr) s = .next (deliverAll s ks) := by
  induction ks generalizing s with
  | nil => rfl
  | cons k ks ih => exact (execSeq_cons _ _ (exec_pulseInstr k s)).trans (ih _)

theorem exec_gap_seeking (hrun : s.dec.errAsm = none) (hseeking : s.dec.locked = false) :
    exec .pulseGap s =
      .next (s.setDec { s.dec with errAsm := some ⟨.startSequenceNotFound, s.dec.secidx, 0⟩ }) := by
  rw [exec_pulseGap, ← deliver, deliver_gap hrun, if_neg (by simp [hseeking])]

theorem exec_gap_locked (hrun : s.dec.errAsm = none) (hlocked : s.dec.locked = true) :
    exec .pulseGap s = .next (sectionEnd s) := by
  rw [exec_pulseGap, ← deliver, deliver_gap hrun, if_pos hlocked]

/-- What the end of a section adds to its bytes (42_assembler_framer R169, 20_memory R72). -/
def tailBytes (s : State) : List Byte :=
  if s.build.tailPolicy = .padZero ∧ s.dec.bitcnt ≠ 0 then [padByte s.dec.bsr s.dec.bitcnt] else []

/-- A section end without CV (42_assembler_framer R169). -/
theorem sectionEnd_of_inactive (h : s.cvActive = false) :
    sectionEnd s =
      { s with
        doStream := s.doStream ++ (tailBytes s).map .ob ++
          [.os s.dec.secidx (s.dec.bytecnt + BitVec.ofNat 32 (tailBytes s).length) s.dec.bitcnt false 0]
        dec := s.dec.nextSection } := by
  have hflush : flushTail s =
      { s with
        doStream := s.doStream ++ (tailBytes s).map .ob
        dec := { s.dec with
          bitcnt := (flushTail s).dec.bitcnt, bytecnt := s.dec.bytecnt + BitVec.ofNat 32 (tailBytes s).length } } := by
    rw [flushTail, tailBytes]
    split
    next =>
      have hclear : (s.setDec { s.dec with bitcnt := 0 }).cvActive = false := h
      rw [emitByte_eq, hclear]
      rfl
    next => simp
  rw [sectionEnd_eq, closeSection, cvAtSectionEnd_inactive (by rw [hflush]; exact h), hflush]
  rfl

/-! ### The obligations about one token -/

/-- Settles O34: a pulse sends its bit, which `seek` takes. -/
theorem seekingPulsesShiftAndLock : Obligations.SeekingPulsesShiftAndLock := by
  refine ⟨fun s i b hrun hseeking hi => ?_, by decide, by decide⟩
  have hrow : exec i s = .next (acceptBit s b) := by
    simp only [List.mem_cons, Prod.mk.injEq, List.not_mem_nil, or_false] at hi
    obtain ⟨rfl, rfl⟩ | ⟨rfl, rfl⟩ | ⟨rfl, rfl⟩ := hi
    · exact exec_bit (k := .zero) hrun nofun nofun
    · exact exec_bit (k := .one) hrun nofun nofun
    · exact exec_bit (k := .start) hrun nofun fun _ => hseeking
  rw [hrow, acceptBit_of_seeking hseeking, seek_eq, shiftIn_eq_ite]
  rfl

/-- Settles O35: a pulse sends its bit, which `push` takes; the eighth reaches `emitByte`. -/
theorem lockedPulsesPushBits : Obligations.LockedPulsesPushBits := by
  intro s i b hrun hlocked hi
  have hrow : exec i s = .next (push s b) := by
    rw [← acceptBit_of_locked hlocked]
    simp only [List.mem_cons, Prod.mk.injEq, List.not_mem_nil, or_false] at hi
    obtain ⟨rfl, rfl⟩ | ⟨rfl, rfl⟩ := hi
    · exact exec_bit (k := .zero) hrun nofun nofun
    · exact exec_bit (k := .one) hrun nofun nofun
  rw [hrow]
  refine ⟨fun hlt => ?_, fun hfull => ?_⟩
  · rw [push_of_ne_seven hlt, shiftIn_eq_ite]
    rfl
  · rw [push_of_eq_seven hfull, emitByte_eq, shiftIn_eq_ite]
    simp only [cvActive_iff]
    rfl

/-- Settles O36. -/
theorem startPulseRule : Obligations.StartPulseRule := by
  refine fun s hrun => ⟨fun hseeking => ?_, fun hlocked hpartial => ?_, fun hlocked haligned => ?_⟩
  · exact (exec_bit (k := .start) hrun nofun fun _ => hseeking).trans (exec_bit (k := .zero) hrun nofun nofun).symm
  · rw [exec_pulseStart, ← deliver, deliver_start hrun hlocked, if_pos hpartial]
    rfl
  · rw [exec_pulseStart, ← deliver, deliver_start hrun hlocked, if_neg (not_not_intro haligned)]

/-- Settles O37: `sectionEnd_of_inactive` with no tail byte, and with one. -/
theorem groupEndRule : Obligations.GroupEndRule := by
  refine fun s hrun => ⟨fun hseeking => ?_, fun hlocked hcv => ?_⟩
  · exact congrArg Host.Outcome.next ((deliver_gap hrun).trans (if_neg (by simp [hseeking])))
  · have hend : exec .pulseGap s = .next (sectionEnd s) :=
      congrArg Host.Outcome.next ((deliver_gap hrun).trans (if_pos hlocked))
    rw [hend, sectionEnd_of_inactive (Bool.eq_false_of_not_eq_true (mt cvActive_iff.mp hcv))]
    refine ⟨fun hnone => ?_, fun hpad hpartial => ?_⟩
    · have htail : tailBytes s = [] := if_neg fun h => by
        obtain hdiscard | haligned := hnone
        · exact absurd (hdiscard.symm.trans h.1) nofun
        · exact h.2 haligned
      simp [htail, DecRegs.nextSection]
    · have htail : tailBytes s = [padByte s.dec.bsr s.dec.bitcnt] := if_pos ⟨hpad, hpartial⟩
      simp [htail, DecRegs.nextSection, padByte]

end

end Sys2Proof.Machine

end

section

namespace Sys2Proof.Machine

/-! ### What a sample and the end of a call do to BA, BF and CV (20_memory R66) -/

section

variable {i : Instr} {s t : State}

/-- From `s` to `t` the front registers changed, and BA received one token at most. -/
def AtMostOneToken (s t : State) : Prop :=
  (∃ o, t = s.withFront o) ∨ ∃ k o, t = (deliver k s).withFront o

theorem AtMostOneToken.of_halted (h : AtMostOneToken s t) (hhalted : s.dec.errAsm.isSome = true) :
    ∃ o, t = s.withFront o := by
  obtain h | ⟨k, o, h⟩ := h
  · exact h
  · exact ⟨o, by rw [h, deliver_halted hhalted]⟩

theorem crossed_tokens (cfg : CfgRegs) (d : DecRegs) : (crossed cfg d).2.length ≤ 1 := by
  unfold crossed
  split
  · split
    · exact Nat.zero_le 1
    · exact Nat.le_refl 1
  · exact Nat.zero_le 1

theorem sampled_tokens (cfg : CfgRegs) (d : DecRegs) (v : Word) : (sampled cfg d v).2.length ≤ 1 := by
  have hsigned : (signed cfg d v).2.length ≤ 1 := by
    unfold signed
    dsimp only
    split
    · exact crossed_tokens cfg d
    · exact Nat.zero_le 1
  unfold sampled
  dsimp only
  split
  · exact hsigned
  · exact Nat.zero_le 1

theorem raise_classifier_eq_withFront (d : DecRegs) (e : ErrorKind) (a b : Word) :
    d.raise .classifier e a b = d.withFront (d.raise .classifier e a b) := by
  unfold DecRegs.raise
  split <;> rfl

theorem acceptSample_token (s : State) (v : Word) : AtMostOneToken s (acceptSample s v) := by
  obtain hroom | hlimit := Nat.lt_or_ge s.dec.idx.toNat (indexLimit s.build)
  · rw [acceptSample_eq hroom, State.follow]
    match (sampled s.cfg s.dec v).2, sampled_tokens s.cfg s.dec v with
    | [], _ => exact .inl ⟨_, rfl⟩
    | [k], _ => exact .inr ⟨k, _, rfl⟩
  · rw [acceptSample_atLimit v hlimit]
    exact .inl ⟨_, congrArg s.setDec (raise_classifier_eq_withFront s.dec _ _ _)⟩

theorem flushGroup_token (s : State) : AtMostOneToken s (flushGroup s) := by
  unfold flushGroup
  split
  · exact .inr ⟨.gap, { (gend s).dec with grpOpen := false }, rfl⟩
  · exact .inl ⟨s.dec, rfl⟩

theorem sameAssembler_withFront (d o : DecRegs) : SameAssembler d (d.withFront o) := ⟨rfl, rfl, rfl, rfl, rfl, rfl⟩

theorem sameValidator_withFront (d o : DecRegs) : SameValidator d (d.withFront o) := ⟨rfl, rfl, rfl, rfl, rfl⟩

/-! ### One lock per section (42_assembler_framer R166) -/

/-- `LOCKED`, `SR` and `SECIDX`, as one value that an operation can keep. -/
def DecRegs.lock (d : DecRegs) : Bool × Byte × Word := (d.locked, d.sr, d.secidx)

theorem raise_lock (d : DecRegs) (st : Stage) (e : ErrorKind) (a b : Word) : (d.raise st e a b).lock = d.lock := by
  simp [DecRegs.lock]

theorem emitByte_lock (s : State) (v : Byte) : (emitByte s v).dec.lock = s.dec.lock := by
  rw [emitByte_eq]
  cases s.cvActive <;> simp [DecRegs.lock]

theorem push_lock (s : State) (b : Bool) : (push s b).dec.lock = s.dec.lock := by
  by_cases hfull : s.dec.bitcnt = 7
  · rw [push_of_eq_seven hfull, emitByte_lock]
    rfl
  · rw [push_of_ne_seven hfull]
    rfl

theorem flushTail_lock (s : State) : (flushTail s).dec.lock = s.dec.lock := by
  unfold flushTail
  split
  · exact emitByte_lock _ _
  · rfl

/-- The section goes on from `s` to `t`, or it has ended. -/
def SectionGoesOnOrEnds (s t : State) : Prop :=
  t.dec.lock = s.dec.lock ∨ t.dec.lock = (false, 0xFF, s.dec.secidx + 1)

theorem sectionEnd_lock (s : State) : (sectionEnd s).dec.lock = (false, 0xFF, s.dec.secidx + 1) := by
  have hsec : (flushTail s).dec.secidx = s.dec.secidx := congrArg (·.2.2) (flushTail_lock s)
  rw [sectionEnd_dec, ← hsec, ← cvAtSectionEnd_secidx]
  rfl

theorem deliver_lock (hlocked : s.dec.locked = true) (k : PulseKind) : SectionGoesOnOrEnds s (deliver k s) := by
  cases hrun : s.dec.errAsm with
  | some e => exact .inl (by rw [deliver_halted (by rw [hrun, Option.isSome_some])])
  | none =>
    cases k with
    | zero | one =>
      rw [deliver_bit hrun, acceptBit_of_locked hlocked]
      · exact .inl (push_lock s _)
      · exact nofun
      · exact nofun
    | start =>
      rw [deliver_start hrun hlocked]
      split <;> exact .inl rfl
    | gap =>
      rw [deliver_gap hrun, if_pos hlocked]
      exact .inr (sectionEnd_lock s)

theorem AtMostOneToken.lock (h : AtMostOneToken s t) (hlocked : s.dec.locked = true) : SectionGoesOnOrEnds s t := by
  obtain ⟨o, rfl⟩ | ⟨k, o, rfl⟩ := h
  · exact .inl rfl
  · exact deliver_lock hlocked k

theorem endDecode_lock (s : State) : (endDecode s).dec.lock = (flushGroup s).dec.lock := by
  have hreport : (endDecode s).dec.lock = (requireHeader (flushGroup s)).dec.lock := rfl
  rw [hreport, requireHeader]
  split
  · exact raise_lock _ _ _ _ _
  · rfl

theorem Effect.lock (h : Effect i s t) (hlocked : s.dec.locked = true)
    (hstart : ¬ (i = .dstart ∧ s.dec.dstate ≠ .run)) : SectionGoesOnOrEnds s t := by
  cases h with
  | nop | configured | mstart | mend => exact .inl rfl
  | refused => exact .inl (by rw [State.refuse_dec])
  | dstart hrun => exact absurd ⟨rfl, hrun⟩ hstart
  | sample v => exact (acceptSample_token s v).lock hlocked
  | dend =>
    rw [SectionGoesOnOrEnds, endDecode_lock]
    exact (flushGroup_token s).lock hlocked
  | pbyte u => exact .inl (congrArg DecRegs.lock (payloadByte_only s u).dec)
  | pend => exact .inl (congrArg DecRegs.lock (payloadEnd_only s).dec)
  | token k => exact deliver_lock hlocked k

/-- Settles O40. -/
theorem oneLockPerSection : Obligations.OneLockPerSection := by
  intro i s t hlocked hexec hstart
  have hlock := (effect_of_exec hexec).lock hlocked hstart
  simpa [SectionGoesOnOrEnds, DecRegs.lock, hlocked] using hlock

/-- Settles O41: of what reaches a halted assembler only the front registers are left. -/
theorem haltedAssemblerIgnoresTokens : Obligations.HaltedAssemblerIgnoresTokens := by
  intro s hhalted
  refine ⟨fun k => ?_, fun v t hexec => ?_, fun t hrun hexec => ?_, fun e => finalResult_of_errCls⟩
  · rw [exec_pulseInstr, deliver_halted hhalted]
  · by_cases hrun : s.dec.dstate = .run
    · obtain ⟨o, hsample⟩ := (acceptSample_token s v).of_halted hhalted
      cases eq_of_exec hexec (exec_sample_running v s hrun)
      rw [hsample]
      exact ⟨sameAssembler_withFront _ _, sameValidator_withFront _ _, rfl, rfl, rfl⟩
    · cases eq_of_exec hexec (exec_of_not_allowed (i := .sample v) rfl rfl (decide_eq_false hrun))
      rw [State.refuse_dec, State.refuse_doStream]
      exact ⟨sameAssembler_withFront _ s.dec, sameValidator_withFront _ s.dec, rfl, rfl, rfl⟩
  · obtain ⟨o, hflush⟩ := (flushGroup_token s).of_halted hhalted
    have hheader : requireHeader (s.withFront o) = s.withFront o :=
      requireHeader_of_halted (st := .assembler) hhalted
    cases eq_of_exec hexec (exec_dend_running s hrun)
    rw [endDecode, hflush, hheader]
    exact ⟨sameAssembler_withFront s.dec (report (s.withFront o)).dec,
      sameValidator_withFront s.dec (report (s.withFront o)).dec, rfl⟩

end

end Sys2Proof.Machine

end

section

namespace Sys2Proof.Machine

/-! ### The padded tail as Zero pulses (42_assembler_framer R169, 20_memory R72)

Zero pulses that complete a byte leave it in `BSR`, where the padding of a section end leaves the bits before
it. Neither the rest of the section end nor the next section reads it there. -/

section

variable {s : State}

/-- `d` with `BSR` as `x`. -/
def DecRegs.withBsr (d : DecRegs) (x : Byte) : DecRegs := { d with bsr := x }

/-- `s` with `BSR` as `x`. -/
def State.withBsr (s : State) (x : Byte) : State := s.setDec (s.dec.withBsr x)

theorem DecRegs.raise_withBsr (d : DecRegs) (x : Byte) (e : ErrorKind) (a b : Word) :
    (d.withBsr x).raise .validator e a b = (d.raise .validator e a b).withBsr x := by
  have hhalted : (d.withBsr x).halted .validator = d.halted .validator := rfl
  rw [DecRegs.raise, DecRegs.raise, hhalted]
  split <;> rfl

theorem cvByte_withBsr (d : DecRegs) (x v : Byte) (p : Nat) :
    cvByte (d.withBsr x) v p = (cvByte d v p).withBsr x := by
  unfold cvByte
  split
  · rfl
  · exact (apply_ite (DecRegs.withBsr · x) (d.secidx = 0) (cvByteHeader d v p) (cvByteData d v p)).symm

theorem emitByte_withBsr (s : State) (x v : Byte) : emitByte (s.withBsr x) v = (emitByte s v).withBsr x := by
  have hactive : (s.withBsr x).cvActive = s.cvActive := rfl
  have hbyte : cvByte (s.withBsr x).dec v (s.withBsr x).dec.bytecnt.toNat =
      (cvByte s.dec v s.dec.bytecnt.toNat).withBsr x := cvByte_withBsr ..
  rw [emitByte_eq, emitByte_eq, hactive, hbyte]
  cases s.cvActive <;> rfl

theorem cvAtSectionEnd_withBsr (s : State) (x : Byte) (n : Word) :
    cvAtSectionEnd (s.withBsr x) n = ((cvAtSectionEnd s n).1.withBsr x, (cvAtSectionEnd s n).2) := by
  have hverdict : cvVerdict (s.withBsr x).cfg (s.withBsr x).build (s.withBsr x).dec n =
      cvVerdict s.cfg s.build s.dec n := rfl
  have hactive : (s.withBsr x).cvActive = s.cvActive := rfl
  rw [cvAtSectionEnd, cvAtSectionEnd, hactive]
  split
  next =>
    rw [cvSectionEnd, cvSectionEnd, hverdict]
    split
    next => exact congrArg (·, false, 0) (s.dec.raise_withBsr x _ _ _)
    next => rfl
  next => rfl

theorem closeSection_withBsr (s : State) (x : Byte) (res : BitVec 3) :
    closeSection (s.withBsr x) res = closeSection s res := by
  have hbytes : (s.withBsr x).dec.bytecnt = s.dec.bytecnt := rfl
  rw [closeSection, closeSection, hbytes, cvAtSectionEnd_withBsr]
  rfl

theorem deliver_zero_locked (hrun : s.dec.errAsm = none) (hlocked : s.dec.locked = true) :
    deliver .zero s = push s false := by
  rw [deliver_bit (k := .zero) hrun nofun nofun, acceptBit_of_locked hlocked]
  rfl

/-- The Zero pulses that complete a byte (42_assembler_framer R161, R167). -/
theorem deliverAll_completing (hrun : s.dec.errAsm = none) (hlocked : s.dec.locked = true) {n : Nat}
    (hn : s.dec.bitcnt.toNat + n = 7) :
    deliverAll s (List.replicate (n + 1) .zero) =
      emitByte (s.setDec { s.dec with bsr := s.dec.bsr <<< (n + 1), bitcnt := 0 }) (s.dec.bsr <<< (n + 1)) := by
  induction n generalizing s with
  | zero =>
    show deliver .zero s = _
    rw [deliver_zero_locked hrun hlocked, push_of_eq_seven (BitVec.eq_of_toNat_eq hn), shiftIn_false]
  | succ n ih =>
    have hlt : s.dec.bitcnt ≠ 7 := fun h => by
      have hseven : s.dec.bitcnt.toNat = 7 := congrArg BitVec.toNat h
      omega
    have hcount : (s.dec.bitcnt + 1).toNat + n = 7 := by
      have hone : (1 : BitVec 3).toNat = 1 := rfl
      rw [BitVec.toNat_add_of_lt (by omega)]
      omega
    have hbits : s.dec.bsr <<< (n + 1 + 1) = s.dec.bsr <<< 1 <<< (n + 1) := by
      rw [← BitVec.shiftLeft_add, Nat.add_comm 1]
    rw [List.replicate_succ, deliverAll, List.foldl_cons, ← deliverAll, deliver_zero_locked hrun hlocked,
      push_of_ne_seven hlt, shiftIn_false, hbits]
    exact ih (s := s.setDec { s.dec with bsr := s.dec.bsr <<< 1, bitcnt := s.dec.bitcnt + 1 }) hrun hlocked hcount

theorem flushTail_of_aligned (h : s.dec.bitcnt = 0) : flushTail s = s := if_neg fun hpad => hpad.2 h

theorem flushTail_of_partial (hpolicy : s.build.tailPolicy = .padZero) (hpartial : s.dec.bitcnt ≠ 0) :
    flushTail s = emitByte (s.setDec { s.dec with bitcnt := 0 }) (padByte s.dec.bsr s.dec.bitcnt) :=
  if_pos ⟨hpolicy, hpartial⟩

theorem deliverAll_eq_flushTail (hrun : s.dec.errAsm = none) (hlocked : s.dec.locked = true)
    (hpolicy : s.build.tailPolicy = .padZero) (hpartial : s.dec.bitcnt ≠ 0) :
    deliverAll s (List.replicate (8 - s.dec.bitcnt.toNat) .zero) =
      (flushTail s).withBsr (padByte s.dec.bsr s.dec.bitcnt) := by
  obtain ⟨n, hn⟩ : ∃ n, s.dec.bitcnt.toNat + n = 7 := ⟨7 - s.dec.bitcnt.toNat, by omega⟩
  have hcount : 8 - s.dec.bitcnt.toNat = n + 1 := by omega
  rw [flushTail_of_partial hpolicy hpartial, ← emitByte_withBsr, padByte, hcount,
    deliverAll_completing hrun hlocked hn]
  rfl

theorem emitByte_frames (s : State) (v : Byte) :
    (emitByte s v).dec.errAsm = s.dec.errAsm ∧ (emitByte s v).dec.bitcnt = s.dec.bitcnt ∧
      (emitByte s v).doStream = s.doStream ++ [.ob v] := by
  rw [emitByte_eq]
  cases s.cvActive <;> simp

/-- The end of a group on a byte boundary does not depend on `BSR`. -/
theorem exec_gap_withBsr (hrun : s.dec.errAsm = none) (hlocked : s.dec.locked = true) (haligned : s.dec.bitcnt = 0)
    (x : Byte) : exec .pulseGap (s.withBsr x) = .next (closeSection s 0) := by
  have hbitcnt : (s.withBsr x).dec.bitcnt = 0 := haligned
  rw [exec_gap_locked (s := s.withBsr x) hrun hlocked, sectionEnd_eq, flushTail_of_aligned hbitcnt, hbitcnt,
    closeSection_withBsr]

/-- Settles O39: the Zero pulses leave what the padding leaves, but for `BSR` (`deliverAll_eq_flushTail`), and the
section end does not depend on that (`closeSection_withBsr`). -/
theorem padZeroCompletesTheByte : Obligations.PadZeroCompletesTheByte := by
  intro s hrun hlocked hpolicy hpartial
  have hlock := flushTail_lock s
  obtain ⟨hasm, hbitcnt, hbyte⟩ :=
    emitByte_frames (s.setDec { s.dec with bitcnt := 0 }) (padByte s.dec.bsr s.dec.bitcnt)
  rw [← flushTail_of_partial hpolicy hpartial] at hasm hbitcnt hbyte
  have hpulses := execSeq_pulses s (List.replicate (8 - s.dec.bitcnt.toNat) .zero)
  rw [List.map_replicate, deliverAll_eq_flushTail hrun hlocked hpolicy hpartial] at hpulses
  have hzeros := exec_gap_withBsr (hasm.trans hrun) ((congrArg (·.1) hlock).trans hlocked) hbitcnt
    (padByte s.dec.bsr s.dec.bitcnt)
  have hpadded := exec_gap_locked hrun hlocked
  rw [sectionEnd_eq] at hpadded
  have hstream (res : BitVec 3) : (closeSection (flushTail s) res).doStream = s.doStream ++
      [.ob (padByte s.dec.bsr s.dec.bitcnt), .os s.dec.secidx (flushTail s).dec.bytecnt res
        (cvAtSectionEnd (flushTail s) (flushTail s).dec.bytecnt).2.1
        (cvAtSectionEnd (flushTail s) (flushTail s).dec.bytecnt).2.2] := by
    have hsecidx : (flushTail s).dec.secidx = s.dec.secidx := congrArg (·.2.2) hlock
    simp [closeSection, hbyte, hsecidx]
  exact ⟨_, _, _, hpulses, hbitcnt, hzeros, hpadded, rfl, _, _, _, hstream 0,
    hstream s.dec.bitcnt⟩

end

end Sys2Proof.Machine

end

section

namespace Sys2Proof.Machine

/-! ### A whole group (42_assembler_framer R170, R171) -/

section

open Reference (groupBits bitOf markerBits packBytes byteOf bufferOf)

variable {s : State} {ks : List PulseKind} {acc bs : List Bool}

/-- Without the marker a group only shifts its bits into `SR` (42_assembler_framer R165). -/
theorem deliverAll_seeking (h : SectionStart s.dec) (hgap : PulseKind.gap ∉ ks)
    (hmarker : ∀ a b : List Bool, acc ++ ks.map bitOf ≠ a ++ markerBits ++ b) :
    deliverAll (seeking s acc) ks = seeking s (acc ++ ks.map bitOf) := by
  induction ks generalizing acc with
  | nil => rw [List.map_nil, List.append_nil, deliverAll, List.foldl_nil]
  | cons k ks ih =>
    obtain ⟨hk, hks⟩ := not_or.mp (List.mem_cons.not.mp hgap)
    rw [List.map_cons, List.append_cons] at hmarker
    have hseek : ¬ EndsInMarker (acc ++ [bitOf k]) := fun hends =>
      hmarker _ (ks.map bitOf) (by rw [← hends.2, List.take_append_drop])
    rw [deliverAll, List.foldl_cons, ← deliverAll,
      deliver_bit (s := seeking s acc) h.running (Ne.symm hk) fun _ => h.locked, acceptBit_seeking h.locked,
      if_neg hseek, ih hks hmarker, List.map_cons, ← List.append_cons]

/-- Settles O42. -/
theorem noMarkerNoBuffer : Obligations.NoMarkerNoBuffer := by
  intro s ks h hgap hmarker
  have hpulses := execSeq_pulses s ks
  rw [← seeking_nil h, deliverAll_seeking h hgap hmarker, seeking_nil h] at hpulses
  exact ⟨_, _, hpulses, h.locked, rfl, exec_gap_seeking h.running h.locked, rfl, rfl⟩

/-! Where CV is not called nothing reads a byte's position, so a section of any length does what `emitByte_framed`
and `acceptBit_locked` say of a short one. -/

theorem emitByte_framed_of_inactive (h : s.cvActive = false) (bytes : List Byte) (bitcnt : BitVec 3) (bsr v : Byte) :
    emitByte (framed s bytes bitcnt bsr) v = framed s (bytes ++ [v]) bitcnt bsr := by
  rw [emitByte_eq, framed_cvActive, h]
  simp [framed, h, BitVec.ofNat_add]

theorem acceptBit_locked_of_inactive (h : s.cvActive = false) (bs : List Bool) (b : Bool) :
    acceptBit (locked s bs) b = locked s (bs ++ [b]) := by
  have hbyte : shiftIn (byteOf bs) b = byteOf (bs ++ [b]) := (Reference.byteOf_append bs [b]).symm
  rw [acceptBit_of_locked rfl]
  by_cases hlast : bs.length % 8 = 7
  · have hzero : BitVec.ofNat 3 (bs ++ [b]).length = 0 := ofNat_three_eq_iff.mpr (by simp; omega)
    rw [push_of_eq_seven (ofNat_three_eq_iff.mpr hlast)]
    show emitByte (framed s (packBytes bs) 0 (shiftIn (byteOf bs) b)) (shiftIn (byteOf bs) b) = _
    rw [emitByte_framed_of_inactive h, hbyte, locked, Reference.packBytes_snoc, if_pos hlast, hzero]
  · have hcount : BitVec.ofNat 3 bs.length + 1 = BitVec.ofNat 3 (bs ++ [b]).length := by
      rw [List.length_append, BitVec.ofNat_add]
      rfl
    rw [push_of_ne_seven (mt ofNat_three_eq_iff.mp hlast)]
    show framed s (packBytes bs) (BitVec.ofNat 3 bs.length + 1) (shiftIn (byteOf bs) b) = _
    rw [hcount, hbyte, locked, Reference.packBytes_snoc, if_neg hlast, List.append_nil]

theorem locked_errAsm (h : SectionStart s.dec) (bs : List Bool) : (locked s bs).dec.errAsm = none :=
  (framed_err s _ _ _ .assembler).trans h.running

/-- A Start pulse after the data bits `bs` (42_assembler_framer R163). -/
theorem deliver_start_locked (h : SectionStart s.dec) (bs : List Bool) :
    deliver .start (locked s bs) =
      if bs.length % 8 = 0 then locked s bs
      else (locked s bs).setDec { (locked s bs).dec with
        errAsm := some ⟨.invalidStartPulse, s.dec.secidx, BitVec.ofNat 32 (bs.length % 8)⟩ } := by
  have hcount : (locked s bs).dec.bitcnt = 0 ↔ bs.length % 8 = 0 := ofNat_three_eq_iff
  have hwidth : (locked s bs).dec.bitcnt.setWidth 32 = BitVec.ofNat 32 (bs.length % 8) :=
    BitVec.eq_of_toNat_eq (by simp [locked, framed])
  have hsec : (locked s bs).dec.secidx = s.dec.secidx := framed_secidx s _ _ _
  rw [deliver_start (locked_errAsm h bs) rfl, hwidth, hsec]
  simp only [ne_eq, hcount, ite_not]

theorem runGroup_cons (s : State) (k : PulseKind) (ks : List PulseKind) :
    runGroup s (k :: ks) = runGroup (deliver k s) ks := rfl

theorem runGroup_halted (h : s.dec.errAsm.isSome = true) (ks : List PulseKind) : runGroup s ks = s := by
  rw [runGroup, deliverAll_halted h, deliver_halted h]

/-- The group that began at `s` has left `u`, where the document's assembler answers `r` for it: the section with
its data bits has ended, or BA has the error. -/
def GroupOutcome (s u : State) : Except ErrorRecord (List Bool) → Prop
  | .ok bs => u = sectionEnd (locked s bs)
  | .error e => u.dec.errAsm = some e

theorem runGroup_locked_outcome (h : SectionStart s.dec) (hcv : s.cvActive = false) (hgap : PulseKind.gap ∉ ks) :
    GroupOutcome s (runGroup (locked s bs) ks) (groupBits s.dec.secidx.toNat true bs ks) := by
  induction ks generalizing bs with
  | nil => exact (deliver_gap (locked_errAsm h bs)).trans (if_pos rfl)
  | cons k ks ih =>
    obtain ⟨hk, hks⟩ := not_or.mp (List.mem_cons.not.mp hgap)
    rw [runGroup_cons]
    by_cases hstart : k = .start
    · subst hstart
      rw [deliver_start_locked h, groupBits, BitVec.ofNat_toNat, BitVec.setWidth_eq]
      split
      · exact ih hks
      · rw [runGroup_halted rfl]
        rfl
    · rw [deliver_bit (locked_errAsm h bs) (Ne.symm hk) (absurd · hstart), acceptBit_locked_of_inactive hcv,
        groupBits_locked_bit hstart]
      exact ih hks

theorem runGroup_seeking_outcome (h : SectionStart s.dec) (hcv : s.cvActive = false) (hgap : PulseKind.gap ∉ ks) :
    GroupOutcome s (runGroup (seeking s acc) ks) (groupBits s.dec.secidx.toNat false acc ks) := by
  induction ks generalizing acc with
  | nil =>
    have hseeking : ¬ (seeking s acc).dec.locked = true := by simp [seeking, h.locked]
    rw [runGroup, deliverAll, List.foldl_nil, deliver_gap (s := seeking s acc) h.running, if_neg hseeking, groupBits,
      BitVec.ofNat_toNat, BitVec.setWidth_eq]
    rfl
  | cons k ks ih =>
    obtain ⟨hk, hks⟩ := not_or.mp (List.mem_cons.not.mp hgap)
    rw [runGroup_cons, deliver_bit (s := seeking s acc) h.running (Ne.symm hk) fun _ => h.locked,
      acceptBit_seeking h.locked, groupBits_seeking]
    split
    · exact runGroup_locked_outcome h hcv hks
    · exact ih hks

theorem tailBytes_locked (s : State) (bs : List Bool) :
    tailBytes (locked s bs) =
      if s.build.tailPolicy = .padZero ∧ bs.length % 8 ≠ 0 then [byteOf bs <<< (8 - bs.length % 8)] else [] := by
  have hpartial : BitVec.ofNat 3 bs.length ≠ 0 ↔ bs.length % 8 ≠ 0 := not_congr ofNat_three_eq_iff
  have hbyte : padByte (byteOf bs) (BitVec.ofNat 3 bs.length) = byteOf bs <<< (8 - bs.length % 8) :=
    congrArg (fun n => byteOf bs <<< (8 - n)) (BitVec.toNat_ofNat ..)
  exact if_congr (and_congr_right' hpartial) (congrArg ([·]) hbyte) rfl

/-- The bytes of a section and of its tail are those of the document's buffer (20_memory R72). -/
theorem packBytes_append_tailBytes (s : State) (bs : List Bool) :
    packBytes bs ++ tailBytes (locked s bs) = (bufferOf s.build.tailPolicy bs).bytes := by
  rw [tailBytes_locked, bufferOf]
  cases s.build.tailPolicy with
  | discard => simp
  | padZero =>
    by_cases haligned : bs.length % 8 = 0
    · simp [haligned]
    · have hcount : (8 - bs.length % 8) % 8 = 8 - bs.length % 8 := by omega
      rw [if_pos ⟨rfl, haligned⟩, if_pos rfl, hcount, Reference.packBytes_padded]

/-- Settles O43: the group ends as the document's assembler says (`runGroup_seeking_outcome`), and a section end
without CV delivers the document's buffer (`sectionEnd_of_inactive`). -/
theorem sectionAsClosedStatement : Obligations.SectionAsClosedStatement := by
  intro s ks h hcv hgap
  have hgroup : execSeq (ks.map pulseInstr ++ [.pulseGap]) s = .next (runGroup s ks) := by
    rw [execSeq_append _ _ _ (execSeq_pulses s ks)]
    rfl
  have houtcome := runGroup_seeking_outcome (acc := []) h hcv hgap
  rw [seeking_nil h] at houtcome
  refine ⟨_, hgroup, ?_⟩
  match hbits : groupBits s.dec.secidx.toNat false [] ks with
  | .error e =>
    rw [hbits] at houtcome
    exact houtcome
  | .ok bs =>
    rw [hbits] at houtcome
    have hlocked : (locked s bs).cvActive = false := (framed_cvActive s _ _ _).trans hcv
    have hsec : (locked s bs).dec.secidx = s.dec.secidx := framed_secidx s _ _ _
    rw [show runGroup s ks = _ from houtcome, sectionEnd_of_inactive hlocked]
    refine ⟨?_, ⟨rfl, rfl, rfl, rfl, rfl, locked_errAsm h bs⟩, congrArg (· + 1) hsec⟩
    have hres : (locked s bs).dec.bitcnt = BitVec.ofNat 3 (bufferOf s.build.tailPolicy bs).res :=
      ofNat_three_eq_iff.mpr (by simp [bufferOf])
    have hstream : (locked s bs).doStream = s.doStream ++ (packBytes bs).map .ob := rfl
    have hbytecnt : (locked s bs).dec.bytecnt = BitVec.ofNat 32 (packBytes bs).length := rfl
    rw [hres, hstream, hbytecnt, hsec, ← packBytes_append_tailBytes, List.length_append, BitVec.ofNat_add,
      List.map_append, List.append_assoc s.doStream]

end

end Sys2Proof.Machine

end

section

namespace Sys2Proof.Machine

/-! ### How many samples a byte and a burst have (43_modulator R188, R190) -/

section

variable (sine : List SineTable) (c : CfgRegs)

/-- The samples of any of a byte's bits: `N0` for each 0 and `N1` for each 1. -/
theorem bits_length (u : Byte) (ks : List Nat) :
    (ks.flatMap fun k => bitTone sine c (u.getLsbD k)).length =
      (ks.countP fun k => u.getLsbD k == false) * samplesZero c.rate +
        (ks.countP fun k => u.getLsbD k == true) * samplesOne c.rate := by
  induction ks with
  | nil => simp
  | cons k ks ih =>
    cases hbit : u.getLsbD k <;> simp [hbit, ih, samplesPerBit] <;> ring

theorem countBits_cons (b : Bool) (u : Byte) (p : List Byte) :
    countBits b (u :: p) = countBits b [u] + countBits b p := by simp [countBits]

theorem countBits_append (b : Bool) (p q : List Byte) : countBits b (p ++ q) = countBits b p + countBits b q := by
  simp [countBits]

/-- Every bit of a byte is a 0 or a 1. -/
theorem countBits_false_add_true (u : Byte) : countBits false [u] + countBits true [u] = 8 := by
  simpa [countBits] using
    (List.length_eq_countP_add_countP (u.getLsbD · == false) (l := [0, 1, 2, 3, 4, 5, 6, 7])).symm

/-- The order of the bits, most significant first, does not matter to their number. -/
theorem tones_length (u : Byte) :
    (tones sine c u).length =
      countBits false [u] * samplesZero c.rate + countBits true [u] * samplesOne c.rate := by
  have hcount (b : Bool) : [7, 6, 5, 4, 3, 2, 1, 0].countP (fun k => u.getLsbD k == b) = countBits b [u] :=
    (List.countP_reverse (l := [0, 1, 2, 3, 4, 5, 6, 7])).trans (Nat.add_zero _).symm
  rw [tones, bits_length, hcount, hcount]

theorem flatMap_tones_length (p : List Byte) :
    (p.flatMap (tones sine c)).length =
      countBits false p * samplesZero c.rate + countBits true p * samplesOne c.rate := by
  induction p with
  | nil => simp [countBits]
  | cons u p ih =>
    rw [List.flatMap_cons, List.length_append, tones_length, ih, countBits_cons false u p, countBits_cons true u p]
    ring

theorem countBits_replicate (b : Bool) (n : Nat) (u : Byte) :
    countBits b (List.replicate n u) = n * countBits b [u] := by simp [countBits]

/-- The 255 bytes of the leader have four bits of each value, and the marker a 0 and seven 1s (30_encoding R108). -/
theorem burst_length (p : List Byte) :
    (Reference.burst sine c p).length =
      (1021 + countBits false p) * samplesZero c.rate + (1027 + countBits true p) * samplesOne c.rate := by
  have hpre (b : Bool) : countBits b [Config.preByte] = 4 := by cases b <;> rfl
  have hzero : countBits false [Config.marker] = 1 := rfl
  have hone : countBits true [Config.marker] = 7 := rfl
  simp only [Reference.burst, flatMap_tones_length, countBits_append, countBits_replicate, hpre, hzero, hone,
    Config.preCount]

/-- The leader is the burst of an empty payload (43_modulator R189). -/
theorem leader_length : (leader sine c).length = 1021 * samplesZero c.rate + 1027 * samplesOne c.rate := by
  simpa [burst_eq, countBits] using burst_length sine c []

theorem samplesZero_reset : samplesZero State.reset.cfg.rate = 33 := rfl

theorem samplesOne_reset : samplesOne State.reset.cfg.rate = 16 := rfl

theorem burst_length_reset (p : List Byte) :
    (Reference.burst sine State.reset.cfg p).length =
      50125 + 33 * countBits false p + 16 * countBits true p := by
  rw [burst_length, samplesZero_reset, samplesOne_reset]
  ring

/-- After the first payload, each has a silence and a burst. -/
theorem furtherBursts_length (ps : List (List Byte)) :
    (ps.flatMap fun p => silence c ++ Reference.burst sine c p).length =
      (ps.map fun p => (Reference.burst sine c p).length).sum + ps.length * samplesSilence c.rate := by
  induction ps with
  | nil => simp
  | cons p ps ih =>
    rw [List.flatMap_cons, List.length_append, List.length_append, silence_length, ih, List.map_cons, List.sum_cons,
      List.length_cons]
    ring

/-- One silence less than there are payloads (43_modulator R190). -/
theorem modulate_length {ps : List (List Byte)} (h : ps ≠ []) :
    (Reference.modulate sine c ps).length =
      (ps.map fun p => (Reference.burst sine c p).length).sum + (ps.length - 1) * samplesSilence c.rate := by
  obtain ⟨p, ps, rfl⟩ := List.exists_cons_of_ne_nil h
  rw [modulate_cons, List.length_append, furtherBursts_length, List.map_cons, List.sum_cons, List.length_cons,
    Nat.add_sub_cancel, Nat.add_assoc]

/-- A burst begins with a 0 bit, the most significant of its first byte (43_modulator R187). -/
theorem bitTone_prefix_leader : bitTone sine c false <+: leader sine c := by
  refine List.IsPrefix.trans (l₂ := tones sine c Config.preByte) (List.prefix_append _ _) ?_
  rw [leader, List.replicate_succ, List.flatten_cons, List.append_assoc]
  exact List.prefix_append _ _

end

/-- The opening as the silence, then the leader and marker, each where its condition holds. -/
theorem opening_eq_append (s : State) :
    opening s =
      (if s.mod.inPay = false ∧ s.mod.havePrev = true then silence s.cfg else []) ++
        (if s.mod.inPay = false then leader s.build.sine s.cfg else []) := by
  unfold opening
  cases s.mod.inPay <;> simp

/-! ### The samples of a bit and of a silence (43_modulator R182, R183) -/

theorem samplesZero_eq (r : BitVec 32) : samplesZero r = (2 * r.toNat + 1320) / 2640 := rfl

theorem samplesOne_eq (r : BitVec 32) : samplesOne r = (2 * r.toNat + 2680) / 5360 := rfl

theorem samplesSilence_eq (r : BitVec 32) : samplesSilence r = (3 * r.toNat + 2) / 4 := by
  simp only [samplesSilence, roundDiv, Config.silNum, Config.silDen]
  omega

/-- A silence lies above every window and above the bound of the Gap. -/
theorem classify_of_silence_le {r : BitVec 32} {d : Nat} (hr : r ≠ 0) (hd : samplesSilence r ≤ d) :
    classify r.toNat d = some .gap := by
  have hpos : r.toNat ≠ 0 := mt (toNat_eq_zero_iff r).1 hr
  rw [samplesSilence_eq] at hd
  rw [classify_eq_ite, if_neg (by omega), if_neg (by omega), if_neg (by omega), if_pos (by omega)]

/-- 43_modulator R188: the first samples of a 0 bit at the reset configuration. -/
theorem bitTone_reset_take : (bitTone [] State.reset.cfg false).take 3 = [0, 6126, 12036] := by
  decide +kernel

/-! ### Rounding to the nearest integer (43_modulator R185) -/

/-- The integer part of `y + 1/2` is the nearest integer, the greater one at a tie. -/
theorem floor_add_half_nearest {y : ℝ} (hy : 0 ≤ y) :
    |(⌊y + 1 / 2⌋₊ : ℝ) - y| ≤ 1 / 2 ∧ (|(⌊y + 1 / 2⌋₊ : ℝ) - y| = 1 / 2 → y < ⌊y + 1 / 2⌋₊) := by
  have hle : (⌊y + 1 / 2⌋₊ : ℝ) ≤ y + 1 / 2 := Nat.floor_le (by linarith)
  have hlt : y + 1 / 2 < ⌊y + 1 / 2⌋₊ + 1 := Nat.lt_floor_add_one _
  refine ⟨abs_le.2 ⟨by linarith, by linarith⟩, fun htie => ?_⟩
  obtain habove | hbelow := (abs_eq (by norm_num)).1 htie <;> linarith

/-- With a sign `σ` the tie goes away from zero. -/
theorem signed_floor_nearest {σ y : ℝ} (hσ : |σ| = 1) (hy : 0 ≤ y) :
    |σ * ⌊y + 1 / 2⌋₊ - σ * y| ≤ 1 / 2 ∧
    (|σ * ⌊y + 1 / 2⌋₊ - σ * y| = 1 / 2 → |σ * y| < |σ * ⌊y + 1 / 2⌋₊|) := by
  rw [← mul_sub, abs_mul, abs_mul, abs_mul, hσ, one_mul, one_mul, one_mul, abs_of_nonneg hy, Nat.abs_cast]
  exact floor_add_half_nearest hy

/-- The sine is not negative on a quarter-wave. -/
theorem sin_quarter_nonneg {r k : Nat} (hk : 2 * k ≤ r) : 0 ≤ Real.sin (Real.pi * k / r) := by
  have hle : (k : ℝ) ≤ r := by exact_mod_cast (by omega : k ≤ r)
  refine Real.sin_nonneg_of_nonneg_of_le_pi (by positivity) ?_
  rw [mul_div_assoc]
  exact mul_le_of_le_one_right Real.pi_pos.le (div_le_one_of_le₀ hle r.cast_nonneg)

/-- `sinq` rounds the magnitude (`Sine.sinq_eq`) and the exact sine has the same sign and phase
(`Sine.phase_spec`). -/
theorem Sine.sinq_nearest {r a : Nat} (f i : Nat) (hr : 0 < r) (hr32 : r < 2 ^ 32) (ha : a < 2 ^ 31) :
    |(Sine.sinq r a f i : ℝ) - Real.sin (2 * Real.pi * (f * i : ℕ) / r) * a| ≤ 1 / 2 ∧
    (|(Sine.sinq r a f i : ℝ) - Real.sin (2 * Real.pi * (f * i : ℕ) / r) * a| = 1 / 2 →
      |Real.sin (2 * Real.pi * (f * i : ℕ) / r) * a| < |(Sine.sinq r a f i : ℝ)|) := by
  obtain ⟨hk, hsine⟩ := Sine.phase_spec r (f * i) hr
  rw [Sine.sinq_eq r a f i hr hr32 ha, hsine, mul_right_comm, mul_assoc]
  push_cast
  exact signed_floor_nearest (by split <;> simp) (mul_nonneg a.cast_nonneg (sin_quarter_nonneg hk))

/-! ### The obligations of 43_modulator -/

/-- Settles O52: outside `RUN` the state table refuses; in `RUN` the samples are those of the opening and of the
byte (`payloadByte_eq`), and each length counts the bits of the bytes sounded (`tones_length`, `leader_length`). -/
theorem pbyteRule : Obligations.PbyteRule := by
  refine ⟨decode_operandFormat (by decide) (by decide) rfl fun _ => rfl,
    fun s u hidle => exec_of_not_allowed rfl rfl (decide_eq_false hidle), fun s u hrun => ?_,
    fun sine c u => ⟨?_, silence_length c, ?_⟩, fun s hcfg hsine hmod => ?_, by decide⟩
  · intro quiet lead
    rw [exec_pbyte_running u s hrun, payloadByte_eq, opening_eq_append, List.append_assoc s.moStream,
      List.append_assoc s.moStream]
    rfl
  · rw [leader_length]
    ring
  · rw [tones_length, ← countBits_false_add_true u, Nat.add_sub_cancel_left]
  · have hopening : opening s = leader [] State.reset.cfg := by
      rw [opening_of_closed (by rw [hmod]), hmod, hsine, hcfg, if_neg Bool.false_ne_true, List.nil_append]
    obtain ⟨rest, hrest⟩ := bitTone_prefix_leader [] State.reset.cfg
    refine ⟨payloadByte s 0x48, opening s ++ tones s.build.sine s.cfg 0x48,
      exec_pbyte_running 0x48 s (by rw [hmod]), by rw [payloadByte_eq]; rfl, ?_, ?_⟩
    · rw [hopening, hcfg, List.length_append, leader_length, tones_length, samplesZero_reset, samplesOne_reset]
      decide
    · have hlong : 3 ≤ (bitTone [] State.reset.cfg false).length := by
        rw [bitTone_length]
        decide
      rw [hopening, ← hrest, List.append_assoc, List.take_append_of_le_length hlong, bitTone_reset_take]

/-- Settles O53; the example is an encode call of two payloads, of one byte and of none. -/
theorem pendRule : Obligations.PendRule := by
  refine ⟨decode_zeroFormat (by decide) rfl fun _ => rfl,
    fun s hidle => exec_of_not_allowed rfl rfl (decide_eq_false hidle), fun s hrun => ?_, fun s hcfg hidle => ?_⟩
  · intro quiet lead
    rw [exec_pend_running s hrun, payloadEnd_eq, opening_eq_append, List.append_assoc s.moStream]
    rfl
  · obtain ⟨t, hexec, -, hmo, -⟩ := encodeCallIsModulate.1 s [[0x41], []] hidle
    refine ⟨t, _, hexec, hmo, ?_⟩
    rw [modulate_length _ _ (List.cons_ne_nil _ _), hcfg, List.map_cons, List.map_cons, burst_length_reset,
      burst_length_reset, List.map_nil]
    decide

/-- Settles O54. -/
theorem sampleCounts : Obligations.SampleCounts := by
  refine ⟨fun r => ⟨samplesZero_eq r, samplesOne_eq r, ?_, ?_, samplesSilence_eq r⟩, by decide, by decide,
    bitTone_length, fun _ => rfl, fun _ _ => classify_of_silence_le⟩
  · rw [samplesZero_eq]
    omega
  · rw [samplesOne_eq]
    omega

/-- Settles O55: a call emits the document's `modulate` (`encodeCallIsModulate`), one burst for each payload and a
silence between each two (`modulate_length`). -/
theorem burstLengths : Obligations.BurstLengths := by
  refine ⟨burst_length, fun s ps hidle hne => ?_, burst_length_reset⟩
  obtain ⟨t, hexec, -, hmo, -⟩ := encodeCallIsModulate.1 s ps hidle
  exact ⟨t, _, hexec, hmo, modulate_length _ _ hne⟩

/-- Settles O57: with no table supplied the value is `sinq`, which rounds to the nearest (`Sine.sinq_nearest`). -/
theorem sineIsNearestInteger : Obligations.SineIsNearestInteger := by
  intro c b i hrate hbits f x q
  have hr : 0 < c.rate.toNat := Nat.pos_of_ne_zero (mt (toNat_eq_zero_iff c.rate).1 hrate)
  have hphase : 2 * Real.pi * f * i = 2 * Real.pi * ((if b then Config.f1 else Config.f0) * i : ℕ) := by
    cases b <;> simp [f] <;> ring
  have hnearest := Sine.sinq_nearest (if b then Config.f1 else Config.f0) i hr c.rate.isLt (maxAmplitude_lt hbits)
  rwa [← hphase, ← Sine.supplied_nil] at hnearest

/-- Settles O58: the kernel evaluates the integer form of the sine at every index of the six tables. -/
theorem sineTables : Obligations.SineTables := by
  unfold Obligations.SineTables
  decide +kernel

end Sys2Proof.Machine

end

section

namespace Sys2Proof.Machine

/-! ### A section end in text mode (44_validator R206) -/

section

variable {s : State}

/-- What the checks find in a section of its record's length (44_validator R207 to R210). -/
theorem cvVerdict_of_length {cfg : CfgRegs} {build : BuildParams} {d : DecRegs} {n : Word}
    (h : n.toNat = if d.secidx = 0 then Config.hdrLen else Config.datLen) :
    cvVerdict cfg build d n =
      if !d.b0Ok then
        some ⟨if d.secidx = 0 then .invalidFileType else .missingStartByte,
          (firstByte d.secidx).setWidth 32, d.b0Act.setWidth 32⟩
      else if !checksumOk build.ckTarget d.rsum && !cfg.ignck then
        some ⟨.invalidChecksum, d.secidx, d.rsum.setWidth 32⟩
      else none := if_neg (not_not_intro h)

theorem flushTail_of_noTail (h : s.build.tailPolicy = .discard ∨ s.dec.bitcnt = 0) : flushTail s = s := by
  obtain hdiscard | haligned := h
  · exact if_neg fun hpad => TailPolicy.noConfusion (hdiscard.symm.trans hpad.1)
  · exact flushTail_of_aligned haligned

/-- A section end that runs CV and has no bit to pad: CV's registers and answer go on. -/
theorem sectionEnd_of_active (hcv : s.cvActive = true)
    (htail : s.build.tailPolicy = .discard ∨ s.dec.bitcnt = 0) :
    sectionEnd s =
      let cv := cvSectionEnd s.cfg s.build s.dec s.dec.bytecnt
      { s with
        doStream := s.doStream ++ [.os s.dec.secidx s.dec.bytecnt s.dec.bitcnt cv.2.1 cv.2.2]
        dec := cv.1.nextSection } := by
  rw [sectionEnd_eq, flushTail_of_noTail htail, closeSection, cvAtSectionEnd, if_pos hcv]
  rfl

theorem sectionEnd_of_rejected {e : ErrorRecord} (hcv : s.cvActive = true)
    (htail : s.build.tailPolicy = .discard ∨ s.dec.bitcnt = 0)
    (h : cvVerdict s.cfg s.build s.dec s.dec.bytecnt = some e) :
    sectionEnd s =
      { s with
        doStream := s.doStream ++ [.os s.dec.secidx s.dec.bytecnt s.dec.bitcnt false 0]
        dec := { s.dec.nextSection with errVal := some e } } := by
  rw [sectionEnd_of_active hcv htail, cvSectionEnd, h]
  dsimp only
  rw [s.dec.raise_of_running .validator _ _ _ (cvActive_iff.mp hcv).2]
  rfl

theorem sectionEnd_of_accepted (hcv : s.cvActive = true)
    (htail : s.build.tailPolicy = .discard ∨ s.dec.bitcnt = 0)
    (h : cvVerdict s.cfg s.build s.dec s.dec.bytecnt = none) :
    sectionEnd s =
      { s with
        doStream := s.doStream ++ [.os s.dec.secidx s.dec.bytecnt s.dec.bitcnt true (cvLengths s.build s.dec).2]
        dec := s.dec.nextSection } := by
  rw [sectionEnd_of_active hcv htail, cvSectionEnd, h]
  rfl

end

end Sys2Proof.Machine

end

section

namespace Sys2Proof.Machine

/-! ### A validator that is not called (44_validator R200, R214) -/

section

variable {i : Instr} {s t u : State}

/-- CV's registers and its error register, as one value that an operation can keep. -/
def DecRegs.cv (d : DecRegs) : Byte × BitVec 9 × Bool × Byte × Vector Byte 6 × Option ErrorRecord :=
  (d.rsum, d.paylen, d.b0Ok, d.b0Act, d.name, d.errVal)

/-- The token accepts no record. -/
def DoToken.AcceptsNone : DoToken → Prop
  | .os _ _ _ acc len => acc = false ∧ len = 0
  | .ob _ | .od _ _ _ => True

/-- From `s` to `t` CV saw nothing: it is as it was, and no token that was added accepts a record. -/
structure CvSawNothing (s t : State) : Prop where
  kept : t.dec.cv = s.dec.cv
  added : ∃ os, t.doStream = s.doStream ++ os ∧ ∀ o ∈ os, o.AcceptsNone

theorem CvSawNothing.of_doStream_eq (hcv : t.dec.cv = s.dec.cv) (hstream : t.doStream = s.doStream) :
    CvSawNothing s t := ⟨hcv, [], by rw [hstream, List.append_nil], nofun⟩

theorem CvSawNothing.refl (s : State) : CvSawNothing s s := .of_doStream_eq rfl rfl

theorem CvSawNothing.trans (h : CvSawNothing s t) (k : CvSawNothing t u) : CvSawNothing s u := by
  obtain ⟨os, hos, hnone⟩ := h.added
  obtain ⟨os', hos', hnone'⟩ := k.added
  refine ⟨k.kept.trans h.kept, os ++ os', by rw [hos', hos, List.append_assoc], fun o ho => ?_⟩
  exact (List.mem_append.mp ho).elim (hnone o) (hnone' o)

theorem push_cvSawNothing (h : s.cvActive = false) (b : Bool) : CvSawNothing s (push s b) := by
  by_cases hfull : s.dec.bitcnt = 7
  · have hcleared : (s.setDec { s.dec with bsr := shiftIn s.dec.bsr b, bitcnt := 0 }).cvActive = false := h
    rw [push_of_eq_seven hfull, emitByte_eq, hcleared]
    exact ⟨rfl, _, rfl, List.forall_mem_singleton.mpr trivial⟩
  · rw [push_of_ne_seven hfull]
    exact .of_doStream_eq rfl rfl

theorem acceptBit_cvSawNothing (h : s.cvActive = false) (b : Bool) : CvSawNothing s (acceptBit s b) := by
  cases hlocked : s.dec.locked with
  | true =>
    rw [acceptBit_of_locked hlocked]
    exact push_cvSawNothing h b
  | false =>
    rw [acceptBit_of_seeking hlocked, seek_eq]
    split <;> exact .of_doStream_eq rfl rfl

theorem sectionEnd_cvSawNothing (h : s.cvActive = false) : CvSawNothing s (sectionEnd s) := by
  rw [sectionEnd_of_inactive h]
  refine ⟨rfl, _, List.append_assoc .., List.forall_mem_append.mpr ⟨?_, ?_⟩⟩
  · exact List.forall_mem_map.mpr fun _ _ => trivial
  · exact List.forall_mem_singleton.mpr ⟨rfl, rfl⟩

theorem deliver_cvSawNothing (h : s.cvActive = false) (k : PulseKind) : CvSawNothing s (deliver k s) := by
  cases hrun : s.dec.errAsm with
  | some e =>
    rw [deliver_halted (by rw [hrun, Option.isSome_some])]
    exact .refl s
  | none =>
    cases k with
    | zero | one =>
      rw [deliver_bit hrun]
      · exact acceptBit_cvSawNothing h _
      · exact nofun
      · exact nofun
    | start =>
      cases hlocked : s.dec.locked with
      | true =>
        rw [deliver_start hrun hlocked]
        split
        · exact .of_doStream_eq rfl rfl
        · exact .refl s
      | false =>
        rw [deliver_bit hrun PulseKind.noConfusion fun _ => hlocked]
        exact acceptBit_cvSawNothing h _
    | gap =>
      rw [deliver_gap hrun]
      split
      · exact sectionEnd_cvSawNothing h
      · exact .of_doStream_eq rfl rfl

theorem AtMostOneToken.cvSawNothing (h : AtMostOneToken s t) (hcv : s.cvActive = false) : CvSawNothing s t := by
  obtain ⟨o, rfl⟩ | ⟨k, o, rfl⟩ := h
  · exact .of_doStream_eq rfl rfl
  · exact (deliver_cvSawNothing hcv k).trans (.of_doStream_eq rfl rfl)

theorem CvSawNothing.cvActive (h : CvSawNothing s t) (hcfg : t.cfg = s.cfg) : t.cvActive = s.cvActive := by
  have hval : t.dec.errVal = s.dec.errVal := congrArg (·.2.2.2.2.2) h.kept
  rw [State.cvActive, State.cvActive, DecRegs.halted, DecRegs.halted, DecRegs.err, DecRegs.err, hval, hcfg]

/-- With CV not called, the end of a call asks for no header (40_control R127). -/
theorem requireHeader_of_inactive (h : s.cvActive = false) : requireHeader s = s := by
  obtain hraw | hhalted := Bool.and_eq_false_iff.mp h
  · exact requireHeader_of_raw hraw
  · exact requireHeader_of_halted (st := .validator) (by simpa using hhalted)

theorem endDecode_cvSawNothing (h : s.cvActive = false) : CvSawNothing s (endDecode s) := by
  have hflush : CvSawNothing s (flushGroup s) := (flushGroup_token s).cvSawNothing h
  have hreport : CvSawNothing (flushGroup s) (report (flushGroup s)) :=
    ⟨rfl, _, report_doStream _, List.forall_mem_singleton.mpr trivial⟩
  rw [endDecode, requireHeader_of_inactive ((hflush.cvActive (flushGroup_only s).cfg).trans h)]
  exact hflush.trans hreport

theorem Effect.cvSawNothing (h : Effect i s t) (hcv : s.cvActive = false) (hi : i ≠ .dstart) : CvSawNothing s t := by
  cases h with
  | nop => exact .refl s
  | configured | mstart | mend => exact .of_doStream_eq rfl rfl
  | refused => exact .of_doStream_eq (by rw [State.refuse_dec]) (State.refuse_doStream ..)
  | dstart => exact absurd rfl hi
  | sample v => exact (acceptSample_token s v).cvSawNothing hcv
  | dend => exact endDecode_cvSawNothing hcv
  | pbyte u => exact .of_doStream_eq (congrArg _ (payloadByte_only s u).dec) (payloadByte_only s u).doStream
  | pend => exact .of_doStream_eq (congrArg _ (payloadEnd_only s).dec) (payloadEnd_only s).doStream
  | token k => exact deliver_cvSawNothing hcv k

end

end Sys2Proof.Machine

end

section

namespace Sys2Proof.Machine

/-! ### One byte of the checksum (44_validator R211) -/

section

variable {sec : Nat} {bytes : List Byte} {p : Nat}

theorem wrappingSum_eq_sum (bytes : List Byte) : Reference.wrappingSum bytes = bytes.sum := List.sum_eq_foldl.symm

/-- `RSUM` is the sum of the relevant bytes (44_validator R203). -/
theorem feedSection_rsum_eq_sum (d : DecRegs) (hne : bytes ≠ []) :
    (feedSection d bytes).rsum = (Reference.relevant d.secidx.toNat bytes).sum := by
  obtain ⟨b, bs, rfl⟩ := List.exists_cons_of_ne_nil hne
  rw [feedSection_rsum, wrappingSum_eq_sum, Reference.relevant, sumEnd]
  simp only [toNat_eq_zero_iff, List.drop_one, List.tail_cons]

/-- A relevant byte adds itself to `RSUM`, and the rest of the section adds the same whatever it is. -/
theorem exists_feedSection_rsum_set (d : DecRegs) (hp : 1 ≤ p) (hend : p ≤ sumEnd d.secidx) (hlen : p < bytes.length) :
    ∃ rest : Byte, ∀ v, (feedSection d (bytes.set p v)).rsum = rest + v := by
  obtain ⟨q, rfl⟩ := Nat.exists_eq_add_of_le' hp
  obtain ⟨b, bs, rfl⟩ := List.exists_cons_of_length_pos (Nat.zero_lt_of_lt hlen)
  have hq : q < (bs.take (sumEnd d.secidx)).length := by
    rw [List.length_cons] at hlen
    rw [List.length_take]
    omega
  refine ⟨((bs.take (sumEnd d.secidx)).take q).sum + ((bs.take (sumEnd d.secidx)).drop (q + 1)).sum, fun v => ?_⟩
  rw [List.set_cons_succ, feedSection_rsum, wrappingSum_eq_sum, List.take_set, List.sum_set, if_pos hq]
  ring

theorem checksumOk_iff {target sum : Byte} : checksumOk target sum = true ↔ sum = target := decide_eq_true_iff

end

end Sys2Proof.Machine

end

section

namespace Sys2Proof.Machine

/-! ### The file of the host (44_validator R216 to R218) -/

section

variable {build : BuildParams} {ignck : Bool} {sec : Nat} {b : Reference.Buffer} {bs : List Reference.Buffer}
  {secs : List Reference.Section}

/-- An accepted record becomes a section with its own bytes and length (44_validator R215). -/
theorem parse_cons (h : Reference.parse build ignck sec (b :: bs) = .ok secs) :
    ∃ xs, Reference.parse build ignck (sec + 1) bs = .ok xs ∧
      secs = ⟨b.bytes, b.res, true, Reference.recordLen build.allFillerLen sec b.bytes⟩ :: xs := by
  rw [Reference.parse] at h
  cases hcheck : Reference.checkRecord build ignck sec b.bytes with
  | some e =>
    rw [hcheck] at h
    cases h
  | none =>
    rw [hcheck] at h
    cases hrest : Reference.parse build ignck (sec + 1) bs with
    | error e =>
      rw [hrest] at h
      cases h
    | ok xs =>
      rw [hrest] at h
      cases h
      exact ⟨xs, rfl, rfl⟩

/-- A 9-bit length cuts a list to what its window begins with. -/
theorem take_ofNat_of_prefix {n : Nat} {xs ys : List Byte} (h : xs <+: ys.take n) (hn : n < 2 ^ 9) :
    ys.take (BitVec.ofNat 9 xs.length).toNat = xs := by
  have hlen : xs.length ≤ n := h.length_le.trans (List.length_take_le n ys)
  rw [BitVec.toNat_ofNat, Nat.mod_eq_of_lt (hlen.trans_lt hn),
    ← List.prefix_iff_eq_take.mp (h.trans (List.take_prefix n ys))]

theorem take_recordLen_header (allFiller : AllFillerLen) (bytes : List Byte) :
    (bytes.drop 1).take (Reference.recordLen allFiller 0 bytes).toNat =
      Reference.trimName (Reference.nameField bytes) :=
  take_ofNat_of_prefix (n := Config.nameLenMax) (List.takeWhile_prefix _) (by decide)

/-- What a data record gives the file (44_validator R217, R222). -/
def filePart (allFiller : AllFillerLen) (bytes : List Byte) : List Byte :=
  let w := Reference.payloadWindow bytes
  if (Reference.trimPayload w).isEmpty then
    match allFiller with
    | .zero => []
    | .wholeWindow => w
  else Reference.trimPayload w

theorem take_recordLen_data (allFiller : AllFillerLen) (hsec : sec ≠ 0) (bytes : List Byte) :
    (bytes.drop 1).take (Reference.recordLen allFiller sec bytes).toNat = filePart allFiller bytes := by
  rw [Reference.recordLen, if_neg hsec]
  unfold filePart
  dsimp only
  split
  next => cases allFiller <;> rfl
  next => exact take_ofNat_of_prefix (n := Config.payWin) (List.rdropWhile_prefix _ _) (by decide)

theorem flatMap_take_of_parse (hsec : sec ≠ 0) (h : Reference.parse build ignck sec bs = .ok secs) :
    secs.flatMap (fun x => (x.bytes.drop 1).take x.len.toNat) =
      bs.flatMap (fun b => filePart build.allFillerLen b.bytes) := by
  induction bs generalizing sec secs with
  | nil =>
    cases h
    rfl
  | cons b bs ih =>
    obtain ⟨xs, hxs, rfl⟩ := parse_cons h
    rw [List.flatMap_cons, List.flatMap_cons, take_recordLen_data _ hsec, ih (Nat.succ_ne_zero sec) hxs]

end

end Sys2Proof.Machine

end

section

namespace Sys2Proof.Machine

/-! ### The obligations of 44_validator -/

/-- Settles O45: CV's fold is summed up in `cvVerdict_feedSection` and `cvLengths_feedSection`. -/
theorem recordVerdictIsReference : Obligations.RecordVerdictIsReference :=
  fun cfg build d _ hlen => ⟨cvVerdict_feedSection cfg build d hlen, cvLengths_feedSection cfg build d⟩

/-- Settles O38: what the checks find in each case, and what the section end makes of it. -/
theorem textSectionEndRule : Obligations.TextSectionEndRule := by
  intro s hrun hlocked htext hval htail fresh n rejected header goodLength badSum
  have hcv : s.cvActive = true := cvActive_iff.mpr ⟨htext, hval⟩
  have hrejected (e) (h : cvVerdict s.cfg s.build s.dec n = some e) : exec .pulseGap s = .next (rejected e) :=
    (exec_gap_locked hrun hlocked).trans (congrArg _ (sectionEnd_of_rejected hcv htail h))
  have hlen : goodLength ↔ n.toNat = if header then Config.hdrLen else Config.datLen := by
    by_cases hsec : header <;> simp [goodLength, hsec]
  have hsum : (!checksumOk s.build.ckTarget s.dec.rsum && !s.cfg.ignck) = true ↔ badSum := by
    simp [checksumOk, CfgRegs.ignck, badSum]
  refine ⟨fun hlength => hrejected _ (if_pos (hlen.not.mp hlength)), fun hlength hfirst hsec => ?_,
    fun hlength hfirst hsec => ?_, fun hlength hfirst hbad => ?_, fun hlength hfirst hgood => ?_⟩
  · refine hrejected _ ((cvVerdict_of_length (hlen.mp hlength)).trans ?_)
    rw [hfirst, firstByte, if_pos hsec, if_pos hsec]
    rfl
  · refine hrejected _ ((cvVerdict_of_length (hlen.mp hlength)).trans ?_)
    rw [hfirst, firstByte, if_neg hsec, if_neg hsec]
    rfl
  · refine hrejected _ ((cvVerdict_of_length (hlen.mp hlength)).trans ?_)
    rw [hfirst, if_pos (hsum.mpr hbad)]
    rfl
  · refine (exec_gap_locked hrun hlocked).trans (congrArg _ (sectionEnd_of_accepted hcv htail ?_))
    rw [cvVerdict_of_length (hlen.mp hlength), hfirst, if_neg (hsum.not.mpr hgood)]
    rfl

/-- Settles O44: no effect of an instruction but `DSTART` reaches a validator that is not called. -/
theorem inactiveValidatorSeesNothing : Obligations.InactiveValidatorSeesNothing := by
  intro i s t hcv hi hexec
  obtain ⟨hkept, os, hos, hnone⟩ := (effect_of_exec hexec).cvSawNothing hcv hi
  simp only [DecRegs.cv, Prod.mk.injEq] at hkept
  obtain ⟨hrsum, hpaylen, hb0Ok, hb0Act, hname, hval⟩ := hkept
  exact ⟨⟨hrsum, hpaylen, hb0Ok, hb0Act, hname⟩, hval, os, hos, fun _ _ _ _ _ hmem => hnone _ hmem⟩

/-- Settles O46: `RSUM` is a fixed rest plus the one byte (`exists_feedSection_rsum_set`), and a sum does not depend on
the order. -/
theorem oneChangedByteFlipsTheChecksum : Obligations.OneChangedByteFlipsTheChecksum := by
  refine ⟨fun d bytes p v hp hend hlen hne => ?_, fun d bytes p target hp hend hlen => ?_,
    fun d xs ys hxs hys hperm => ?_⟩
  · obtain ⟨rest, hrest⟩ := exists_feedSection_rsum_set d hp hend hlen
    have hold : (feedSection d bytes).rsum = rest + bytes[p] := by
      rw [← hrest, List.set_getElem_self]
    have hchanged : (feedSection d (bytes.set p v)).rsum ≠ (feedSection d bytes).rsum := by
      rw [hrest, hold]
      exact fun heq => hne (List.getElem?_eq_some_iff.mpr ⟨hlen, (add_left_cancel heq).symm⟩)
    refine ⟨hchanged, fun target hok => ?_⟩
    exact decide_eq_false fun hok' => hchanged (hok'.trans (checksumOk_iff.mp hok).symm)
  · obtain ⟨rest, hrest⟩ := exists_feedSection_rsum_set d hp hend hlen
    simp only [checksumOk_iff, hrest]
    exact ⟨target - rest, add_sub_cancel _ _, fun v hv => eq_sub_of_add_eq' hv⟩
  · rw [feedSection_rsum_eq_sum d hxs, feedSection_rsum_eq_sum d hys, hperm.sum_eq]

/-- Settles O47: the reported length of each section cuts its bytes to the trimmed name, or to what the record gives
the file. -/
theorem hostFileIsNameAndPayload : Obligations.HostFileIsNameAndPayload := by
  intro build ignck h rs secs hparse
  obtain ⟨xs, hxs, rfl⟩ := parse_cons hparse
  exact congrArg₂ Prod.mk (take_recordLen_header build.allFillerLen h.bytes)
    (flatMap_take_of_parse Nat.one_ne_zero hxs)

end Sys2Proof.Machine

end

section

namespace Sys2Proof.Machine

/-! ### The error registers of a step (60_exceptions R228, R231, R238) -/

section

variable {i : Instr} {s t u : State}

theorem DecRegs.setErr_err (d : DecRegs) (st : Stage) (e : Option ErrorRecord) :
    (d.setErr st e).err = Function.update d.err st e := by
  funext st'
  by_cases hst : st' = st
  · rw [hst, DecRegs.setErr_err_self, Function.update_self]
  · rw [DecRegs.setErr_err_of_ne d st st' e hst, Function.update_of_ne hst]

/-- From `s` to `t` the errors are the same, but for one that a stage without an error has taken. -/
def TakesAtMostOneError (s t : State) : Prop :=
  t.dec.err = s.dec.err ∨
  ∃ st r, s.dec.err st = none ∧ t.dec.err = Function.update s.dec.err st (some r)

namespace TakesAtMostOneError

theorem refl (s : State) : TakesAtMostOneError s s := .inl rfl

theorem ite {p : Prop} [Decidable p] (h : TakesAtMostOneError s t) (k : TakesAtMostOneError s u) :
    TakesAtMostOneError s (if p then t else u) := by
  split
  · exact h
  · exact k

theorem of_err_eq (h : t.dec.err = s.dec.err) (k : TakesAtMostOneError t u) : TakesAtMostOneError s u := by
  rwa [TakesAtMostOneError, h] at k

theorem raise (s : State) (st : Stage) (e : ErrorKind) (a b : Word) :
    TakesAtMostOneError s (s.setDec (s.dec.raise st e a b)) := by
  cases herr : s.dec.err st with
  | none =>
    rw [DecRegs.raise_of_running _ _ _ _ _ herr]
    exact .inr ⟨st, _, herr, DecRegs.setErr_err ..⟩
  | some r =>
    rw [DecRegs.raise_of_halted _ _ _ _ _ (by simp [DecRegs.halted, herr])]
    exact .refl s

/-- A stage keeps the error it has (60_exceptions R228). -/
theorem keeps_err (h : TakesAtMostOneError s t) {st : Stage} {e : ErrorRecord} (he : s.dec.err st = some e) :
    t.dec.err st = some e := by
  obtain h | ⟨st', r, hnone, h⟩ := h
  · rw [h, he]
  · have hst : st ≠ st' := by
      rintro rfl
      cases hnone.symm.trans he
    rw [h, Function.update_of_ne hst, he]

end TakesAtMostOneError

/-! #### BA, BF and CV -/

theorem emitByte_err (s : State) (v : Byte) : (emitByte s v).dec.err = s.dec.err := by
  funext st
  rw [emitByte_eq]
  cases s.cvActive
  · rfl
  · exact cvByte_err s.dec v _ st

theorem push_err (s : State) (b : Bool) : (push s b).dec.err = s.dec.err := by
  by_cases hfull : s.dec.bitcnt = 7
  · rw [push_of_eq_seven hfull, emitByte_err]
    rfl
  · rw [push_of_ne_seven hfull]
    rfl

theorem acceptBit_err (s : State) (b : Bool) : (acceptBit s b).dec.err = s.dec.err := by
  cases hlocked : s.dec.locked with
  | true => rw [acceptBit_of_locked hlocked, push_err]
  | false =>
    rw [acceptBit_of_seeking hlocked, seek_eq]
    split <;> rfl

theorem flushTail_err (s : State) : (flushTail s).dec.err = s.dec.err := by
  unfold flushTail
  split
  · exact emitByte_err _ _
  · rfl

/-- A section end takes an error at its check alone (42_assembler_framer R169). -/
theorem sectionEnd_takesAtMostOneError (s : State) : TakesAtMostOneError s (sectionEnd s) := by
  refine .of_err_eq (flushTail_err s) ?_
  rw [TakesAtMostOneError, sectionEnd_dec]
  obtain h | ⟨e, h⟩ := cvAtSectionEnd_regs (flushTail s) (flushTail s).dec.bytecnt
  · rw [h]
    exact .inl rfl
  · rw [h]
    exact TakesAtMostOneError.raise (flushTail s) .validator e.kind e.info e.info2

theorem deliver_takesAtMostOneError (k : PulseKind) (s : State) : TakesAtMostOneError s (deliver k s) :=
  match k with
  | .zero => .ite (.refl s) (.inl (acceptBit_err s false))
  | .one => .ite (.refl s) (.inl (acceptBit_err s true))
  | .start => .ite (.refl s) (.ite (.inl (acceptBit_err s false)) (.ite (.raise s ..) (.refl s)))
  | .gap => .ite (.refl s) (.ite (sectionEnd_takesAtMostOneError s) (.raise s ..))

/-! #### A sample and the end of a call -/

theorem pulse_takesAtMostOneError (s : State) (k : PulseKind) : TakesAtMostOneError s (pulse s k) :=
  match k with
  | .zero => deliver_takesAtMostOneError .zero (s.setDec { s.dec with grpOpen := true })
  | .one => deliver_takesAtMostOneError .one (s.setDec { s.dec with grpOpen := true })
  | .start => deliver_takesAtMostOneError .start (s.setDec { s.dec with grpOpen := true })
  | .gap => deliver_takesAtMostOneError .gap s

theorem measure_takesAtMostOneError (s : State) (d c : Word) : TakesAtMostOneError s (measure s d c) := by
  unfold measure
  split
  · exact .raise s ..
  · exact pulse_takesAtMostOneError s _

theorem cross_takesAtMostOneError (s : State) (c : Word) : TakesAtMostOneError s (cross s c) :=
  TakesAtMostOneError.ite (p := s.dec.prevValid = true) (measure_takesAtMostOneError s _ c) (.refl s)

theorem update_takesAtMostOneError (s : State) (v i : Word) : TakesAtMostOneError s (update s v i) :=
  TakesAtMostOneError.ite (p := isCrossing s.dec.lastSign v = true) (cross_takesAtMostOneError s i) (.refl s)

theorem inspectIfDue_takesAtMostOneError (s : State) (v : Word) : TakesAtMostOneError s (inspectIfDue s v) :=
  .ite (.ite (update_takesAtMostOneError s v _) (.refl s)) (.refl s)

/-- A sample takes the classifier's error, or the error of the pulse it ends, or none (60_exceptions R231). -/
theorem acceptSample_takesAtMostOneError (s : State) (v : Word) : TakesAtMostOneError s (acceptSample s v) :=
  .ite (.raise s ..) (inspectIfDue_takesAtMostOneError s v)

theorem flushGroup_takesAtMostOneError (s : State) : TakesAtMostOneError s (flushGroup s) :=
  .ite (deliver_takesAtMostOneError .gap s) (.refl s)

/-- After an error at the flush of the last group no header is asked for (40_control R127). -/
theorem endDecode_takesAtMostOneError (s : State) : TakesAtMostOneError s (endDecode s) := by
  show TakesAtMostOneError s (requireHeader (flushGroup s))
  obtain hkept | ⟨st, r, hnone, htaken⟩ := flushGroup_takesAtMostOneError s
  · exact .of_err_eq hkept (.ite (.raise _ ..) (.refl _))
  · have hhalted : (flushGroup s).dec.halted st = true := by
      rw [DecRegs.halted, htaken, Function.update_self, Option.isSome_some]
    rw [requireHeader_of_halted hhalted]
    exact .inr ⟨st, r, hnone, htaken⟩

/-! #### A step -/

/-- No stage has an error in the reset values (10_state R53), which an accepted `DSTART` restores too. -/
theorem resetRegs_err (q : DState) : { DecRegs.reset with dstate := q }.err = fun _ => none := by
  funext st
  cases st <;> rfl

/-- An accepted `DSTART` clears the errors; every other instruction takes one at most. -/
theorem Effect.errors (h : Effect i s t) :
    (i = .dstart ∧ s.dec.dstate ≠ .run ∧ t.dec.err = fun _ => none) ∨ TakesAtMostOneError s t := by
  cases h with
  | dstart hrun => exact .inl ⟨rfl, hrun, resetRegs_err .run⟩
  | nop | configured | mstart | mend => exact .inr (.inl rfl)
  | refused => exact .inr (.inl (by rw [State.refuse_dec]))
  | sample v => exact .inr (acceptSample_takesAtMostOneError s v)
  | dend => exact .inr (endDecode_takesAtMostOneError s)
  | pbyte u => exact .inr (.inl (congrArg DecRegs.err (payloadByte_only s u).dec))
  | pend => exact .inr (.inl (congrArg DecRegs.err (payloadEnd_only s).dec))
  | token k => exact .inr (deliver_takesAtMostOneError k s)

/-- A reset edge and an accepted `DSTART` clear the errors; every other step takes one at most. -/
theorem step_errors (hstep : step s = .next t) :
    ((resetNext s ∨ (nextInstr? s = some .dstart ∧ s.dec.dstate ≠ .run)) ∧ t.dec.err = fun _ => none) ∨
      TakesAtMostOneError s t := by
  cases stepEffect_of_step hstep with
  | waits _ _ ht => exact .inr (.inl (ht ▸ rfl))
  | resets rest hreset _ ht => exact .inl ⟨.inl hreset, ht ▸ resetRegs_err .idle⟩
  | rejects rest reason op _ _ ht => exact .inr (.inl (by rw [ht, State.refuse_dec]))
  | runs rest i _ hnext hexec =>
    obtain ⟨rfl, hrun, hclear⟩ | hone := (effect_of_exec hexec).errors
    · exact .inl ⟨.inr ⟨hnext, hrun⟩, hclear⟩
    · exact .inr hone

theorem errorCount_eq (d : DecRegs) :
    errorCount d = (d.err .classifier).isSome.toNat + (d.err .assembler).isSome.toNat +
      (d.err .validator).isSome.toNat := rfl

theorem TakesAtMostOneError.errorCount_le (h : TakesAtMostOneError s t) :
    errorCount t.dec ≤ errorCount s.dec + 1 := by
  obtain h | ⟨st, r, hnone, h⟩ := h
  · rw [errorCount_eq, h, ← errorCount_eq]
    exact Nat.le_succ _
  · rw [errorCount_eq, errorCount_eq, h]
    cases st with
    | classifier | assembler | validator => simp +arith [hnone]

/-! ### Every step has a next state -/

theorem Effect.build (h : Effect i s t) : t.build = s.build := by
  cases h with
  | nop | configured | dstart | mstart | mend => rfl
  | refused => rw [State.refuse_build]
  | sample v => exact (acceptSample_only s v).build
  | dend => exact (endDecode_only s).build
  | pbyte u => exact (payloadByte_only s u).build
  | pend => exact (payloadEnd_only s).build
  | token k => exact (deliver_frame k s).build

/-- No step writes the build-time parameters (log 5). -/
theorem step_build (hstep : step s = .next t) : t.build = s.build := by
  cases stepEffect_of_step hstep with
  | waits _ _ ht => rw [ht]
  | resets rest _ _ ht => rw [ht, State.assertReset_build]
  | rejects rest reason op _ _ ht => rw [ht, State.refuse_build]
  | runs rest i _ _ hexec => exact (effect_of_exec hexec).build

/-- The block is never stuck (93_implementation_defined section 4). -/
theorem step_next (s : State) : ∃ t, step s = .next t := by
  unfold step
  split
  · exact ⟨_, rfl⟩
  · exact ⟨_, rfl⟩
  · split
    · exact exec_next _ _
    · exact ⟨_, rfl⟩

end

/-! ### The obligations of 60_exceptions -/

/-- Settles O48: what a step does to the errors is said once in `step_errors`. -/
theorem firstErrorIsKept : Obligations.FirstErrorIsKept := by
  refine ⟨fun s t st e hstep hreset hstart herr => ?_, fun s t hstep => ?_⟩
  · obtain ⟨hclears, -⟩ | hone := step_errors hstep
    · exact absurd hclears (not_or.mpr ⟨hreset, hstart⟩)
    · exact hone.keeps_err herr
  · obtain ⟨-, hclear⟩ | hone := step_errors hstep
    · rw [errorCount_eq, hclear]
      exact Nat.zero_le _
    · exact hone.errorCount_le

/-- Settles O5. -/
theorem stepNeverStops : Obligations.StepNeverStops := by
  intro s
  obtain ⟨t, hstep⟩ := step_next s
  exact ⟨t, hstep, step_build hstep⟩

/-- Settles O49: the four cases of `finalResult`; in raw mode the invariant leaves the validator no error. -/
theorem finalResultByStage : Obligations.FinalResultByStage := by
  refine ⟨fun d => ⟨fun e => finalResult_of_errCls, fun e => finalResult_of_errAsm,
    fun e => finalResult_of_errVal, finalResult_of_success⟩, fun s hinv hrun herr => ?_⟩
  refine Bool.eq_true_of_not_eq_false fun hraw => ?_
  rw [hinv.rawNoError hrun hraw] at herr
  cases herr

end Sys2Proof.Machine

end

section

namespace Sys2Proof.Machine

/-! ### Reset (70_reset R260, R261) -/

/-- The reset values of the four register groups are the table of 10_state R53. -/
theorem AtResetValues.of_regs {s : State} (hcfg : s.cfg = .reset) (hdec : s.dec = .reset) (hmod : s.mod = .reset)
    (hfault : s.faultReg = 0x00) : AtResetValues s := by
  obtain ⟨cfg, dec, mod, faultReg⟩ := s
  subst hcfg hdec hmod hfault
  constructor <;> rfl

theorem atResetValues_assertReset (s : State) : AtResetValues s.assertReset := .of_regs rfl rfl rfl rfl

/-! ### A quiet signal (70_reset R274) -/

section

variable {s : State} {vs : List Word}

/-- A sample at or below the threshold only counts, whether it is inspected or not (41_demodulator R142). -/
theorem acceptSample_of_quiet {v : Word} (hroom : s.dec.idx.toNat < indexLimit s.build)
    (hquiet : v.toInt.natAbs ≤ threshold s.cfg.bits) : acceptSample s v = s.setDec (counted s.cfg s.dec) := by
  have hbelow : aboveThreshold s.cfg.bits v = false := decide_eq_false hquiet.not_gt
  rw [acceptSample_eq hroom, sampled, hbelow, Bool.and_false]
  rfl

/-- Quiet samples write `IDX` and `CHPH` alone. -/
theorem foldl_acceptSample_of_quiet (hroom : s.dec.idx.toNat + vs.length ≤ indexLimit s.build)
    (hquiet : ∀ v ∈ vs, v.toInt.natAbs ≤ threshold s.cfg.bits) :
    ∃ chph idx, vs.foldl acceptSample s = s.setDec { s.dec with chph := chph, idx := idx } ∧
      idx.toNat = s.dec.idx.toNat + vs.length := by
  induction vs generalizing s with
  | nil => exact ⟨s.dec.chph, s.dec.idx, rfl, rfl⟩
  | cons v vs ih =>
    rw [List.length_cons] at hroom ⊢
    obtain ⟨hv, hvs⟩ := List.forall_mem_cons.mp hquiet
    have hnow : s.dec.idx.toNat < indexLimit s.build := by omega
    have hidx : (counted s.cfg s.dec).idx.toNat = s.dec.idx.toNat + 1 := toNat_idx_succ hnow
    rw [List.foldl_cons, acceptSample_of_quiet hnow hv]
    obtain ⟨chph, idx, hfold, hcount⟩ := ih (s := s.setDec (counted s.cfg s.dec))
      (by rw [State.setDec_dec, hidx, State.setDec_build]; omega) hvs
    refine ⟨chph, idx, hfold, ?_⟩
    rw [hcount, State.setDec_dec, hidx]
    omega

/-- The end of a call with no group to flush, no error and no section: the text-mode check alone decides what is
reported (40_control R127). -/
theorem endDecode_of_noGroup (hgroup : s.dec.grpOpen = false) (hcls : s.dec.errCls = none)
    (hasm : s.dec.errAsm = none) (hval : s.dec.errVal = none) (hsec : s.dec.secidx = 0) :
    (endDecode s).doStream = s.doStream ++
        [if s.cfg.mode.getLsbD 0 then .od (some .invalidBufferLength) 0 0 else .od none 0 0] ∧
      (endDecode s).dec.prevValid = s.dec.prevValid ∧ (endDecode s).dec.secidx = 0 := by
  have hflush : flushGroup s = s := by simp [flushGroup, hgroup]
  rw [endDecode, hflush, report_doStream]
  cases htext : s.cfg.mode.getLsbD 0 with
  | false =>
    rw [requireHeader_of_raw htext, finalResult_of_success hcls hasm hval, hsec]
    exact ⟨rfl, rfl, hsec⟩
  | true =>
    have hresult : { s.dec with errVal := some ⟨.invalidBufferLength, 0, 0⟩ }.finalResult =
        (some .invalidBufferLength, 0, 0) :=
      finalResult_of_errVal (e := ⟨_, _, _⟩) (by exact hcls) (by exact hasm) rfl
    rw [requireHeader_of_empty htext hcls hasm hval hsec, State.setDec_dec, hresult]
    exact ⟨rfl, rfl, hsec⟩

end

/-! ### The obligations of 70_reset -/

/-- Settles O6. -/
theorem resetEdge : Obligations.ResetEdge :=
  ⟨⟨.of_regs rfl rfl rfl rfl, rfl, rfl⟩,
    fun s rest hrst => ⟨_, step_rst s rest hrst, atResetValues_assertReset _, rfl, rfl, rfl⟩⟩

/-- Settles O7: the edge moves the streams to the end of the past ones. -/
theorem resetRecallsNoToken : Obligations.ResetRecallsNoToken := by
  intro s rest hrst
  refine ⟨_, step_rst s rest hrst, ?_, ?_⟩
  · rw [State.assertReset_doPast, State.assertReset_doStream, List.append_nil]
  · rw [State.assertReset_moPast, State.assertReset_moStream, List.append_nil]

/-- Settles O59: the samples only count, so the call ends as it began but for the counters. -/
theorem quietSignalHasNoSections : Obligations.QuietSignalHasNoSections := by
  intro s vs hready hlen hquiet
  obtain ⟨chph, idx, hfold, hcount⟩ := foldl_acceptSample_of_quiet (s := s.setDec DecRegs.restart)
    ((Nat.zero_add _).trans_le hlen) hquiet
  refine ⟨_, execSeq_decodeCommands vs hready, ?_⟩
  rw [hfold]
  obtain ⟨hstream, hprev, hsec⟩ := endDecode_of_noGroup
    (s := s.setDec { DecRegs.restart with chph := chph, idx := idx }) rfl rfl rfl rfl rfl
  exact ⟨hstream, (congrArg BitVec.toNat (endDecode_idx _)).trans (hcount.trans (Nat.zero_add _)), hprev, hsec⟩

/-- Settles O60: `N0 ≤ r/1320 + 1/2` stays below the Zero window, whose lower bound is `r/1260`, as soon as
`r > 13860`; the rounding up to 10 samples puts 12540 to 12600 Hz back into it. -/
theorem modulatorZeroOutsideEveryWindow : Obligations.ModulatorZeroOutsideEveryWindow := by
  refine ⟨fun r hr => ?_, by decide, fun r hlo hhi => ⟨?_, ?_⟩⟩
  · have habove : 20 * r.toNat ≤ 44100 * samplesZero r := by rw [samplesZero_eq]; omega
    have hbelow : 44100 * samplesZero r < 35 * r.toNat := by rw [samplesZero_eq]; omega
    rw [classify_eq_ite, if_neg (by omega), if_neg (by omega), if_neg (by omega), if_neg (by omega)]
  · rw [samplesZero_eq]
    omega
  · rw [classify_eq_ite, if_neg (by omega), if_pos (by omega)]

end Sys2Proof.Machine

end
